-- ==== Sys2Proof/Word.lean ====
section
/-! DEFINITION. The widths the spec names (00_scope.md R7, R9, R10): every fixed-width value is an unsigned bit vector,
counts are naturals, wall-clock times are exact rationals of milliseconds. -/

namespace Sys2Proof

/-- 8 bits: a control byte, an operation code, a unit index field. -/
abbrev Byte := BitVec 8

/-- 16 bits: a counter, a reload value, the interrupt flags, a register-bus datum (20_memory.md R52). -/
abbrev Half := BitVec 16

/-- 32 bits: a bus address or a command's `opnd` field (20_memory.md R51, 30_encoding.md R72). -/
abbrev Word := BitVec 32

/-- 64 bits: one command word, format CMD64 (30_encoding.md R72). -/
abbrev Cmd := BitVec 64

/-- A wall-clock time or delay in milliseconds, exact (00_scope.md R10). -/
abbrev Ms := Rat

/-- A pixel buffer as the block handles it: it obtains one from the PPU and hands it to Presentation, and never looks
inside (42_scheduler.md R161, R162, R173). The name stands for the buffer (log 20). -/
structure Framebuffer where
  name : Nat
  deriving DecidableEq, Repr, Inhabited

/-- The index of a timer unit, 0..3 (10_state.md R20). -/
abbrev Unit4 := Fin 4

end Sys2Proof
end

