-- ==== Sys2Proof/Syntax.lean ====
section
/-! DEFINITION. The commands (30_encoding.md R73) and the eighteen bus-access rows of spec/opcode_table.json, one
constructor per row. -/

namespace Sys2Proof

/-- One decoded command. Operand widths are those of 30_encoding.md R72 and R75. -/
inductive Instr where
  /-- `TRESET` (40_timer.md R100). -/
  | treset
  /-- `TSTEP cycles` (40_timer.md R101). -/
  | tstep (cycles : Word)
  /-- `TWCTL idx, byte` (40_timer.md R109); `idx` may be out of range (30_encoding.md R76). -/
  | twctl (idx : Byte) (byte : Byte)
  /-- `TWRLD idx, half` (40_timer.md R111); `idx` may be out of range (30_encoding.md R76). -/
  | twrld (idx : Byte) (half : Half)
  /-- `BUSR addr` (41_bus_registers.md R140 to R142, R146), at an address that has no row of its own. -/
  | busr (addr : Word)
  /-- `BUSW addr, data` (41_bus_registers.md R143 to R146), at an address that has no row of its own. -/
  | busw (data : Half) (addr : Word)
  /-- `SRESET` (42_scheduler.md R178). -/
  | sreset
  /-- `START` (42_scheduler.md R165). -/
  | start
  /-- `STOP` (42_scheduler.md R166). -/
  | stop
  /-- `FIRE` (42_scheduler.md R167). -/
  | fire
  /-- `DSTEP` (42_scheduler.md R176). -/
  | dstep
  /-- `SETFPS fps` (42_scheduler.md R177). -/
  | setfps (fps : Word)
  /-- `BUSR` at 0x04000100, TM0CNT at the default parameters (30_encoding.md R71). -/
  | busrTm0cnt
  /-- `BUSW` at 0x04000100, TM0CNT at the default parameters (30_encoding.md R71). -/
  | buswTm0cnt (data : Half)
  /-- `BUSR` at 0x04000104, TM1CNT at the default parameters (30_encoding.md R71). -/
  | busrTm1cnt
  /-- `BUSW` at 0x04000104, TM1CNT at the default parameters (30_encoding.md R71). -/
  | buswTm1cnt (data : Half)
  /-- `BUSR` at 0x04000108, TM2CNT at the default parameters (30_encoding.md R71). -/
  | busrTm2cnt
  /-- `BUSW` at 0x04000108, TM2CNT at the default parameters (30_encoding.md R71). -/
  | buswTm2cnt (data : Half)
  /-- `BUSR` at 0x0400010C, TM3CNT at the default parameters (30_encoding.md R71). -/
  | busrTm3cnt
  /-- `BUSW` at 0x0400010C, TM3CNT at the default parameters (30_encoding.md R71). -/
  | buswTm3cnt (data : Half)
  /-- `BUSR` at 0x04000102, TM0CTL at the default parameters (30_encoding.md R71). -/
  | busrTm0ctl
  /-- `BUSW` at 0x04000102, TM0CTL at the default parameters (30_encoding.md R71). -/
  | buswTm0ctl (data : Half)
  /-- `BUSR` at 0x04000106, TM1CTL at the default parameters (30_encoding.md R71). -/
  | busrTm1ctl
  /-- `BUSW` at 0x04000106, TM1CTL at the default parameters (30_encoding.md R71). -/
  | buswTm1ctl (data : Half)
  /-- `BUSR` at 0x0400010A, TM2CTL at the default parameters (30_encoding.md R71). -/
  | busrTm2ctl
  /-- `BUSW` at 0x0400010A, TM2CTL at the default parameters (30_encoding.md R71). -/
  | buswTm2ctl (data : Half)
  /-- `BUSR` at 0x0400010E, TM3CTL at the default parameters (30_encoding.md R71). -/
  | busrTm3ctl
  /-- `BUSW` at 0x0400010E, TM3CTL at the default parameters (30_encoding.md R71). -/
  | buswTm3ctl (data : Half)
  /-- `BUSR` at 0x04000202, IF at the default parameters (30_encoding.md R71). -/
  | busrIf
  /-- `BUSW` at 0x04000202, IF at the default parameters (30_encoding.md R71). -/
  | buswIf (data : Half)
  deriving DecidableEq, Repr

end Sys2Proof
end

