-- ==== Sys2Proof/WellFormed.lean ====
section
/-! DEFINITION. Which terms of `Instr` a command word stands for. Every operand value of the twelve commands is encodable
(30_encoding.md R72, R76) but for one overlap of the opcode table: `BUSR` and `BUSW` at one of the nine default addresses
are rows, and constructors, of their own. -/

namespace Sys2Proof

/-- The nine default addresses of 20_memory.md R51: the ones the table's BUS16 rows name. -/
def namedAddrs : List Word :=
  [0x04000100, 0x04000104, 0x04000108, 0x0400010C,
   0x04000102, 0x04000106, 0x0400010A, 0x0400010E, 0x04000202]

/-- The check: true of the terms of `Instr` that some command word decodes to. -/
def Instr.wf : Instr → Bool
  | .busr addr => !namedAddrs.contains addr
  | .busw _ addr => !namedAddrs.contains addr
  | .treset => true
  | .tstep _ => true
  | .twctl _ _ => true
  | .twrld _ _ => true
  | .sreset => true
  | .start => true
  | .stop => true
  | .fire => true
  | .dstep => true
  | .setfps _ => true
  | .busrTm0cnt => true
  | .buswTm0cnt _ => true
  | .busrTm1cnt => true
  | .buswTm1cnt _ => true
  | .busrTm2cnt => true
  | .buswTm2cnt _ => true
  | .busrTm3cnt => true
  | .buswTm3cnt _ => true
  | .busrTm0ctl => true
  | .buswTm0ctl _ => true
  | .busrTm1ctl => true
  | .buswTm1ctl _ => true
  | .busrTm2ctl => true
  | .buswTm2ctl _ => true
  | .busrTm3ctl => true
  | .buswTm3ctl _ => true
  | .busrIf => true
  | .buswIf _ => true

/-- `i` is a term some command word decodes to. -/
abbrev Instr.WellFormed (i : Instr) : Prop := i.wf = true

end Sys2Proof
end

