-- ==== Sys2Proof/Decode.lean ====
section
/-! DEFINITION. The decoder of 30_encoding.md R72 to R76, total on every 64-bit word, and the encoder from the same
tables. A command is one 64-bit word; no byte order arises (20_memory.md R54). -/

namespace Sys2Proof

/-- Why a word is no command: both are the spec's `IllegalCommand` (30_encoding.md R74). -/
inductive Reject where
  /-- The `op` field is not in the table of R73. -/
  | undefinedOp
  /-- A field the table says must be zero is not. -/
  | nonzeroField
  deriving DecidableEq, Repr

/-! ### The four fields (30_encoding.md R72) -/

/-- Bits `[63:56]`. -/
def opField (w : Cmd) : Byte := w.extractLsb' 56 8

/-- Bits `[55:48]`. -/
def idxField (w : Cmd) : Byte := w.extractLsb' 48 8

/-- Bits `[47:32]`. -/
def dataField (w : Cmd) : Half := w.extractLsb' 32 16

/-- Bits `[31:0]`. -/
def opndField (w : Cmd) : Word := w.extractLsb' 0 32

/-- The word with these four fields. -/
def pack (op idx : Byte) (data : Half) (opnd : Word) : Cmd := op ++ idx ++ data ++ opnd

/-! ### Operand assembly (30_encoding.md R75) -/

/-- `opnd[7:0]`. -/
def opndByte (o : Word) : Byte := o.extractLsb' 0 8

/-- `opnd[15:0]`. -/
def opndHalf (o : Word) : Half := o.extractLsb' 0 16

/-- `i` where the fields that must be zero are zero, else the rejection of R74. -/
def whenZero (zero : Bool) (i : Instr) : Except Reject Instr :=
  if zero then .ok i else .error .nonzeroField

/-- `BUSR` at `addr`: the row of its own where the table has one (30_encoding.md R71). -/
def decodeBusr (addr : Word) : Instr :=
  if addr = 0x04000100 then .busrTm0cnt
  else if addr = 0x04000104 then .busrTm1cnt
  else if addr = 0x04000108 then .busrTm2cnt
  else if addr = 0x0400010C then .busrTm3cnt
  else if addr = 0x04000102 then .busrTm0ctl
  else if addr = 0x04000106 then .busrTm1ctl
  else if addr = 0x0400010A then .busrTm2ctl
  else if addr = 0x0400010E then .busrTm3ctl
  else if addr = 0x04000202 then .busrIf
  else .busr addr

/-- `BUSW` at `addr`: the row of its own where the table has one (30_encoding.md R71). -/
def decodeBusw (data : Half) (addr : Word) : Instr :=
  if addr = 0x04000100 then .buswTm0cnt data
  else if addr = 0x04000104 then .buswTm1cnt data
  else if addr = 0x04000108 then .buswTm2cnt data
  else if addr = 0x0400010C then .buswTm3cnt data
  else if addr = 0x04000102 then .buswTm0ctl data
  else if addr = 0x04000106 then .buswTm1ctl data
  else if addr = 0x0400010A then .buswTm2ctl data
  else if addr = 0x0400010E then .buswTm3ctl data
  else if addr = 0x04000202 then .buswIf data
  else .busw data addr

/-- The operation codes of 30_encoding.md R73, applied to the fields of a word. -/
def decodeFields (op idx : Byte) (data : Half) (opnd : Word) : Except Reject Instr :=
  if op = 0x01 then whenZero (idx == 0 && data == 0 && opnd == 0) .treset
  else if op = 0x02 then whenZero (idx == 0 && data == 0) (.tstep opnd)
  else if op = 0x03 then
    whenZero (data == 0 && opnd.extractLsb' 8 24 == 0) (.twctl idx (opndByte opnd))
  else if op = 0x04 then
    whenZero (data == 0 && opnd.extractLsb' 16 16 == 0) (.twrld idx (opndHalf opnd))
  else if op = 0x05 then whenZero (idx == 0 && data == 0) (decodeBusr opnd)
  else if op = 0x06 then whenZero (idx == 0) (decodeBusw data opnd)
  else if op = 0x10 then whenZero (idx == 0 && data == 0 && opnd == 0) .sreset
  else if op = 0x11 then whenZero (idx == 0 && data == 0 && opnd == 0) .start
  else if op = 0x12 then whenZero (idx == 0 && data == 0 && opnd == 0) .stop
  else if op = 0x13 then whenZero (idx == 0 && data == 0 && opnd == 0) .fire
  else if op = 0x14 then whenZero (idx == 0 && data == 0 && opnd == 0) .dstep
  else if op = 0x15 then whenZero (idx == 0 && data == 0) (.setfps opnd)
  else .error .undefinedOp

/-- Decode one command word (30_encoding.md R74: total on every 64-bit word). -/
def decode (w : Cmd) : Except Reject Instr :=
  decodeFields (opField w) (idxField w) (dataField w) (opndField w)

/-- The operation code of a command (30_encoding.md R73). -/
def Instr.op : Instr → Byte
  | .treset => 0x01
  | .tstep _ => 0x02
  | .twctl _ _ => 0x03
  | .twrld _ _ => 0x04
  | .busr _ => 0x05
  | .busw _ _ => 0x06
  | .sreset => 0x10
  | .start => 0x11
  | .stop => 0x12
  | .fire => 0x13
  | .dstep => 0x14
  | .setfps _ => 0x15
  | .busrTm0cnt => 0x05
  | .buswTm0cnt _ => 0x06
  | .busrTm1cnt => 0x05
  | .buswTm1cnt _ => 0x06
  | .busrTm2cnt => 0x05
  | .buswTm2cnt _ => 0x06
  | .busrTm3cnt => 0x05
  | .buswTm3cnt _ => 0x06
  | .busrTm0ctl => 0x05
  | .buswTm0ctl _ => 0x06
  | .busrTm1ctl => 0x05
  | .buswTm1ctl _ => 0x06
  | .busrTm2ctl => 0x05
  | .buswTm2ctl _ => 0x06
  | .busrTm3ctl => 0x05
  | .buswTm3ctl _ => 0x06
  | .busrIf => 0x05
  | .buswIf _ => 0x06

/-- The command word of an instruction (30_encoding.md R72, R73, R75). -/
def encode (i : Instr) : Cmd :=
  match i with
  | .treset => pack i.op 0 0 0
  | .tstep cycles => pack i.op 0 0 cycles
  | .twctl idx byte => pack i.op idx 0 (byte.zeroExtend 32)
  | .twrld idx half => pack i.op idx 0 (half.zeroExtend 32)
  | .busr addr => pack i.op 0 0 addr
  | .busw data addr => pack i.op 0 data addr
  | .sreset => pack i.op 0 0 0
  | .start => pack i.op 0 0 0
  | .stop => pack i.op 0 0 0
  | .fire => pack i.op 0 0 0
  | .dstep => pack i.op 0 0 0
  | .setfps fps => pack i.op 0 0 fps
  | .busrTm0cnt => pack i.op 0 0 0x04000100
  | .buswTm0cnt data => pack i.op 0 data 0x04000100
  | .busrTm1cnt => pack i.op 0 0 0x04000104
  | .buswTm1cnt data => pack i.op 0 data 0x04000104
  | .busrTm2cnt => pack i.op 0 0 0x04000108
  | .buswTm2cnt data => pack i.op 0 data 0x04000108
  | .busrTm3cnt => pack i.op 0 0 0x0400010C
  | .buswTm3cnt data => pack i.op 0 data 0x0400010C
  | .busrTm0ctl => pack i.op 0 0 0x04000102
  | .buswTm0ctl data => pack i.op 0 data 0x04000102
  | .busrTm1ctl => pack i.op 0 0 0x04000106
  | .buswTm1ctl data => pack i.op 0 data 0x04000106
  | .busrTm2ctl => pack i.op 0 0 0x0400010A
  | .buswTm2ctl data => pack i.op 0 data 0x0400010A
  | .busrTm3ctl => pack i.op 0 0 0x0400010E
  | .buswTm3ctl data => pack i.op 0 data 0x0400010E
  | .busrIf => pack i.op 0 0 0x04000202
  | .buswIf data => pack i.op 0 data 0x04000202

/-- The instruction the decoder reads from the table word `w` of `nbits` bits: a command is one 64-bit word, so the bits
above `nbits` are zero and no byte order is applied. -/
def decodeTableWord (nbits w : Nat) : Option Instr :=
  match decode (BitVec.ofNat 64 (w % 2 ^ nbits)) with
  | .ok i => some i
  | .error _ => none

end Sys2Proof
end

