-- ==== Sys2Proof/Config.lean ====
section
/-! DEFINITION. What is fixed for one machine but open in the spec (the parameters of 00_scope.md R8 and
93_implementation_defined.md I1 to I3), the shapes of the collaborators' oracle answers (42_scheduler.md R160 to R164),
and the FREE VALUES: constants without a body that answer a collaborator call when no answer is scripted. -/

namespace Sys2Proof

/-- What the register bus does with a write to `IF` (20_memory.md R57). Only a plain store is inside the spec; a machine
on another bus is refused (log 21). -/
inductive IfWrite where
  | plainStore
  | writeOneToClear
  | other
  deriving DecidableEq, Repr

/-- The parameters the spec leaves to the implementation; "the model takes each one as an argument" (00_scope.md R8).
They stand in State and no operation changes them (log 4). -/
structure Params where
  /-- `TMR_BASE`: bus address of timer 0's counter register (R8, R51). -/
  tmrBase : Word
  /-- `TMR_CTL_OFFSET`: from a unit's counter address to its control address (R8, R51). -/
  tmrCtlOffset : Word
  /-- `IF_ADDR`: bus address of the interrupt-flag register (R8, R51). -/
  ifAddr : Word
  /-- `IF_INIT`: the interrupt-flag register at power-on, any value (R8, R45). -/
  ifInit : Half
  /-- `DEFAULT_FPS`: target frame rate at power-on (R8, R44). -/
  defaultFps : Nat
  /-- `T_POWERON`: wall-clock reading at power-on, host-supplied (R8, R44). -/
  tPowerOn : Ms
  /-- Bit number of the IRQ-enable field of the control byte (92_eei_decisions.md D1, I3; log 7). -/
  irqBit : Fin 8
  /-- Lower bit number of the 2-bit prescaler-select field of the control byte (D1, I3; log 7). -/
  selLow : Fin 8
  /-- The bus's `IF` write semantics (20_memory.md R57). -/
  ifWrite : IfWrite
  deriving DecidableEq, Repr

/-- The defaults of 00_scope.md R8 and 10_state.md R23. `IF_INIT` is the value of the spec's examples (log 5), `T_POWERON`
has no default in the spec and is 0 here (DESIGN CHOICE, log 6); the addresses and the positions of IRQ and SEL are the
spec's own general-knowledge defaults (log 4, log 7). -/
def Params.default : Params where
  tmrBase := 0x04000100
  tmrCtlOffset := 2
  ifAddr := 0x04000202
  ifInit := 0x0000
  defaultFps := 60
  tPowerOn := 0
  irqBit := 6
  selLow := 0
  ifWrite := .plainStore

/-- A call the block makes to a collaborator (42_scheduler.md R160 to R164). -/
inductive Call where
  | cpuStep
  | cpuReset
  | ppuStep
  | ppuReset
  | getFramebuffer
  | render
  | inputReset
  | hostNow
  | hostSchedule
  | hostCancel
  deriving DecidableEq, Repr

/-- How a collaborator call that answers with no value ends: it returns, it fails (42_scheduler.md R179), or it
never returns (70_reset_and_hazards.md R243). -/
inductive Reply where
  | ok
  | fail
  | never
  deriving DecidableEq, Repr, Inhabited

/-- How `CPU.step()` ends (42_scheduler.md R160): a cycle count, `FAIL`, or never (93_implementation_defined.md I19). -/
inductive CpuResult where
  | cycles (n : Nat)
  | fail
  | never
  deriving DecidableEq, Repr, Inhabited

/-- One answer of `CPU.step()`: the block commands the CPU issues during the call, in order (42_scheduler.md R182), and
then its result. -/
structure CpuAnswer where
  nested : List Cmd
  result : CpuResult
  deriving DecidableEq, Repr, Inhabited

/-- What the PPU may do during `PPU.step`: issue a block command (42_scheduler.md R182), or call its end-of-frame
observer (R174). -/
inductive PpuAct where
  | command (w : Cmd)
  | endOfFrame
  deriving DecidableEq, Repr

/-- One answer of `PPU.step(r)`. -/
structure PpuAnswer where
  acts : List PpuAct
  reply : Reply
  deriving DecidableEq, Repr, Inhabited

/-- How `PPU.getFramebuffer()` ends: with a pixel buffer (42_scheduler.md R161), with a failure (R179), or never
(70_reset_and_hazards.md R243). -/
inductive FbResult where
  | buffer (fb : Framebuffer)
  | fail
  | never
  deriving DecidableEq, Repr, Inhabited

/-- One answer of `PPU.getFramebuffer()`: the block commands issued during the call, and then its result. -/
structure FbAnswer where
  nested : List Cmd
  result : FbResult
  deriving DecidableEq, Repr, Inhabited

/-- One answer of `Presentation.render` or a collaborator's `reset`: the block commands issued during the call, and then
how it ends. -/
structure CallAnswer where
  nested : List Cmd
  reply : Reply
  deriving DecidableEq, Repr, Inhabited

/-- One answer of `Host.now()`: a reading, or it never returns (70_reset_and_hazards.md R243). -/
inductive NowAnswer where
  | reads (t : Ms)
  | never
  deriving DecidableEq, Repr, Inhabited

/-- FREE VALUE (93_implementation_defined.md I5, I19): the `n`-th unscripted answer of `CPU.step()` (log 9). -/
opaque Config.freeCpu : Nat → CpuAnswer

/-- FREE VALUE (I8, I12): the `n`-th unscripted answer of `PPU.step` (log 9). -/
opaque Config.freePpu : Nat → PpuAnswer

/-- FREE VALUE (I12, and the buffer, which is the PPU's): the `n`-th unscripted answer of `PPU.getFramebuffer()`
(log 9, log 20). -/
opaque Config.freeFb : Nat → FbAnswer

/-- FREE VALUE (I12): the `n`-th unscripted answer of `render` or a `reset` (log 9). -/
opaque Config.freeCall : Nat → CallAnswer

/-- FREE VALUE (I12): the `n`-th unscripted answer of `Host.schedule` or `Host.cancel` (log 9). -/
opaque Config.freeHost : Nat → Reply

/-- FREE VALUE (I6): the `n`-th unscripted answer of `Host.now()` (log 9, log 11). -/
opaque Config.freeNow : Nat → NowAnswer

end Sys2Proof
end

