-- ==== Sys2Proof/Machine/State.lean ====
section
/-! DEFINITION. The state of the machine: the timer array, the interrupt-flag register and the scheduler's registers
(10_state.md R20 to R41), the parameters of 00_scope.md R8, and the model's own fields for the outside world and the
block's outputs. -/

namespace Sys2Proof.Machine

/-- A timer unit (10_state.md R20 to R23). -/
structure TimerUnit where
  counter : Half
  reload : Half
  control : Byte
  deriving DecidableEq, Repr, Inhabited

/-- A unit after timer reset (10_state.md R43). -/
def TimerUnit.zero : TimerUnit := ⟨0, 0, 0⟩

/-- The scheduler's two states (10_state.md R35). -/
inductive SchedState where
  | stopped
  | running
  deriving DecidableEq, Repr

/-- A host scheduling handle (10_state.md R36). `num` names it, in the order of scheduling (log 13); `due` is the earliest
wall-clock time at which the host may fire it (42_scheduler.md R164, log 12). -/
structure Handle where
  num : Nat
  due : Ms
  deriving DecidableEq, Repr

/-- A fault of the block with the information it records (60_exceptions.md R200). -/
inductive BlockFault where
  | configurationError (idx : Byte)
  | illegalCommand (word : Cmd)
  | unmodelledAccess (addr : Word)
  | debugStepWhileRunning
  | invalidFrameRate (rate : Word)
  | reentrantCommand (op : Byte)
  | collaboratorFailure (call : Call)
  deriving DecidableEq, Repr

/-- The scheduler registers `S.<field>` (10_state.md R35 to R41). -/
structure Scheduler where
  state : SchedState
  pending : Option Handle
  acc : Nat
  targetFps : Nat
  interval : Ms
  frameCount : Nat
  measuredFps : Nat
  lastSampleTime : Ms
  frameStart : Ms
  busy : Bool
  fault : Option BlockFault
  deriving DecidableEq, Repr

/-- The model's own fields for the outside world (log 2, log 9): the commands issued and not yet taken, and the
collaborators' coming answers, each list oldest first. Where a list of answers is empty, the next answer is a free value
of Config, applied to `draws`. -/
structure Env where
  cmds : List Cmd
  cpu : List CpuAnswer
  ppu : List PpuAnswer
  fbs : List FbAnswer
  calls : List CallAnswer
  host : List Reply
  now : List NowAnswer
  draws : Nat
  /-- No later reading of the host's clock is below this (42_scheduler.md R164, log 11). -/
  clock : Ms
  /-- The name of the next scheduling handle (log 13). -/
  nextHandle : Nat
  deriving DecidableEq, Repr

/-- What the block does to the outside world, in program order (log 20): its collaborator calls, its own accesses to `IF`
(20_memory.md R56), the value a `BUSR` returns, and the event of 60_exceptions.md R202. -/
inductive Output where
  | cpuStep
  | cpuReset
  | ppuStep (cycles : Nat)
  | ppuReset
  | getFramebuffer
  | render (fb : Framebuffer)
  | inputReset
  | hostNow (reading : Ms)
  | hostSchedule (handle : Nat) (delay : Ms)
  | hostCancel (handle : Nat)
  | ifRead (value : Half)
  | ifWrite (value : Half)
  | busValue (addr : Word) (value : Half)
  | cpuStepFailure
  deriving DecidableEq, Repr

/-- The state of the machine. -/
structure State where
  params : Params
  /-- `T[0..3]` (10_state.md R20). -/
  timers : Vector TimerUnit 4
  /-- `IF` (10_state.md R32). -/
  ifr : Half
  /-- `S` (10_state.md R35 to R41). -/
  sched : Scheduler
  /-- The outside world (the model's own, log 2, log 9). -/
  env : Env
  /-- The block's outputs, newest first (the model's own, log 20). -/
  trace : List Output
  /-- The collaborator call that never returned, if one did (the model's own, log 16). -/
  stuck : Option Call
  deriving DecidableEq, Repr

/-- Why the machine stops for good. The block's own faults (60_exceptions.md R200) are NOT these: each is a next state
with `S.fault` written (log 1). -/
inductive Fault where
  /-- Raised by every command issued after a collaborator call that never returned: the block is still inside that call
  (93_implementation_defined.md I19, 70_reset_and_hazards.md R243). Safe: the state reached is kept, nothing runs on. -/
  | neverReturned (call : Call)
  deriving DecidableEq, Repr

/-- Why the machine has no meaning for a step. -/
inductive Refusal where
  /-- Raised by an arm of `exec` whose instruction has no meaning yet (there is none). Safe. -/
  | notModelled (mnemonic : String)
  /-- Raised by `step` before any command: the parameters break 20_memory.md R51 ("refused") or are no legal choice
  (log 21). Safe. -/
  | illFormedParameters
  /-- Raised by `step` before any command: the bus's write to `IF` is no plain store (20_memory.md R57, "A model must
  refuse it"; log 21). Safe. -/
  | ifBusNotPlainStore
  deriving DecidableEq, Repr

/-- The scheduler at power-on (10_state.md R44). -/
def Scheduler.powerOn (p : Params) : Scheduler where
  state := .stopped
  pending := none
  acc := 0
  targetFps := p.defaultFps
  interval := 1000 / (p.defaultFps : Ms)
  frameCount := 0
  measuredFps := 0
  lastSampleTime := p.tPowerOn
  frameStart := p.tPowerOn
  busy := false
  fault := none

/-- The outside world at power-on: nothing issued, nothing scripted (log 2, log 9). -/
def Env.powerOn (p : Params) : Env where
  cmds := []
  cpu := []
  ppu := []
  fbs := []
  calls := []
  host := []
  now := []
  draws := 0
  clock := p.tPowerOn
  nextHandle := 0

/-- The machine at power-on with the parameters `p` (70_reset_and_hazards.md R230; 10_state.md R43 to R45). -/
def State.powerOn (p : Params) : State where
  params := p
  timers := Vector.replicate 4 TimerUnit.zero
  ifr := p.ifInit
  sched := Scheduler.powerOn p
  env := Env.powerOn p
  trace := []
  stuck := none

/-- The machine right after power-on, with the default parameters (log 4 to log 7). -/
def State.reset : State := State.powerOn Params.default

end Sys2Proof.Machine
end

