-- ==== Sys2Proof/Machine/Flags.lean ====
section
/-! DEFINITION. The control byte's fields (10_state.md R23 to R29, 30_encoding.md R70) and the interrupt-flag computation
(20_memory.md R56, 40_timer.md R105). These overflow flags are the block's only flags. -/

namespace Sys2Proof.Machine

/-- `EN`, control bit 7 (10_state.md R24). -/
def ctlEnabled (b : Byte) : Bool := b.getLsbD 7

/-- `CAS`, control bit 2 (10_state.md R25). -/
def ctlCascade (b : Byte) : Bool := b.getLsbD 2

/-- `IRQ`: control bit 6 at the default parameters (10_state.md R26; log 7). -/
def ctlIrq (p : Params) (b : Byte) : Bool := b.getLsbD p.irqBit

/-- `SEL`: control bits 1:0 at the default parameters (10_state.md R27; log 7). -/
def ctlSel (p : Params) (b : Byte) : Nat := (b.extractLsb' p.selLow 2).toNat

/-- The prescaler table `DIV` (10_state.md R29); a select value is below 4. -/
def divisor (sel : Nat) : Nat :=
  match sel with
  | 0 => 1
  | 1 => 64
  | 2 => 256
  | _ => 1024

/-- The increment of a unit that counts cycles directly: floor division, no remainder kept (40_timer.md R102). -/
def advance (p : Params) (control : Byte) (elapsed : Nat) : Nat := elapsed / divisor (ctlSel p control)

/-- The bit of `IF` that unit `i`'s overflow sets (10_state.md R33). -/
def ifBit (i : Unit4) : Nat := 3 + i.val

/-- `IF` with bit `k` set and the others as read (20_memory.md R56: set, not toggled, 90_conflicts.md C1). -/
def ifWithBit (v : Half) (k : Nat) : Half := v ||| (1#16 <<< k)

/-- The event's code (60_exceptions.md R200). -/
def cpuStepFailureCode : Byte := 0x10

/-- The faults' codes (60_exceptions.md R200). -/
def BlockFault.code : BlockFault → Byte
  | .configurationError _ => 0x01
  | .illegalCommand _ => 0x02
  | .unmodelledAccess _ => 0x03
  | .debugStepWhileRunning => 0x04
  | .invalidFrameRate _ => 0x05
  | .reentrantCommand _ => 0x06
  | .collaboratorFailure _ => 0x07

end Sys2Proof.Machine
end

