-- ==== Sys2Proof/Machine/Operands.lean ====
section
/-! DEFINITION. What a command's operands name: a timer unit (40_timer.md R112), a block register at a bus address
(20_memory.md R51, 30_encoding.md R71), a cycle count or a frame rate (30_encoding.md R75). -/

namespace Sys2Proof.Machine

/-- The timer unit an index names; none when it is 4 or more (40_timer.md R112). -/
def unitOfIdx (idx : Byte) : Option Unit4 := if h : idx.toNat < 4 then some ⟨idx.toNat, h⟩ else none

/-- A block register the bus reaches (20_memory.md R51). -/
inductive BusReg where
  | counter (i : Unit4)
  | control (i : Unit4)
  | ifReg
  deriving DecidableEq, Repr

/-- Unit `i`'s counter address, `TMR_BASE + 4*i` (00_scope.md R8). -/
def cntAddr (p : Params) (i : Unit4) : Word := p.tmrBase + BitVec.ofNat 32 (4 * i.val)

/-- Unit `i`'s control address, `TMR_BASE + TMR_CTL_OFFSET + 4*i` (00_scope.md R8). -/
def ctlAddr (p : Params) (i : Unit4) : Word := p.tmrBase + p.tmrCtlOffset + BitVec.ofNat 32 (4 * i.val)

/-- The bus address map (20_memory.md R51). -/
def busMap (p : Params) : List (Word × BusReg) :=
  [(cntAddr p 0, .counter 0), (cntAddr p 1, .counter 1), (cntAddr p 2, .counter 2), (cntAddr p 3, .counter 3),
   (ctlAddr p 0, .control 0), (ctlAddr p 1, .control 1), (ctlAddr p 2, .control 2), (ctlAddr p 3, .control 3),
   (p.ifAddr, .ifReg)]

/-- The register at a bus address (30_encoding.md R71). -/
def regAt (p : Params) (addr : Word) : Option BusReg := (busMap p).lookup addr

/-- The nine addresses are distinct and even (20_memory.md R51) and lie in the 32-bit address space. -/
def addrsWf (p : Params) : Bool :=
  decide ((busMap p).map Prod.fst).Nodup && (busMap p).all (fun e => !e.1.getLsbD 0) &&
    decide (p.tmrBase.toNat + p.tmrCtlOffset.toNat + 12 < 2 ^ 32)

/-- IRQ and SEL lie in the control byte and avoid EN, CAS and each other (92_eei_decisions.md D1; log 7). -/
def fieldsWf (p : Params) : Bool :=
  let taken : List Nat := [7, 2, p.irqBit.val, p.selLow.val, p.selLow.val + 1]
  decide taken.Nodup && decide (p.selLow.val + 1 < 8)

/-- A legal choice of the parameters: the addresses, the control fields, a positive default frame rate and a non-negative
power-on time (00_scope.md R8, R10; log 21). -/
def paramsWf (p : Params) : Bool :=
  addrsWf p && fieldsWf p && decide (0 < p.defaultFps) && decide (0 ≤ p.tPowerOn)

/-- `zext(opnd)`: a cycle count or a frame rate as a natural number (30_encoding.md R75). -/
def natOfOpnd (o : Word) : Nat := o.toNat

/-- The low byte of a half-word written to a control address (20_memory.md R54). -/
def lowByte (v : Half) : Byte := v.extractLsb' 0 8

/-- A control byte read as a half-word, bits 15:8 zero (41_bus_registers.md R141). -/
def halfOfByte (b : Byte) : Half := b.zeroExtend 16

end Sys2Proof.Machine
end

