-- ==== Sys2Proof/Machine/Ops.lean ====
section
/-! DEFINITION. The shared operations: raising a fault (60_exceptions.md R201), running an operation as a command, going on
only while nothing has stopped the operation, logging an output, taking the outside world's next answer, and the host's
three primitives (42_scheduler.md R164). -/

namespace Sys2Proof.Machine

/-! ### Faults and sequencing -/

/-- Nothing has stopped the block: no fault is recorded (60_exceptions.md R201) and no collaborator call hangs. -/
def State.live (s : State) : Bool := s.sched.fault.isNone && s.stuck.isNone

/-- Raise a fault: `S.fault` takes it unless one is recorded already, and nothing else changes (60_exceptions.md R201).
This is all of "taking an exception" here: no vector, no saved register, no mode change, no return (R209, R210). -/
def State.raise (s : State) (f : BlockFault) : State :=
  { s with sched := { s.sched with fault := s.sched.fault.or (some f) } }

/-- The collaborator call `c` never returns: the block stays inside it (70_reset_and_hazards.md R243; log 16). -/
def State.hang (s : State) (c : Call) : State := { s with stuck := s.stuck.or (some c) }

/-- Go on with `k` unless a fault or a hang has stopped the outermost operation (60_exceptions.md R201, item 2). -/
def State.andThen (s : State) (k : State → State) : State := if s.live then k s else s

/-- Run the operation `f` as a command. After a fault it has no effect (60_exceptions.md R201, item 4); inside a call that
never returns no command can be issued at all (log 16). -/
def command (f : State → State) (s : State) : Host.Outcome State Fault Refusal :=
  match s.stuck with
  | some c => .fault (.neverReturned c)
  | none => .next (if s.sched.fault.isNone then f s else s)

/-- A command not allowed while `S.busy` is true (42_scheduler.md R182). -/
def unlessBusy (op : Byte) (f : State → State) (s : State) : State :=
  if s.sched.busy then s.raise (.reentrantCommand op) else f s

/-- Send an output to the outside world (log 20). -/
def State.log (s : State) (o : Output) : State := { s with trace := o :: s.trace }

/-! ### Register writes -/

/-- `T[i] <- u`. -/
def State.setUnit (s : State) (i : Unit4) (u : TimerUnit) : State := { s with timers := s.timers.set i u }

/-- `IF <- v`. -/
def State.setIf (s : State) (v : Half) : State := { s with ifr := v }

/-- `S.state <- v`. -/
def State.setState (s : State) (v : SchedState) : State := { s with sched := { s.sched with state := v } }

/-- `S.pending <- v`. -/
def State.setPending (s : State) (v : Option Handle) : State := { s with sched := { s.sched with pending := v } }

/-- `S.acc <- v`. -/
def State.setAcc (s : State) (v : Nat) : State := { s with sched := { s.sched with acc := v } }

/-- `S.targetFps <- n; S.interval <- 1000 / n` (10_state.md R38). -/
def State.setRate (s : State) (n : Nat) : State :=
  { s with sched := { s.sched with targetFps := n, interval := 1000 / (n : Ms) } }

/-- `S.frameStart <- t`. -/
def State.setFrameStart (s : State) (t : Ms) : State := { s with sched := { s.sched with frameStart := t } }

/-- `S.busy <- b`. -/
def State.setBusy (s : State) (b : Bool) : State := { s with sched := { s.sched with busy := b } }

/-! ### The outside world's next answer: the scripted one, else a free value (log 9) -/

/-- The next answer of `CPU.step()`. -/
def State.takeCpu (s : State) : CpuAnswer × State :=
  match s.env.cpu with
  | a :: rest => (a, { s with env := { s.env with cpu := rest } })
  | [] => (Config.freeCpu s.env.draws, { s with env := { s.env with draws := s.env.draws + 1 } })

/-- The next answer of `PPU.step`. -/
def State.takePpu (s : State) : PpuAnswer × State :=
  match s.env.ppu with
  | a :: rest => (a, { s with env := { s.env with ppu := rest } })
  | [] => (Config.freePpu s.env.draws, { s with env := { s.env with draws := s.env.draws + 1 } })

/-- The next answer of `PPU.getFramebuffer()`. -/
def State.takeFb (s : State) : FbAnswer × State :=
  match s.env.fbs with
  | a :: rest => (a, { s with env := { s.env with fbs := rest } })
  | [] => (Config.freeFb s.env.draws, { s with env := { s.env with draws := s.env.draws + 1 } })

/-- The next answer of `render` or a collaborator's `reset`. -/
def State.takeCall (s : State) : CallAnswer × State :=
  match s.env.calls with
  | a :: rest => (a, { s with env := { s.env with calls := rest } })
  | [] => (Config.freeCall s.env.draws, { s with env := { s.env with draws := s.env.draws + 1 } })

/-- The next answer of `Host.schedule` or `Host.cancel`. -/
def State.takeHost (s : State) : Reply × State :=
  match s.env.host with
  | a :: rest => (a, { s with env := { s.env with host := rest } })
  | [] => (Config.freeHost s.env.draws, { s with env := { s.env with draws := s.env.draws + 1 } })

/-- The next answer of `Host.now()`. -/
def State.takeNow (s : State) : NowAnswer × State :=
  match s.env.now with
  | a :: rest => (a, { s with env := { s.env with now := rest } })
  | [] => (Config.freeNow s.env.draws, { s with env := { s.env with draws := s.env.draws + 1 } })

/-- How the block goes on after a collaborator call that ended in `r`: a failure is the fault `CollaboratorFailure`
(42_scheduler.md R179). -/
def State.onReply (s : State) (c : Call) (r : Reply) : State :=
  match r with
  | .ok => s
  | .fail => s.raise (.collaboratorFailure c)
  | .never => s.hang c

/-! ### The host's primitives (42_scheduler.md R164) -/

/-- Time has passed to `t` at least. -/
def State.clockTo (s : State) (t : Ms) : State := { s with env := { s.env with clock := max s.env.clock t } }

/-- `Host.now()`: a reading that never decreases (log 11). The first component is the reading. -/
def State.hostNow (s : State) : Ms × State :=
  match s.takeNow with
  | (.reads t, s1) => (max s1.env.clock t, (s1.clockTo t).log (.hostNow (max s1.env.clock t)))
  | (.never, s1) => (s1.env.clock, s1.hang .hostNow)

/-- A call of `Host.schedule` or `Host.cancel`: the host issues no command inside it (60_exceptions.md R214; log 15). -/
def hostCall (c : Call) (o : Output) (s : State) : State :=
  (s.log o).takeHost.2.onReply c (s.log o).takeHost.1

/-- The handle the host gives to a schedule call: the next name, due no earlier than `delay` from now (log 12, log 13). -/
def State.freshHandle (s : State) (delay : Ms) : Handle := ⟨s.env.nextHandle, s.env.clock + delay⟩

/-- The next handle's name is used up. -/
def State.issued (s : State) : State := { s with env := { s.env with nextHandle := s.env.nextHandle + 1 } }

/-- `S.pending <- Host.schedule(RunFrame, delay)`. -/
def State.schedule (s : State) (delay : Ms) : State :=
  (hostCall .hostSchedule (.hostSchedule s.env.nextHandle delay) s).andThen fun s1 =>
    (s1.setPending (some (s.freshHandle delay))).issued

/-- `if S.pending != none: Host.cancel(S.pending); S.pending <- none` (42_scheduler.md R166, R170). A cancel that fails
leaves the handle where it is (log 17). -/
def State.cancelPending (s : State) : State :=
  match s.sched.pending with
  | none => s
  | some h => (hostCall .hostCancel (.hostCancel h.num) s).andThen fun s1 => s1.setPending none

end Sys2Proof.Machine
end

