-- ==== Sys2Proof/Machine/Timer.lean ====
section
/-! DEFINITION. The Timer Subsystem (40_timer.md): IFSet, INC, and the operations and commands TRESET, TSTEP, TWCTL,
TWRLD. -/

namespace Sys2Proof.Machine

/-- Unit `i`, `T[i]`. -/
def State.unit (s : State) (i : Unit4) : TimerUnit := s.timers[i]

/-- `IFSet(k)`: read `IF`, set bit `k`, write `IF` back, in one step (20_memory.md R56). -/
def ifSet (k : Nat) (s : State) : State :=
  ((s.log (.ifRead s.ifr)).setIf (ifWithBit s.ifr k)).log (.ifWrite (ifWithBit s.ifr k))

/-- Unit `i`'s counter after `n` more counts: the sum if it fits, else the reload value (40_timer.md R104, R108). -/
def TimerUnit.count (u : TimerUnit) (n : Nat) : TimerUnit :=
  if u.counter.toNat + n ≤ 0xFFFF then { u with counter := BitVec.ofNat 16 (u.counter.toNat + n) }
  else { u with counter := u.reload }

/-- Unit `u` overflows when `n` is added (40_timer.md R104). -/
def TimerUnit.overflows (u : TimerUnit) (n : Nat) : Bool := decide (0xFFFF < u.counter.toNat + n)

/-- Unit `u` takes its predecessor's overflows: enabled and in cascade mode (40_timer.md R106). -/
def TimerUnit.cascades (u : TimerUnit) : Bool := ctlEnabled u.control && ctlCascade u.control

/-- The part of `INC(i, n)` that touches unit `i` alone: the new counter and, on an overflow with `IRQ = 1`, the flag
(40_timer.md R104, R105). -/
def bump (i : Unit4) (n : Nat) (s : State) : State :=
  if (s.unit i).overflows n && ctlIrq s.params (s.unit i).control then
    ifSet (ifBit i) (s.setUnit i ((s.unit i).count n))
  else s.setUnit i ((s.unit i).count n)

/-- `INC` along units of which each is the predecessor of the next (40_timer.md R104, R106): the first takes `n`, each
further one takes 1 when the one before it overflows and it cascades. -/
def incAlong : List Unit4 → Nat → State → State
  | [], _, s => s
  | [i], n, s => bump i n s
  | i :: j :: is, n, s =>
    if (s.unit i).overflows n && ((bump i n s).unit j).cascades then incAlong (j :: is) 1 (bump i n s)
    else bump i n s

/-- The units from `i` upward: the way a cascade can go (40_timer.md R107). -/
def unitsFrom (i : Unit4) : List Unit4 := [0, 1, 2, 3].drop i.val

/-- `INC(i, n)` (40_timer.md R104). -/
def inc (i : Unit4) (n : Nat) (s : State) : State := incAlong (unitsFrom i) n s

/-- `TSTEP`'s visit of unit `i` (40_timer.md R101): a disabled unit is skipped, a cascade unit above 0 consumes no cycles. -/
def visit (elapsed : Nat) (s : State) (i : Unit4) : State :=
  if !ctlEnabled (s.unit i).control then s
  else if decide (0 < i.val) && ctlCascade (s.unit i).control then s
  else inc i (advance s.params (s.unit i).control elapsed) s

/-- `step(elapsedCycles)`: the units in ascending order (40_timer.md R101). -/
def timerStep (elapsed : Nat) (s : State) : State := [0, 1, 2, 3].foldl (visit elapsed) s

/-- `reset()` of the Timer Subsystem (40_timer.md R100). -/
def timerReset (s : State) : State := { s with timers := Vector.replicate 4 TimerUnit.zero }

/-- A unit after its control byte is written: a disabled unit that becomes enabled starts from its reload value
(40_timer.md R109, R110). -/
def TimerUnit.withControl (u : TimerUnit) (b : Byte) : TimerUnit :=
  if !ctlEnabled u.control && ctlEnabled b then { u with control := b, counter := u.reload }
  else { u with control := b }

/-- `writeControl(i, b)` of a unit that exists (40_timer.md R109). -/
def writeControl (i : Unit4) (b : Byte) (s : State) : State := s.setUnit i ((s.unit i).withControl b)

/-- `writeReload(i, h)` of a unit that exists (40_timer.md R111). -/
def writeReload (i : Unit4) (h : Half) (s : State) : State := s.setUnit i { s.unit i with reload := h }

/-! ### The operations as commands issue them -/

/-- `TRESET` with its check (42_scheduler.md R182). -/
def tresetOp (s : State) : State := unlessBusy 0x01 timerReset s

/-- `TSTEP` with its check (42_scheduler.md R182). -/
def tstepOp (cycles : Word) (s : State) : State := unlessBusy 0x02 (timerStep (natOfOpnd cycles)) s

/-- `TWCTL` with its index check (40_timer.md R112). -/
def twctlOp (idx byte : Byte) (s : State) : State :=
  match unitOfIdx idx with
  | some i => writeControl i byte s
  | none => s.raise (.configurationError idx)

/-- `TWRLD` with its index check (40_timer.md R112). -/
def twrldOp (idx : Byte) (half : Half) (s : State) : State :=
  match unitOfIdx idx with
  | some i => writeReload i half s
  | none => s.raise (.configurationError idx)

/-! ### Meanings -/

/-- `TRESET` (40_timer.md R100). -/
def execTreset (s : State) : Host.Outcome State Fault Refusal := command tresetOp s

/-- `TSTEP cycles` (40_timer.md R101). -/
def execTstep (cycles : Word) (s : State) : Host.Outcome State Fault Refusal := command (tstepOp cycles) s

/-- `TWCTL idx, byte` (40_timer.md R109). -/
def execTwctl (idx byte : Byte) (s : State) : Host.Outcome State Fault Refusal := command (twctlOp idx byte) s

/-- `TWRLD idx, half` (40_timer.md R111). -/
def execTwrld (idx : Byte) (half : Half) (s : State) : Host.Outcome State Fault Refusal :=
  command (twrldOp idx half) s

end Sys2Proof.Machine
end

