-- ==== Sys2Proof/Machine/Bus.lean ====
section
/-! DEFINITION. Register-bus accesses at the block's addresses (41_bus_registers.md): BUSR, BUSW and the table's eighteen
rows at the default addresses. No access needs a busy check (R147). -/

namespace Sys2Proof.Machine

/-- What a read of a block register returns (41_bus_registers.md R140 to R142). -/
def busValue (s : State) (r : BusReg) : Half :=
  match r with
  | .counter i => (s.unit i).counter
  | .control i => halfOfByte (s.unit i).control
  | .ifReg => s.ifr

/-- What a write to a block register does: it routes through the timer operations (41_bus_registers.md R143, R144) or is a
plain store to `IF` (R145). -/
def busStore (r : BusReg) (v : Half) (s : State) : State :=
  match r with
  | .counter i => writeReload i v s
  | .control i => writeControl i (lowByte v) s
  | .ifReg => s.setIf v

/-- `BUSR addr`: the value goes to the reader and no state changes (41_bus_registers.md R140 to R142); another address
raises `UnmodelledAccess` (R146). -/
def busrOp (addr : Word) (s : State) : State :=
  match regAt s.params addr with
  | some r => s.log (.busValue addr (busValue s r))
  | none => s.raise (.unmodelledAccess addr)

/-- `BUSW addr, data` (41_bus_registers.md R143 to R146). -/
def buswOp (data : Half) (addr : Word) (s : State) : State :=
  match regAt s.params addr with
  | some r => busStore r data s
  | none => s.raise (.unmodelledAccess addr)

/-! ### Meanings -/

/-- `BUSR addr` (41_bus_registers.md R140 to R142, R146). -/
def execBusr (addr : Word) (s : State) : Host.Outcome State Fault Refusal := command (busrOp addr) s

/-- `BUSW addr, data` (41_bus_registers.md R143 to R146). -/
def execBusw (data : Half) (addr : Word) (s : State) : Host.Outcome State Fault Refusal := command (buswOp data addr) s

/-- `BUSR` at 0x04000100: TM0CNT at the default parameters (41_bus_registers.md R140; log 8). -/
def execBusrTm0cnt (s : State) : Host.Outcome State Fault Refusal := command (busrOp 0x04000100) s

/-- `BUSW` at 0x04000100: TM0CNT at the default parameters (41_bus_registers.md R143; log 8). -/
def execBuswTm0cnt (data : Half) (s : State) : Host.Outcome State Fault Refusal := command (buswOp data 0x04000100) s

/-- `BUSR` at 0x04000104: TM1CNT at the default parameters (41_bus_registers.md R140; log 8). -/
def execBusrTm1cnt (s : State) : Host.Outcome State Fault Refusal := command (busrOp 0x04000104) s

/-- `BUSW` at 0x04000104: TM1CNT at the default parameters (41_bus_registers.md R143; log 8). -/
def execBuswTm1cnt (data : Half) (s : State) : Host.Outcome State Fault Refusal := command (buswOp data 0x04000104) s

/-- `BUSR` at 0x04000108: TM2CNT at the default parameters (41_bus_registers.md R140; log 8). -/
def execBusrTm2cnt (s : State) : Host.Outcome State Fault Refusal := command (busrOp 0x04000108) s

/-- `BUSW` at 0x04000108: TM2CNT at the default parameters (41_bus_registers.md R143; log 8). -/
def execBuswTm2cnt (data : Half) (s : State) : Host.Outcome State Fault Refusal := command (buswOp data 0x04000108) s

/-- `BUSR` at 0x0400010C: TM3CNT at the default parameters (41_bus_registers.md R140; log 8). -/
def execBusrTm3cnt (s : State) : Host.Outcome State Fault Refusal := command (busrOp 0x0400010C) s

/-- `BUSW` at 0x0400010C: TM3CNT at the default parameters (41_bus_registers.md R143; log 8). -/
def execBuswTm3cnt (data : Half) (s : State) : Host.Outcome State Fault Refusal := command (buswOp data 0x0400010C) s

/-- `BUSR` at 0x04000102: TM0CTL at the default parameters (41_bus_registers.md R141; log 8). -/
def execBusrTm0ctl (s : State) : Host.Outcome State Fault Refusal := command (busrOp 0x04000102) s

/-- `BUSW` at 0x04000102: TM0CTL at the default parameters (41_bus_registers.md R144; log 8). -/
def execBuswTm0ctl (data : Half) (s : State) : Host.Outcome State Fault Refusal := command (buswOp data 0x04000102) s

/-- `BUSR` at 0x04000106: TM1CTL at the default parameters (41_bus_registers.md R141; log 8). -/
def execBusrTm1ctl (s : State) : Host.Outcome State Fault Refusal := command (busrOp 0x04000106) s

/-- `BUSW` at 0x04000106: TM1CTL at the default parameters (41_bus_registers.md R144; log 8). -/
def execBuswTm1ctl (data : Half) (s : State) : Host.Outcome State Fault Refusal := command (buswOp data 0x04000106) s

/-- `BUSR` at 0x0400010A: TM2CTL at the default parameters (41_bus_registers.md R141; log 8). -/
def execBusrTm2ctl (s : State) : Host.Outcome State Fault Refusal := command (busrOp 0x0400010A) s

/-- `BUSW` at 0x0400010A: TM2CTL at the default parameters (41_bus_registers.md R144; log 8). -/
def execBuswTm2ctl (data : Half) (s : State) : Host.Outcome State Fault Refusal := command (buswOp data 0x0400010A) s

/-- `BUSR` at 0x0400010E: TM3CTL at the default parameters (41_bus_registers.md R141; log 8). -/
def execBusrTm3ctl (s : State) : Host.Outcome State Fault Refusal := command (busrOp 0x0400010E) s

/-- `BUSW` at 0x0400010E: TM3CTL at the default parameters (41_bus_registers.md R144; log 8). -/
def execBuswTm3ctl (data : Half) (s : State) : Host.Outcome State Fault Refusal := command (buswOp data 0x0400010E) s

/-- `BUSR` at 0x04000202: IF at the default parameters (41_bus_registers.md R142; log 8). -/
def execBusrIf (s : State) : Host.Outcome State Fault Refusal := command (busrOp 0x04000202) s

/-- `BUSW` at 0x04000202: IF at the default parameters (41_bus_registers.md R145; log 8). -/
def execBuswIf (data : Half) (s : State) : Host.Outcome State Fault Refusal := command (buswOp data 0x04000202) s

end Sys2Proof.Machine
end

