-- ==== Sys2Proof/Machine/Sched.lean ====
section
/-! DEFINITION. The scheduler operations that call no collaborator with nested commands: START, STOP, SETFPS
(42_scheduler.md R165, R166, R177), and the checks of FIRE and DSTEP (R167, R176). -/

namespace Sys2Proof.Machine

/-- `START` (42_scheduler.md R165). -/
def startOp (s : State) : State :=
  match s.sched.state with
  | .running => s
  | .stopped => (s.setState .running).schedule 0

/-- `STOP` (42_scheduler.md R166). -/
def stopOp (s : State) : State :=
  match s.sched.state with
  | .stopped => s
  | .running => (s.setState .stopped).cancelPending

/-- `SETFPS n` (42_scheduler.md R177). -/
def setfpsOp (fps : Word) (s : State) : State :=
  if natOfOpnd fps = 0 then s.raise (.invalidFrameRate fps) else s.setRate (natOfOpnd fps)

/-- `FIRE`'s checks around its body (42_scheduler.md R167): nothing pending is no move at all, then the busy check. -/
def fireGate (body : State → State) (s : State) : State :=
  match s.sched.pending with
  | none => s
  | some _ => unlessBusy 0x13 body s

/-- `DSTEP`'s checks around its body (42_scheduler.md R176): `Running` first, then the busy check. -/
def dstepGate (body : State → State) (s : State) : State :=
  match s.sched.state with
  | .running => s.raise .debugStepWhileRunning
  | .stopped => unlessBusy 0x14 body s

/-! ### Meanings -/

/-- `START` (42_scheduler.md R165). -/
def execStart (s : State) : Host.Outcome State Fault Refusal := command startOp s

/-- `STOP` (42_scheduler.md R166). -/
def execStop (s : State) : Host.Outcome State Fault Refusal := command stopOp s

/-- `SETFPS n` (42_scheduler.md R177). -/
def execSetfps (fps : Word) (s : State) : Host.Outcome State Fault Refusal := command (setfpsOp fps) s

end Sys2Proof.Machine
end

