-- ==== Sys2Proof/Machine/Nested.lean ====
section
/-! DEFINITION. Commands the collaborators issue while the block is inside an operation (42_scheduler.md R182;
20_memory.md R63). Each runs at once, to completion. -/

namespace Sys2Proof.Machine

/-- A command issued inside an operation, `S.busy` being true: the same operations as the command itself, but for `SRESET`,
`FIRE` and `DSTEP`, which can only end in their checks there (42_scheduler.md R182; that it is the command itself is
Obligations.NestedCommandIsTheCommandWhileBusy). -/
def nestedOp (i : Instr) (s : State) : State :=
  match i with
  | .treset => tresetOp s
  | .tstep cycles => tstepOp cycles s
  | .twctl idx byte => twctlOp idx byte s
  | .twrld idx half => twrldOp idx half s
  | .busr addr => busrOp addr s
  | .busw data addr => buswOp data addr s
  | .sreset => unlessBusy 0x10 id s
  | .start => startOp s
  | .stop => stopOp s
  | .fire => fireGate id s
  | .dstep => dstepGate id s
  | .setfps fps => setfpsOp fps s
  | .busrTm0cnt => busrOp 0x04000100 s
  | .buswTm0cnt data => buswOp data 0x04000100 s
  | .busrTm1cnt => busrOp 0x04000104 s
  | .buswTm1cnt data => buswOp data 0x04000104 s
  | .busrTm2cnt => busrOp 0x04000108 s
  | .buswTm2cnt data => buswOp data 0x04000108 s
  | .busrTm3cnt => busrOp 0x0400010C s
  | .buswTm3cnt data => buswOp data 0x0400010C s
  | .busrTm0ctl => busrOp 0x04000102 s
  | .buswTm0ctl data => buswOp data 0x04000102 s
  | .busrTm1ctl => busrOp 0x04000106 s
  | .buswTm1ctl data => buswOp data 0x04000106 s
  | .busrTm2ctl => busrOp 0x0400010A s
  | .buswTm2ctl data => buswOp data 0x0400010A s
  | .busrTm3ctl => busrOp 0x0400010E s
  | .buswTm3ctl data => buswOp data 0x0400010E s
  | .busrIf => busrOp 0x04000202 s
  | .buswIf data => buswOp data 0x04000202 s

/-- A command word issued inside an operation; one that does not decode raises `IllegalCommand` (30_encoding.md R74;
log 14). -/
def nestedWord (w : Cmd) (s : State) : State :=
  match decode w with
  | .ok i => nestedOp i s
  | .error _ => s.raise (.illegalCommand w)

/-- The commands a collaborator issues during one call, in order; a fault among them stops the outermost operation
(60_exceptions.md R201, item 2). -/
def nestedAll (ws : List Cmd) (s : State) : State := ws.foldl (fun s1 w => s1.andThen (nestedWord w)) s

end Sys2Proof.Machine
end

