-- ==== Sys2Proof/Machine/Collab.lean ====
section
/-! DEFINITION. Calls to the CPU, the PPU, Presentation and Input (42_scheduler.md R160 to R163, R174): the call is made,
the commands the collaborator issues run inside it (R182), then it ends as its answer says (R170, R179). -/

namespace Sys2Proof.Machine

/-- A call whose answer is a `CallAnswer`: a reset or `render`. -/
def collabCall (c : Call) (o : Output) (s : State) : State :=
  (nestedAll (s.log o).takeCall.1.nested (s.log o).takeCall.2).andThen fun s1 =>
    s1.onReply c (s.log o).takeCall.1.reply

/-- `PPU.getFramebuffer()` (42_scheduler.md R161): its answer and the state after the commands the PPU issued. -/
def getFramebuffer (s : State) : FbResult × State :=
  ((s.log .getFramebuffer).takeFb.1.result,
    nestedAll (s.log .getFramebuffer).takeFb.1.nested (s.log .getFramebuffer).takeFb.2)

/-- `Presentation.render(fb)` (42_scheduler.md R162). -/
def render (fb : Framebuffer) (s : State) : State := collabCall .render (.render fb) s

/-- After `PPU.getFramebuffer()`: the buffer it returned is rendered (42_scheduler.md R173); a failure is the fault
`CollaboratorFailure` (R179); nothing more if a nested command has raised a fault. -/
def afterFramebuffer (res : FbResult × State) : State :=
  res.2.andThen fun s =>
    match res.1 with
    | .buffer fb => render fb s
    | .fail => s.raise (.collaboratorFailure .getFramebuffer)
    | .never => s.hang .getFramebuffer

/-- `FrameComplete() = Presentation.render(PPU.getFramebuffer())` (42_scheduler.md R173). -/
def frameComplete (s : State) : State := afterFramebuffer (getFramebuffer s)

/-- One thing the PPU does during `PPU.step` (42_scheduler.md R174, R182). -/
def ppuAct (a : PpuAct) (s : State) : State :=
  match a with
  | .command w => nestedWord w s
  | .endOfFrame => frameComplete s

/-- The things the PPU does during one `PPU.step`, in order. -/
def ppuActs (acts : List PpuAct) (s : State) : State := acts.foldl (fun s1 a => s1.andThen (ppuAct a)) s

/-- `PPU.step(r)` (42_scheduler.md R161). -/
def ppuStep (r : Nat) (s : State) : State :=
  (ppuActs (s.log (.ppuStep r)).takePpu.1.acts (s.log (.ppuStep r)).takePpu.2).andThen fun s1 =>
    s1.onReply .ppuStep (s.log (.ppuStep r)).takePpu.1.reply

/-- `CPU.step()` (42_scheduler.md R160): its answer and the state after the commands it issued. -/
def cpuStep (s : State) : CpuResult × State :=
  ((s.log .cpuStep).takeCpu.1.result, nestedAll (s.log .cpuStep).takeCpu.1.nested (s.log .cpuStep).takeCpu.2)

/-- After `CPU.step()`: `onFail` for `FAIL` or 0, `onCycles r` for a count `r` (42_scheduler.md R169, R170, R176); nothing
more if the call hangs or a nested command has raised a fault. -/
def afterCpu (res : CpuResult × State) (onFail : State → State) (onCycles : Nat → State → State) : State :=
  res.2.andThen fun s =>
    match res.1 with
    | .never => s.hang .cpuStep
    | .fail => onFail s
    | .cycles 0 => onFail s
    | .cycles (r + 1) => onCycles (r + 1) s

end Sys2Proof.Machine
end

