-- ==== Sys2Proof/Machine/Frame.lean ====
section
/-! DEFINITION. RunFrame and FIRE (42_scheduler.md R167 to R175), the debug step (R176) and subsystem reset (R178). -/

namespace Sys2Proof.Machine

/-- `FRAME_BUDGET` (00_scope.md R7). -/
def frameBudget : Nat := 280896

/-- `Abandon` (42_scheduler.md R175). -/
def abandon (s : State) : State := s.setBusy false

/-- `AbortFrame()` (42_scheduler.md R170): what a `CpuStepFailure` does to the block, in a frame and in a debug step
(60_exceptions.md R202; log 19). -/
def abortFrame (s : State) : State :=
  (s.setState .stopped).cancelPending.andThen fun s1 => (s1.setBusy false).log .cpuStepFailure

/-- `S.frameCount <- S.frameCount + 1` (42_scheduler.md R171). -/
def State.countFrame (s : State) : State :=
  { s with sched := { s.sched with frameCount := s.sched.frameCount + 1 } }

/-- The sample of the frame rate when the clock reads `t1` (42_scheduler.md R171). -/
def Scheduler.sample (c : Scheduler) (t1 : Ms) : Scheduler :=
  if 1000 ≤ t1 - c.lastSampleTime then
    { c with measuredFps := c.frameCount, frameCount := 0, lastSampleTime := t1 }
  else c

/-- The statistics registers take the reading `t1`. -/
def State.setSample (s : State) (t1 : Ms) : State := { s with sched := s.sched.sample t1 }

/-- Step 3, the statistics: the frame is counted before the clock is read (42_scheduler.md R171). -/
def statistics (s : State) : State :=
  s.countFrame.hostNow.2.andThen fun s1 => s1.setSample s.countFrame.hostNow.1

/-- The pacing delay when the clock reads `t2` (42_scheduler.md R172). -/
def Scheduler.delay (c : Scheduler) (t2 : Ms) : Ms := max 0 (c.interval - (t2 - c.frameStart))

/-- Step 4's guard (42_scheduler.md R172). -/
def Scheduler.maySchedule (c : Scheduler) : Bool := decide (c.state = .running) && c.pending.isNone

/-- Step 4, pacing (42_scheduler.md R172). -/
def pacing (s : State) : State :=
  s.hostNow.2.andThen fun s1 =>
    if s1.sched.maySchedule then s1.schedule (s1.sched.delay s.hostNow.1) else s1

/-- Step 5, the frame-complete notification, and the end of the frame (42_scheduler.md R173). -/
def notify (s : State) : State := (frameComplete s).andThen fun s1 => s1.setBusy false

/-- After the cycle loop: a stop abandons the frame (42_scheduler.md R175), else steps 3, 4 and 5. -/
def frameTail (s : State) : State :=
  match s.sched.state with
  | .stopped => abandon s
  | .running => ((statistics s).andThen pacing).andThen notify

/-- The timers' part and the accumulator's part of one iteration (42_scheduler.md R169). -/
def countCycles (r : Nat) (s : State) : State :=
  (timerStep r s).setAcc (s.sched.acc + r)

/-- One iteration after `CPU.step()` returned `r`: PPU, timers, accumulator (42_scheduler.md R169); then `k`. -/
def iteration (r : Nat) (k : State → State) (s : State) : State :=
  (ppuStep r s).andThen fun s1 => k (countCycles r s1)

/-- Step 2, the cycle loop (42_scheduler.md R169). `n` bounds the iterations still possible: each raises `S.acc` by at
least 1, so `FRAME_BUDGET` of them reach the budget (70_reset_and_hazards.md R243) and the bound never cuts a frame
short. -/
def frameLoop : Nat → State → State
  | 0, s => frameTail s
  | n + 1, s =>
    if s.sched.acc < frameBudget then
      match s.sched.state with
      | .stopped => abandon s
      | .running => afterCpu (cpuStep s) abortFrame fun r s1 => iteration r (fun s2 => frameLoop n s2) s1
    else frameTail s

/-- Entry and step 1 (42_scheduler.md R168), then the loop. -/
def runFrame (s : State) : State :=
  match s.sched.state with
  | .stopped => s
  | .running =>
    (s.setBusy true).hostNow.2.andThen fun s1 =>
      frameLoop frameBudget ((s1.setFrameStart (s.setBusy true).hostNow.1).setAcc 0)

/-- `FIRE`'s body: the handle is consumed, its time has come (log 12), and the frame runs (42_scheduler.md R167). -/
def fireBody (s : State) : State :=
  match s.sched.pending with
  | none => s
  | some h => runFrame ((s.setPending none).clockTo h.due)

/-- `DSTEP`'s body (42_scheduler.md R176). After a failing CPU step the block is `Stopped` with nothing pending
(60_exceptions.md R202, 92_eei_decisions.md D16), also where the CPU issued a START in that step (log 19). -/
def dstepBody (s : State) : State :=
  afterCpu (cpuStep (s.setBusy true)) abortFrame fun r s1 =>
    (ppuStep r s1).andThen fun s2 => (timerStep r s2).setBusy false

/-- `SRESET`'s body (42_scheduler.md R178). -/
def sresetBody (s : State) : State :=
  ((((collabCall .cpuReset .cpuReset (s.setBusy true)).andThen
    (collabCall .ppuReset .ppuReset)).andThen
    timerReset).andThen
    (collabCall .inputReset .inputReset)).andThen fun s1 => s1.setBusy false

/-! ### Meanings -/

/-- `FIRE` (42_scheduler.md R167). -/
def execFire (s : State) : Host.Outcome State Fault Refusal := command (fireGate fireBody) s

/-- `DSTEP` (42_scheduler.md R176). -/
def execDstep (s : State) : Host.Outcome State Fault Refusal := command (dstepGate dstepBody) s

/-- `SRESET` (42_scheduler.md R178). -/
def execSreset (s : State) : Host.Outcome State Fault Refusal := command (unlessBusy 0x10 sresetBody) s

end Sys2Proof.Machine
end

