-- ==== Sys2Proof/Machine/Dispatch.lean ====
section
/-! DEFINITION. The dispatch: one arm per constructor of `Instr`. -/

namespace Sys2Proof.Machine

def exec (i : Instr) (s : State) : Host.Outcome State Fault Refusal :=
  match i with
  | .treset => Sys2Proof.Machine.execTreset s
  | .tstep cycles => Sys2Proof.Machine.execTstep cycles s
  | .twctl idx byte => Sys2Proof.Machine.execTwctl idx byte s
  | .twrld idx half => Sys2Proof.Machine.execTwrld idx half s
  | .busr addr => Sys2Proof.Machine.execBusr addr s
  | .busw data addr => Sys2Proof.Machine.execBusw data addr s
  | .sreset => Sys2Proof.Machine.execSreset s
  | .start => Sys2Proof.Machine.execStart s
  | .stop => Sys2Proof.Machine.execStop s
  | .fire => Sys2Proof.Machine.execFire s
  | .dstep => Sys2Proof.Machine.execDstep s
  | .setfps fps => Sys2Proof.Machine.execSetfps fps s
  | .busrTm0cnt => Sys2Proof.Machine.execBusrTm0cnt s
  | .buswTm0cnt data => Sys2Proof.Machine.execBuswTm0cnt data s
  | .busrTm1cnt => Sys2Proof.Machine.execBusrTm1cnt s
  | .buswTm1cnt data => Sys2Proof.Machine.execBuswTm1cnt data s
  | .busrTm2cnt => Sys2Proof.Machine.execBusrTm2cnt s
  | .buswTm2cnt data => Sys2Proof.Machine.execBuswTm2cnt data s
  | .busrTm3cnt => Sys2Proof.Machine.execBusrTm3cnt s
  | .buswTm3cnt data => Sys2Proof.Machine.execBuswTm3cnt data s
  | .busrTm0ctl => Sys2Proof.Machine.execBusrTm0ctl s
  | .buswTm0ctl data => Sys2Proof.Machine.execBuswTm0ctl data s
  | .busrTm1ctl => Sys2Proof.Machine.execBusrTm1ctl s
  | .buswTm1ctl data => Sys2Proof.Machine.execBuswTm1ctl data s
  | .busrTm2ctl => Sys2Proof.Machine.execBusrTm2ctl s
  | .buswTm2ctl data => Sys2Proof.Machine.execBuswTm2ctl data s
  | .busrTm3ctl => Sys2Proof.Machine.execBusrTm3ctl s
  | .buswTm3ctl data => Sys2Proof.Machine.execBuswTm3ctl data s
  | .busrIf => Sys2Proof.Machine.execBusrIf s
  | .buswIf data => Sys2Proof.Machine.execBuswIf data s

end Sys2Proof.Machine
end

