-- ==== Sys2Proof/Machine/Step.lean ====
section
/-! DEFINITION. One step of the machine: take the next command issued and run it (00_scope.md R3). -/

namespace Sys2Proof.Machine

/-- The commands issued and not yet taken are `ws`. -/
def State.withCmds (s : State) (ws : List Cmd) : State := { s with env := { s.env with cmds := ws } }

/-- No command has arrived: the block is idle and its state survives the wait (60_exceptions.md R216). -/
def idle (s : State) : Host.Outcome State Fault Refusal := command id s

/-- A word that does not decode: the fault `IllegalCommand` (30_encoding.md R74). -/
def illegal (w : Cmd) (s : State) : Host.Outcome State Fault Refusal := command (fun s1 => s1.raise (.illegalCommand w)) s

/-- Take the next command and run it, or idle. -/
def serve (s : State) : Host.Outcome State Fault Refusal :=
  match s.env.cmds with
  | [] => idle s
  | w :: rest =>
    match decode w with
    | .ok i => exec i (s.withCmds rest)
    | .error _ => illegal w (s.withCmds rest)

/-- One step. A machine on another `IF` bus (20_memory.md R57) or with an illegal choice of parameters (R51) is refused
(log 21). -/
def step (s : State) : Host.Outcome State Fault Refusal :=
  if s.params.ifWrite ≠ .plainStore then .refused .ifBusNotPlainStore
  else if !paramsWf s.params then .refused .illFormedParameters
  else serve s

/-- `s` with the command `w`, of `nbits` bits, issued before all others: the very next step takes and runs it (log 2). -/
def State.withFetchWord (s : State) (nbits w : Nat) : State :=
  s.withCmds (BitVec.ofNat 64 (w % 2 ^ nbits) :: s.env.cmds)

end Sys2Proof.Machine
end

