-- ==== Sys2Proof/Safety.lean ====
section
/-! DEFINITION. What counts as a safe state and a safe step, in the terms the statements use. -/

namespace Sys2Proof.Machine

/-- A state a run may end in successfully: no fault is recorded ("A faulted state is never a successful end of a run",
60_exceptions.md R201) and no collaborator call hangs. -/
def Succeeded (s : State) : Prop := s.sched.fault = none ∧ s.stuck = none

/-- The registers that one operation may leave in any order, and that hold also inside an operation and after a fault:
the rate and its interval agree (10_state.md R38), no recorded time is later than the host's clock (42_scheduler.md R164),
and a pending handle has been issued (log 13). -/
structure Registers (s : State) : Prop where
  rate_pos : 0 < s.sched.targetFps
  interval_eq : s.sched.interval = 1000 / (s.sched.targetFps : Ms)
  sample_le : s.sched.lastSampleTime ≤ s.env.clock
  start_le : s.sched.frameStart ≤ s.env.clock
  issued : ∀ h, s.sched.pending = some h → h.num < s.env.nextHandle

/-- The invariant inside an operation: while nothing has stopped the block, `Stopped` means that nothing is pending
(10_state.md R47; log 17 says why a stopped block is left out). -/
structure Inside (s : State) : Prop where
  registers : Registers s
  stopped_idle : s.live = true → s.sched.state = .stopped → s.sched.pending = none

/-- The invariant between commands: as inside an operation, and no operation is in progress (10_state.md R41). -/
structure Invariant (s : State) : Prop where
  inside : Inside s
  not_busy : s.live = true → s.sched.busy = false

/-- What no operation takes back: the parameters stay, the commands not yet taken stay, outputs are only added, the host's
clock and the handle names only go up, a recorded fault stays recorded (10_state.md R41), a hang stays. -/
structure Extends (s t : State) : Prop where
  params : t.params = s.params
  cmds : t.env.cmds = s.env.cmds
  trace : s.trace <:+ t.trace
  clock : s.env.clock ≤ t.env.clock
  nextHandle : s.env.nextHandle ≤ t.env.nextHandle
  fault : ∀ f, s.sched.fault = some f → t.sched.fault = some f
  stuck : ∀ c, s.stuck = some c → t.stuck = some c

end Sys2Proof.Machine
end

