-- ==== Sys2Proof/Certificates/Slice0/Obligations.lean ====
section
/-! DEFINITION. The statements for the provers. They are about the machine of Sys2Proof/Machine; the definitions under
Sys2Proof.Reference are transcriptions of the spec that the statements compare it with. -/

namespace Sys2Proof.Reference

open Sys2Proof.Machine

/-! ### The opcode table (30_encoding.md R73): the bits that must be zero, per operation code -/

/-- The bits of a word below its `op` field that must be zero, read from the masks of spec/opcode_table.json; none for an
operation code that is not in the table. -/
def reservedBits (op : Byte) : Option Cmd :=
  match op.toNat with
  | 0x01 => some 0x00FFFFFFFFFFFFFF
  | 0x02 => some 0x00FFFFFF00000000
  | 0x03 => some 0x0000FFFFFFFFFF00
  | 0x04 => some 0x0000FFFFFFFF0000
  | 0x05 => some 0x00FFFFFF00000000
  | 0x06 => some 0x00FF000000000000
  | 0x10 => some 0x00FFFFFFFFFFFFFF
  | 0x11 => some 0x00FFFFFFFFFFFFFF
  | 0x12 => some 0x00FFFFFFFFFFFFFF
  | 0x13 => some 0x00FFFFFFFFFFFFFF
  | 0x14 => some 0x00FFFFFFFFFFFFFF
  | 0x15 => some 0x00FFFFFF00000000
  | _ => none

/-- The word is illegal by 30_encoding.md R74. -/
def Illegal (w : Cmd) : Prop := ∀ m, reservedBits (opField w) = some m → w &&& m ≠ 0

/-! ### The timer pseudocode (40_timer.md R101, R104) over plain naturals -/

/-- The state the pseudocode works on: `T[i]`'s fields, `IF`, and the values written to `IF`, oldest first. -/
structure Timers where
  counter : Nat → Nat
  reload : Nat → Nat
  control : Nat → Nat
  flags : Nat
  writes : List Nat

/-- Bit `k` of `v`. -/
def bit (v k : Nat) : Nat := v / 2 ^ k % 2

/-- `DIV` (10_state.md R29). -/
def div (sel : Nat) : Nat := if sel = 0 then 1 else if sel = 1 then 64 else if sel = 2 then 256 else 1024

/-- `T[i].counter <- v`. -/
def Timers.setCounter (t : Timers) (i v : Nat) : Timers :=
  { t with counter := fun j => if j = i then v else t.counter j }

/-- `IFSet(k)` (20_memory.md R56). -/
def Timers.ifSet (t : Timers) (k : Nat) : Timers :=
  { t with flags := t.flags ||| (1 <<< k), writes := t.writes ++ [t.flags ||| (1 <<< k)] }

/-- `INC(i, n)` (40_timer.md R104) with the IRQ field at bit `irq`; the depth of its recursion is at most 3 (R107). -/
def inc (irq : Nat) : (depth i n : Nat) → Timers → Timers
  | 0, _, _, t => t
  | depth + 1, i, n, t =>
    if t.counter i + n ≤ 0xFFFF then t.setCounter i (t.counter i + n)
    else
      let t1 := t.setCounter i (t.reload i)
      let t2 := if bit (t1.control i) irq = 1 then t1.ifSet (3 + i) else t1
      if i < 3 ∧ bit (t2.control (i + 1)) 7 = 1 ∧ bit (t2.control (i + 1)) 2 = 1 then inc irq depth (i + 1) 1 t2
      else t2

/-- One turn of `TSTEP`'s loop (40_timer.md R101) with the SEL field at the bits `sel + 1` and `sel`. -/
def visit (irq sel e : Nat) (t : Timers) (i : Nat) : Timers :=
  if bit (t.control i) 7 = 0 then t
  else if 0 < i ∧ bit (t.control i) 2 = 1 then t
  else inc irq 4 i (e / div (t.control i / 2 ^ sel % 4)) t

/-- `TSTEP(e)` (40_timer.md R101). -/
def tstep (irq sel e : Nat) (t : Timers) : Timers :=
  visit irq sel e (visit irq sel e (visit irq sel e (visit irq sel e t 0) 1) 2) 3

/-- A unit's field as a natural number, 0 for a unit that does not exist. -/
def field (s : State) (f : TimerUnit → Nat) (i : Nat) : Nat := if h : i < 4 then f (s.unit ⟨i, h⟩) else 0

/-- The values written to `IF` among the outputs, in the order given. -/
def ifWrites : List Output → List Nat
  | [] => []
  | .ifWrite v :: os => v.toNat :: ifWrites os
  | _ :: os => ifWrites os

/-- The machine's state as the pseudocode sees it. -/
def timersOf (s : State) : Timers where
  counter := field s fun u => u.counter.toNat
  reload := field s fun u => u.reload.toNat
  control := field s fun u => u.control.toNat
  flags := s.ifr.toNat
  writes := ifWrites s.trace.reverse

/-! ### Frames (42_scheduler.md R169) -/

/-- The timers, the flags and the outputs after iterations of the cycle loop in which `CPU.step()` reports the counts `rs`
and no collaborator issues a command. -/
def iterations (rs : List Nat) (s : State) : State :=
  rs.foldl (fun s1 r => timerStep r ((s1.log .cpuStep).log (.ppuStep r))) s

/-- Unit `i` counts cycles directly: enabled, and not in cascade mode or without a predecessor (40_timer.md R101, R103). -/
def Direct (s : State) (i : Unit4) : Prop :=
  ctlEnabled (s.unit i).control = true ∧ (i = 0 ∨ ctlCascade (s.unit i).control = false)

/-- The registers keep the default positions of IRQ and SEL (10_state.md R23). -/
def DefaultFields (s : State) : Prop := s.params.irqBit = 6 ∧ s.params.selLow = 0

/-- The registers stand at the default addresses (00_scope.md R8). -/
def DefaultAddresses (s : State) : Prop :=
  s.params.tmrBase = 0x04000100 ∧ s.params.tmrCtlOffset = 2 ∧ s.params.ifAddr = 0x04000202

/-- No command is in progress and nothing has stopped the block. -/
def Ready (s : State) : Prop := s.live = true ∧ s.sched.busy = false

/-- A FIRE begins a frame at the reading `t0`: the scheduler runs, `h` is pending and its time has come (42_scheduler.md
R164, R167, R168; the readings and the handle's time are the model's, log 9, log 12). -/
structure FrameBegins (s : State) (h : Handle) (t0 : Ms) (now : List NowAnswer) : Prop where
  ready : Ready s
  running : s.sched.state = .running
  pending : s.sched.pending = some h
  reading : s.env.now = .reads t0 :: now
  clock : s.env.clock ≤ t0
  due : h.due ≤ t0

/-- Inside the frame that a FIRE of `s` begins at the reading `t0`, after iterations with the counts `rs`; the answers not
yet taken are `cpu`, `ppu` and `now`. -/
def inFrame (s : State) (t0 : Ms) (rs : List Nat) (cpu : List CpuAnswer) (ppu : List PpuAnswer)
    (now : List NowAnswer) : State where
  params := s.params
  timers := (iterations rs (s.log (.hostNow t0))).timers
  ifr := (iterations rs (s.log (.hostNow t0))).ifr
  sched := { s.sched with pending := none, acc := rs.sum, frameStart := t0, busy := true }
  env := { s.env with cpu := cpu, ppu := ppu, now := now, clock := t0 }
  trace := (iterations rs (s.log (.hostNow t0))).trace
  stuck := none

/-- The scheduler after step 3 of a frame at the reading `t1` (42_scheduler.md R171). -/
def sampled (c : Scheduler) (t1 : Ms) : Scheduler :=
  { c with
    frameCount := if 1000 ≤ t1 - c.lastSampleTime then 0 else c.frameCount + 1
    measuredFps := if 1000 ≤ t1 - c.lastSampleTime then c.frameCount + 1 else c.measuredFps
    lastSampleTime := if 1000 ≤ t1 - c.lastSampleTime then t1 else c.lastSampleTime }

/-- The delay of step 4 at the reading `t2` (42_scheduler.md R172). -/
def delay (c : Scheduler) (t0 t2 : Ms) : Ms := max 0 (c.interval - (t2 - t0))

/-- After step 3 at the reading `t1` and step 4's reading `t2`, from the end of the cycle loop `u`; the readings not yet
taken are `now`. -/
def timed (u : State) (t1 t2 : Ms) (now : List NowAnswer) : State :=
  { u with
    sched := sampled u.sched t1
    env := { u.env with now := now, clock := t2 }
    trace := .hostNow t2 :: .hostNow t1 :: u.trace }

/-- After step 4 has scheduled the next frame, with the host's answers not yet taken `host`; the handle's name and time are
the model's (log 12, log 13). -/
def paced (u : State) (t0 t2 : Ms) (host : List Reply) : State :=
  { u with
    sched := { u.sched with pending := some ⟨u.env.nextHandle, t2 + delay u.sched t0 t2⟩ }
    env := { u.env with host := host, nextHandle := u.env.nextHandle + 1 }
    trace := .hostSchedule u.env.nextHandle (delay u.sched t0 t2) :: u.trace }

/-- The call `c`, put out as `o`, has failed in `u`: the fault is recorded and all else is as reached (42_scheduler.md R179,
60_exceptions.md R201). -/
def failed (c : Call) (o : Output) (u : State) : State :=
  { u with sched := { u.sched with fault := some (.collaboratorFailure c) }, trace := o :: u.trace }

/-- `f` is the fault that the checks of the command word `w` raise when a collaborator issues it during a call, the block
being in the state `u` with `S.busy` true (42_scheduler.md R182; 60_exceptions.md R203). -/
inductive Raises (u : State) : Cmd → BlockFault → Prop where
  /-- 30_encoding.md R74. -/
  | illegal (w : Cmd) : Illegal w → Raises u w (.illegalCommand w)
  | treset : Raises u (encode .treset) (.reentrantCommand 0x01)
  | tstep (cycles : Word) : Raises u (encode (.tstep cycles)) (.reentrantCommand 0x02)
  | sreset : Raises u (encode .sreset) (.reentrantCommand 0x10)
  | fire : u.sched.pending ≠ none → Raises u (encode .fire) (.reentrantCommand 0x13)
  /-- 42_scheduler.md R176: `Running` is checked first. -/
  | dstepRunning : u.sched.state = .running → Raises u (encode .dstep) .debugStepWhileRunning
  | dstepBusy : u.sched.state = .stopped → Raises u (encode .dstep) (.reentrantCommand 0x14)
  /-- 40_timer.md R112. -/
  | twctl (idx byte : Byte) : 4 ≤ idx.toNat → Raises u (encode (.twctl idx byte)) (.configurationError idx)
  | twrld (idx : Byte) (half : Half) : 4 ≤ idx.toNat → Raises u (encode (.twrld idx half)) (.configurationError idx)
  /-- 41_bus_registers.md R146. -/
  | busr (a : Word) : (∀ e ∈ busMap u.params, a ≠ e.1) → Raises u (encode (.busr a)) (.unmodelledAccess a)
  | busw (v : Half) (a : Word) : (∀ e ∈ busMap u.params, a ≠ e.1) → Raises u (encode (.busw v a)) (.unmodelledAccess a)
  /-- 42_scheduler.md R177. -/
  | setfps : Raises u (encode (.setfps 0)) (.invalidFrameRate 0)

/-- The command word `w`, issued during a call while the block is in the state `u`, stops the operation there, and the
block is left in the state `t`: its checks raise a fault, or it is a START or a STOP whose call of the host fails
(42_scheduler.md R179; that a failed cancel leaves the handle is log 17). -/
inductive Stops (u : State) : Cmd → State → Prop where
  | checks {w : Cmd} {f : BlockFault} : Raises u w f →
      Stops u w { u with sched := { u.sched with fault := some f } }
  | start {host : List Reply} : u.sched.state = .stopped → u.env.host = .fail :: host →
      Stops u (encode .start) (failed .hostSchedule (.hostSchedule u.env.nextHandle 0)
        { u with sched := { u.sched with state := .running }, env := { u.env with host := host } })
  | stop {h : Handle} {host : List Reply} : u.sched.state = .running → u.sched.pending = some h →
      u.env.host = .fail :: host →
      Stops u (encode .stop) (failed .hostCancel (.hostCancel h.num)
        { u with sched := { u.sched with state := .stopped }, env := { u.env with host := host } })

/-- Of the commands `ws` that a collaborator issues during a call, begun in the state `v`, those before one run, that one
stops the operation in the state `t`, and the ones after it are not run (log 10). -/
def NestedStops (ws : List Cmd) (v t : State) : Prop :=
  ∃ before w after, ws = before ++ w :: after ∧ (nestedAll before v).live = true ∧ Stops (nestedAll before v) w t

/-- A FrameComplete begun in the state `v` is stopped in the state `t` by a command that the PPU issues during
`getFramebuffer`, or Presentation during `render` (42_scheduler.md R173, R182). -/
def FrameCompleteStops (v t : State) : Prop :=
  (∃ ws res fbs, v.env.fbs = ⟨ws, res⟩ :: fbs ∧
    NestedStops ws { v with env := { v.env with fbs := fbs }, trace := .getFramebuffer :: v.trace } t) ∨
  ∃ fb fbs ws reply calls, v.env.fbs = ⟨[], .buffer fb⟩ :: fbs ∧ v.env.calls = ⟨ws, reply⟩ :: calls ∧
    NestedStops ws
      { v with env := { v.env with fbs := fbs, calls := calls }, trace := .render fb :: .getFramebuffer :: v.trace } t

/-- Of the things `acts` that the PPU does during its step, begun in the state `v`, those before one run, and that one, a
command or an observer call (42_scheduler.md R174), stops the operation in the state `t`. -/
def PpuActsStop (acts : List PpuAct) (v t : State) : Prop :=
  ∃ before act after, acts = before ++ act :: after ∧ (ppuActs before v).live = true ∧
    ((∃ w, act = .command w ∧ Stops (ppuActs before v) w t) ∨
      (act = .endOfFrame ∧ FrameCompleteStops (ppuActs before v) t))

/-- `w` is the word of a control or a reload write, as a timer command or through the bus, and `f` is what it does
(20_memory.md R63; 40_timer.md R109, R111; 41_bus_registers.md R143, R144). -/
def TimerWrite (p : Params) (w : Cmd) (f : State → State) : Prop :=
  ∃ i : Unit4,
    (∃ idx byte : Byte, idx.toNat = i.val ∧ w = encode (.twctl idx byte) ∧ f = writeControl i byte) ∨
    (∃ (idx : Byte) (half : Half), idx.toNat = i.val ∧ w = encode (.twrld idx half) ∧ f = writeReload i half) ∨
    (∃ v : Half, w = encode (.busw v (ctlAddr p i)) ∧ f = writeControl i (v.truncate 8)) ∨
    ∃ v : Half, w = encode (.busw v (cntAddr p i)) ∧ f = writeReload i v

end Sys2Proof.Reference

open Sys2Proof Sys2Proof.Machine

/-! ## Encoding -/

/-- For every well-formed instruction, with every operand at every value the encoding admits, decoding its word gives the
instruction back (30_encoding.md R72, R73, R75). -/
def Obligations.DecodeOfEncodeIsTheInstruction : Prop :=
  ∀ i : Instr, i.WellFormed → decode (encode i) = .ok i

/-- Every word that decodes is the word of a well-formed instruction: one word for each meaning. -/
def Obligations.EncodeOfDecodeIsTheWord : Prop :=
  ∀ (w : Cmd) (i : Instr), decode w = .ok i → i.WellFormed ∧ encode i = w

/-- 30_encoding.md R74: a word is rejected exactly when its `op` is not in the table or a must-be-zero bit is set, and such
a word, taken as a command, changes nothing but `S.fault`. -/
def Obligations.WordsOutsideTheTableAreIllegalCommands : Prop :=
  ∀ w : Cmd, ((∃ r, decode w = .error r) ↔ Reference.Illegal w) ∧
    ∀ (s : State) (rest : List Cmd), s.params.ifWrite = .plainStore → paramsWf s.params = true → s.live = true →
      s.env.cmds = w :: rest → Reference.Illegal w →
      step s = .next { s with
        env := { s.env with cmds := rest }
        sched := { s.sched with fault := some (.illegalCommand w) } }

/-- 30_encoding.md R77: the example words, the two illegal ones among them. -/
def Obligations.ExampleWordsDecode : Prop :=
  decode 0x0100000000000000 = .ok .treset ∧ decode 0x0200000000000005 = .ok (.tstep 5) ∧
  decode 0x0200000000010000 = .ok (.tstep 0x10000) ∧ decode 0x0300000000000080 = .ok (.twctl 0 0x80) ∧
  decode 0x0301000000000084 = .ok (.twctl 1 0x84) ∧ decode 0x0304000000000080 = .ok (.twctl 4 0x80) ∧
  decode 0x040000000000FFF0 = .ok (.twrld 0 0xFFF0) ∧ decode 0x0500000004000104 = .ok .busrTm1cnt ∧
  decode 0x0600FFFF04000100 = .ok (.buswTm0cnt 0xFFFF) ∧ decode 0x1000000000000000 = .ok .sreset ∧
  decode 0x1100000000000000 = .ok .start ∧ decode 0x1200000000000000 = .ok .stop ∧
  decode 0x1300000000000000 = .ok .fire ∧ decode 0x1400000000000000 = .ok .dstep ∧
  decode 0x150000000000001E = .ok (.setfps 30) ∧ decode 0x0300000000000180 = .error .nonzeroField ∧
  decode 0x0700000000000000 = .error .undefinedOp

/-! ## Steps, faults, power-on -/

/-- A step takes the next command and runs what it decodes to; and a command put first is the one that runs (00_scope.md
R3; the queue is the model's own, log 2). -/
def Obligations.StepRunsTheDecodedCommand : Prop :=
  ∀ (s : State) (w : Cmd) (i : Instr), s.params.ifWrite = .plainStore → paramsWf s.params = true → decode w = .ok i →
    (∀ rest, s.env.cmds = w :: rest → step s = exec i { s with env := { s.env with cmds := rest } }) ∧
    step (s.withFetchWord 64 w.toNat) = exec i s

/-- With no command the block is idle and all its state survives the wait (60_exceptions.md R216). -/
def Obligations.IdleBlockKeepsItsState : Prop :=
  ∀ s : State, s.params.ifWrite = .plainStore → paramsWf s.params = true → s.stuck = none → s.env.cmds = [] →
    step s = .next s

/-- A bus whose `IF` write is no plain store, and nine addresses that are not distinct and even, are refused
(20_memory.md R51, R57). -/
def Obligations.IllegalParametersAreRefused : Prop :=
  ∀ s : State,
    (s.params.ifWrite ≠ .plainStore → step s = .refused .ifBusNotPlainStore) ∧
    (s.params.ifWrite = .plainStore →
      ¬ ((busMap s.params).map Prod.fst).Nodup ∨ (∃ e ∈ busMap s.params, e.1.toNat % 2 = 1) →
      step s = .refused .illFormedParameters)

/-- After a fault every command has no effect (60_exceptions.md R201, item 4). -/
def Obligations.FaultedBlockIgnoresEveryCommand : Prop :=
  ∀ (i : Instr) (s : State) (f : BlockFault), s.sched.fault = some f → s.stuck = none → exec i s = .next s

/-- Every command completes, from every state in which no collaborator call hangs: a fault of the block is a next state too
(00_scope.md R3, 60_exceptions.md R201; the design is the model's, log 1). -/
def Obligations.EveryCommandAnswersANextState : Prop :=
  ∀ (i : Instr) (s : State), s.stuck = none → ∃ t, exec i s = .next t

/-- No step takes anything back. The spec's clauses: a recorded fault stays (10_state.md R41) and the host's clock does not
go back (42_scheduler.md R164). The others are the model's own: the hang stays (log 16), outputs are only added to the record
(log 20), the handle names only go up (log 13), the clock is a bound kept in State (log 11), the rest of the command queue
(log 2) and the parameters (log 4) stay. -/
def Obligations.StepTakesNothingBack : Prop :=
  ∀ s t : State, step s = .next t → Extends { s with env := { s.env with cmds := s.env.cmds.tail } } t

/-- Every step keeps the invariant: the interval is 1000 over the rate (10_state.md R38), a live stopped block has nothing
pending (R47), no operation is in progress between commands (R41), no recorded time is later than the host's clock. That a
stopped block is left out of R47 is the model's choice (log 17); the clock and the handle names are the model's (log 11,
log 13). -/
def Obligations.StepKeepsTheInvariant : Prop :=
  ∀ s t : State, Invariant s → step s = .next t → Invariant t

/-- The invariant holds at power-on, for every legal choice of the parameters, and at `State.reset`. -/
def Obligations.PowerOnMeetsTheInvariant : Prop :=
  (∀ p : Params, paramsWf p = true → Invariant (State.powerOn p)) ∧ Invariant State.reset

/-- 10_state.md R44: the scheduler's values at power-on; with them the timers' (R43) and the flags' (R45). -/
def Obligations.PowerOnValues : Prop :=
  ∀ p : Params, p.defaultFps = 60 →
    (∀ i : Unit4, (State.powerOn p).unit i = ⟨0, 0, 0⟩) ∧ (State.powerOn p).ifr = p.ifInit ∧
    (State.powerOn p).sched =
      { state := .stopped, pending := none, acc := 0, targetFps := 60, interval := 50 / 3, frameCount := 0,
        measuredFps := 0, lastSampleTime := p.tPowerOn, frameStart := p.tPowerOn, busy := false, fault := none }

/-- 60_exceptions.md R200: the codes of the seven faults and of the event. -/
def Obligations.FaultCodesAreTheTables : Prop :=
  ∀ (idx op : Byte) (w : Cmd) (a n : Word) (c : Call),
    (BlockFault.configurationError idx).code = 0x01 ∧ (BlockFault.illegalCommand w).code = 0x02 ∧
    (BlockFault.unmodelledAccess a).code = 0x03 ∧ BlockFault.debugStepWhileRunning.code = 0x04 ∧
    (BlockFault.invalidFrameRate n).code = 0x05 ∧ (BlockFault.reentrantCommand op).code = 0x06 ∧
    (BlockFault.collaboratorFailure c).code = 0x07 ∧ cpuStepFailureCode = 0x10

/-! ## Timers -/

/-- 30_encoding.md R70: the control byte's fields, at the default positions. -/
def Obligations.ControlByteFields : Prop :=
  ∀ (p : Params) (b : Byte), p.irqBit = 6 → p.selLow = 0 →
    ctlEnabled b = b.getLsbD 7 ∧ ctlIrq p b = b.getLsbD 6 ∧ ctlCascade b = b.getLsbD 2 ∧ ctlSel p b = b.toNat % 4 ∧
    divisor (ctlSel p 0x80) = 1 ∧ divisor (ctlSel p 0x81) = 64 ∧ divisor (ctlSel p 0x82) = 256 ∧
    divisor (ctlSel p 0xC3) = 1024

/-- 20_memory.md R56: IFSet reads `IF`, sets bit `k`, writes it back with nothing in between, and changes nothing else. -/
def Obligations.IfSetSetsOneBitAndKeepsTheOthers : Prop :=
  ∀ (k : Nat) (s : State), 3 ≤ k → k ≤ 6 →
    (∀ b, (ifSet k s).ifr.getLsbD b = (s.ifr.getLsbD b || decide (b = k))) ∧
    ifSet k s = { s with
      ifr := (ifSet k s).ifr
      trace := .ifWrite (ifSet k s).ifr :: .ifRead s.ifr :: s.trace }

/-- 40_timer.md R100: TRESET zeroes every unit and changes nothing else; while busy it raises ReentrantCommand; and after it
a TSTEP changes nothing. -/
def Obligations.TresetZeroesEveryUnit : Prop :=
  ∀ s : State, s.live = true →
    (s.sched.busy = false →
      exec .treset s = .next { s with timers := Vector.replicate 4 ⟨0, 0, 0⟩ } ∧
      ∀ cycles, exec (.tstep cycles) { s with timers := Vector.replicate 4 ⟨0, 0, 0⟩ } =
        .next { s with timers := Vector.replicate 4 ⟨0, 0, 0⟩ }) ∧
    (s.sched.busy = true →
      exec .treset s = .next { s with sched := { s.sched with fault := some (.reentrantCommand 0x01) } })

/-- TSTEP completes, and its frame: it writes no reload, no control, no scheduler register, no parameter; of `IF` it only
sets bits 3 to 6 (10_state.md R33, 40_timer.md R101); while busy it raises ReentrantCommand (42_scheduler.md R182). -/
def Obligations.TstepCompletesAndKeepsItsFrame : Prop :=
  ∀ (cycles : Word) (s : State), s.live = true →
    (s.sched.busy = false → ∃ t, exec (.tstep cycles) s = .next t ∧
      t.params = s.params ∧ t.sched = s.sched ∧ t.env = s.env ∧ t.stuck = s.stuck ∧ s.trace <:+ t.trace ∧
      (∀ i, (t.unit i).reload = (s.unit i).reload ∧ (t.unit i).control = (s.unit i).control) ∧
      (∀ b, s.ifr.getLsbD b = true → t.ifr.getLsbD b = true) ∧
      (∀ b, b < 3 ∨ 6 < b → t.ifr.getLsbD b = s.ifr.getLsbD b)) ∧
    (s.sched.busy = true →
      exec (.tstep cycles) s = .next { s with sched := { s.sched with fault := some (.reentrantCommand 0x02) } })

/-- TSTEP does what the pseudocode of 40_timer.md R101 and R104 says, over plain naturals: every counter, `IF`, and the
sequence of values written to `IF` (R113). It holds of the step inside a frame and a debug step for every count, which no
operand width bounds, of the command for every operand, and for every position of the IRQ and SEL fields (log 7). -/
def Obligations.TstepFollowsThePseudocode : Prop :=
  (∀ (e : Nat) (s : State),
    Reference.timersOf (timerStep e s) =
      Reference.tstep s.params.irqBit.val s.params.selLow.val e (Reference.timersOf s)) ∧
  ∀ (cycles : Word) (s : State), Reference.Ready s →
    ∃ t, exec (.tstep cycles) s = .next t ∧
      Reference.timersOf t =
        Reference.tstep s.params.irqBit.val s.params.selLow.val cycles.toNat (Reference.timersOf s)

/-- 40_timer.md R102: a unit that counts cycles directly advances by the floored quotient, where the sum fits; so with
fewer cycles than its divisor it does not change. -/
def Obligations.DirectUnitAdvancesByTheFlooredQuotient : Prop :=
  ∀ (cycles : Word) (s : State) (i : Unit4), Reference.Ready s → Reference.DefaultFields s → Reference.Direct s i →
    ∃ t, exec (.tstep cycles) s = .next t ∧
      ((s.unit i).counter.toNat + cycles.toNat / Reference.div ((s.unit i).control.toNat % 4) ≤ 0xFFFF →
        (t.unit i).counter.toNat =
          (s.unit i).counter.toNat + cycles.toNat / Reference.div ((s.unit i).control.toNat % 4)) ∧
      (cycles.toNat < Reference.div ((s.unit i).control.toNat % 4) → t.unit i = s.unit i)

/-- 40_timer.md R108, R105: where the sum exceeds 0xFFFF, however large it is, the counter is the reload value and, with
IRQ set, bit 3+i of `IF` is set. -/
def Obligations.DirectOverflowSnapsToTheReload : Prop :=
  ∀ (cycles : Word) (s : State) (i : Unit4), Reference.Ready s → Reference.DefaultFields s → Reference.Direct s i →
    0xFFFF < (s.unit i).counter.toNat + cycles.toNat / Reference.div ((s.unit i).control.toNat % 4) →
    ∃ t, exec (.tstep cycles) s = .next t ∧ t.unit i = { s.unit i with counter := (s.unit i).reload } ∧
      ((s.unit i).control.getLsbD 6 = true → t.ifr.getLsbD (3 + i.val) = true)

/-- 40_timer.md R106, R103: a unit `j` in cascade mode whose predecessor `i` counts cycles directly takes exactly one count
when `i` overflows and none otherwise; behind a disabled predecessor it takes none. -/
def Obligations.CascadeUnitTakesOneCountPerOverflow : Prop :=
  ∀ (cycles : Word) (s : State) (i j : Unit4), Reference.Ready s → Reference.DefaultFields s → j.val = i.val + 1 →
    ctlEnabled (s.unit j).control = true → ctlCascade (s.unit j).control = true →
    ∃ t, exec (.tstep cycles) s = .next t ∧
      (ctlEnabled (s.unit i).control = false → t.unit j = s.unit j) ∧
      (Reference.Direct s i →
        (s.unit i).counter.toNat + cycles.toNat / Reference.div ((s.unit i).control.toNat % 4) ≤ 0xFFFF →
        t.unit j = s.unit j) ∧
      (Reference.Direct s i →
        0xFFFF < (s.unit i).counter.toNat + cycles.toNat / Reference.div ((s.unit i).control.toNat % 4) →
        (t.unit j).counter = if (s.unit j).counter = 0xFFFF then (s.unit j).reload else (s.unit j).counter + 1)

/-- 10_state.md R24: a disabled unit holds its value through every TSTEP: it counts no cycles and takes no cascade. -/
def Obligations.DisabledUnitHoldsItsValue : Prop :=
  ∀ (cycles : Word) (s : State) (i : Unit4), Reference.Ready s → (s.unit i).control.getLsbD 7 = false →
    ∃ t, exec (.tstep cycles) s = .next t ∧ t.unit i = s.unit i

/-- 10_state.md R28: bits 5:3 of the control byte are stored and read back as written, and a TSTEP of two states that
differ in nothing else leaves the same counters, reloads and flags. -/
def Obligations.UnusedControlBitsHaveNoEffect : Prop :=
  (∀ (s : State) (i : Unit4) (b : Byte), ((writeControl i b s).unit i).control = b ∧
    busValue (writeControl i b s) (.control i) = b.zeroExtend 16) ∧
  ∀ (cycles : Word) (s s' : State), Reference.Ready s → Reference.DefaultFields s →
    s' = { s with timers := s'.timers } →
    (∀ i, (s'.unit i).counter = (s.unit i).counter ∧ (s'.unit i).reload = (s.unit i).reload ∧
      (s'.unit i).control &&& 0xC7 = (s.unit i).control &&& 0xC7) →
    ∃ t t', exec (.tstep cycles) s = .next t ∧ exec (.tstep cycles) s' = .next t' ∧ t'.ifr = t.ifr ∧
      t'.trace = t.trace ∧ ∀ i, (t'.unit i).counter = (t.unit i).counter ∧ (t'.unit i).reload = (t.unit i).reload

/-- 10_state.md R30 (70_reset_and_hazards.md R235): the prescaler keeps no remainder: any number of steps, each of fewer
cycles than the divisor, leaves a unit that counts directly as it was. -/
def Obligations.PrescalerKeepsNoRemainder : Prop :=
  ∀ (es : List Nat) (s : State) (i : Unit4), Reference.DefaultFields s → Reference.Direct s i →
    (∀ e ∈ es, e < Reference.div ((s.unit i).control.toNat % 4)) →
    (es.foldl (fun s1 e => timerStep e s1) s).unit i = s.unit i

/-- 40_timer.md R110, with the store of TWCTL's pseudocode: TWCTL stores the byte; where the unit was disabled and the byte
enables it, the counter takes the reload value at once; nothing else changes. -/
def Obligations.TwctlStoresAndReloadsOnEnable : Prop :=
  ∀ (idx byte : Byte) (i : Unit4) (s : State), s.live = true → idx.toNat = i.val →
    exec (.twctl idx byte) s = .next { s with
      timers := s.timers.set i {
        counter :=
          if (s.unit i).control.getLsbD 7 = false ∧ byte.getLsbD 7 = true then (s.unit i).reload
          else (s.unit i).counter
        reload := (s.unit i).reload
        control := byte } }

/-- 40_timer.md R111: TWRLD stores the reload value and leaves the counter, and all else, alone. -/
def Obligations.TwrldStoresTheReloadOnly : Prop :=
  ∀ (idx : Byte) (half : Half) (i : Unit4) (s : State), s.live = true → idx.toNat = i.val →
    exec (.twrld idx half) s = .next { s with
      timers := s.timers.set i { counter := (s.unit i).counter, reload := half, control := (s.unit i).control } }

/-- 40_timer.md R112: an index of 4 or more raises ConfigurationError with the index and changes nothing else. -/
def Obligations.IndexOutOfRangeIsAConfigurationError : Prop :=
  ∀ (idx byte : Byte) (half : Half) (s : State), s.live = true → 4 ≤ idx.toNat →
    exec (.twctl idx byte) s = .next { s with sched := { s.sched with fault := some (.configurationError idx) } } ∧
    exec (.twrld idx half) s = .next { s with sched := { s.sched with fault := some (.configurationError idx) } }

/-! ## The register bus -/

/-- 41_bus_registers.md R140, R141, R142: what a read returns at each of the nine addresses, for every legal choice of the
addresses; a read changes no state. -/
def Obligations.BusReadReturnsTheLiveRegister : Prop :=
  ∀ s : State, s.live = true → addrsWf s.params = true →
    (∀ i, exec (.busr (cntAddr s.params i)) s =
      .next { s with trace := .busValue (cntAddr s.params i) (s.unit i).counter :: s.trace }) ∧
    (∀ i, exec (.busr (ctlAddr s.params i)) s =
      .next { s with trace := .busValue (ctlAddr s.params i) ((s.unit i).control.zeroExtend 16) :: s.trace }) ∧
    exec (.busr s.params.ifAddr) s = .next { s with trace := .busValue s.params.ifAddr s.ifr :: s.trace }

/-- 41_bus_registers.md R143, R144, R145: a write at a counter address stores the reload, a write at a control address is
TWCTL of the low byte, a write at `IF` is a plain store. -/
def Obligations.BusWriteRoutesToTheTimerOperations : Prop :=
  ∀ (v : Half) (s : State), s.live = true → addrsWf s.params = true →
    (∀ i : Unit4, exec (.busw v (cntAddr s.params i)) s =
      .next { s with timers := s.timers.set i { s.unit i with reload := v } }) ∧
    (∀ i : Unit4, exec (.busw v (ctlAddr s.params i)) s =
      exec (.twctl (BitVec.ofNat 8 i.val) (v.truncate 8)) s) ∧
    exec (.busw v s.params.ifAddr) s = .next { s with ifr := v }

/-- 41_bus_registers.md R146: at any other address a read or a write raises UnmodelledAccess with the address and changes
nothing else. -/
def Obligations.OtherAddressesAreUnmodelled : Prop :=
  ∀ (v : Half) (a : Word) (s : State), s.live = true →
    (∀ i, a ≠ cntAddr s.params i) → (∀ i, a ≠ ctlAddr s.params i) → a ≠ s.params.ifAddr →
    exec (.busr a) s = .next { s with sched := { s.sched with fault := some (.unmodelledAccess a) } } ∧
    exec (.busw v a) s = .next { s with sched := { s.sched with fault := some (.unmodelledAccess a) } }

/-- The nine BUSR rows of the opcode table (30_encoding.md R71): each is the read at its address, in every state and for
every choice of the parameters, a moved or unmapped register included (log 8); at the default addresses each returns its
register. -/
def Obligations.BusReadRowsReturnTheirRegister : Prop :=
  (∀ s : State,
    exec .busrTm0cnt s = exec (.busr 0x04000100) s ∧
    exec .busrTm1cnt s = exec (.busr 0x04000104) s ∧
    exec .busrTm2cnt s = exec (.busr 0x04000108) s ∧
    exec .busrTm3cnt s = exec (.busr 0x0400010C) s ∧
    exec .busrTm0ctl s = exec (.busr 0x04000102) s ∧
    exec .busrTm1ctl s = exec (.busr 0x04000106) s ∧
    exec .busrTm2ctl s = exec (.busr 0x0400010A) s ∧
    exec .busrTm3ctl s = exec (.busr 0x0400010E) s ∧
    exec .busrIf s = exec (.busr 0x04000202) s) ∧
  ∀ s : State, s.live = true → Reference.DefaultAddresses s →
    exec .busrTm0cnt s = .next { s with trace := .busValue 0x04000100 s.timers[0].counter :: s.trace } ∧
    exec .busrTm1cnt s = .next { s with trace := .busValue 0x04000104 s.timers[1].counter :: s.trace } ∧
    exec .busrTm2cnt s = .next { s with trace := .busValue 0x04000108 s.timers[2].counter :: s.trace } ∧
    exec .busrTm3cnt s = .next { s with trace := .busValue 0x0400010C s.timers[3].counter :: s.trace } ∧
    exec .busrTm0ctl s = .next { s with trace := .busValue 0x04000102 (s.timers[0].control.zeroExtend 16) :: s.trace } ∧
    exec .busrTm1ctl s = .next { s with trace := .busValue 0x04000106 (s.timers[1].control.zeroExtend 16) :: s.trace } ∧
    exec .busrTm2ctl s = .next { s with trace := .busValue 0x0400010A (s.timers[2].control.zeroExtend 16) :: s.trace } ∧
    exec .busrTm3ctl s = .next { s with trace := .busValue 0x0400010E (s.timers[3].control.zeroExtend 16) :: s.trace } ∧
    exec .busrIf s = .next { s with trace := .busValue 0x04000202 s.ifr :: s.trace }

/-- The nine BUSW rows of the opcode table (30_encoding.md R71): each is the write at its address, in every state and for
every choice of the parameters, a moved or unmapped register included (log 8); at the default addresses a counter row
stores the reload, a control row is TWCTL of the low byte, the `IF` row is a plain store. -/
def Obligations.BusWriteRowsWriteTheirRegister : Prop :=
  (∀ (v : Half) (s : State),
    exec (.buswTm0cnt v) s = exec (.busw v 0x04000100) s ∧
    exec (.buswTm1cnt v) s = exec (.busw v 0x04000104) s ∧
    exec (.buswTm2cnt v) s = exec (.busw v 0x04000108) s ∧
    exec (.buswTm3cnt v) s = exec (.busw v 0x0400010C) s ∧
    exec (.buswTm0ctl v) s = exec (.busw v 0x04000102) s ∧
    exec (.buswTm1ctl v) s = exec (.busw v 0x04000106) s ∧
    exec (.buswTm2ctl v) s = exec (.busw v 0x0400010A) s ∧
    exec (.buswTm3ctl v) s = exec (.busw v 0x0400010E) s ∧
    exec (.buswIf v) s = exec (.busw v 0x04000202) s) ∧
  ∀ (v : Half) (s : State), s.live = true → Reference.DefaultAddresses s →
    exec (.buswTm0cnt v) s = .next { s with timers := s.timers.set 0 { s.timers[0] with reload := v } } ∧
    exec (.buswTm1cnt v) s = .next { s with timers := s.timers.set 1 { s.timers[1] with reload := v } } ∧
    exec (.buswTm2cnt v) s = .next { s with timers := s.timers.set 2 { s.timers[2] with reload := v } } ∧
    exec (.buswTm3cnt v) s = .next { s with timers := s.timers.set 3 { s.timers[3] with reload := v } } ∧
    exec (.buswTm0ctl v) s = .next (writeControl 0 (v.truncate 8) s) ∧
    exec (.buswTm1ctl v) s = .next (writeControl 1 (v.truncate 8) s) ∧
    exec (.buswTm2ctl v) s = .next (writeControl 2 (v.truncate 8) s) ∧
    exec (.buswTm3ctl v) s = .next (writeControl 3 (v.truncate 8) s) ∧
    exec (.buswIf v) s = .next { s with ifr := v }

/-- 41_bus_registers.md R147: no bus access advances a timer, at any address and with no busy check: a read leaves every
unit as it is, and a counter changes only to the reload value of a unit that the write enables from disabled. -/
def Obligations.BusAccessesNeverAdvanceATimer : Prop :=
  ∀ (v : Half) (a : Word) (s : State), s.stuck = none →
    (∃ t, exec (.busr a) s = .next t ∧ t.timers = s.timers ∧ t.ifr = s.ifr) ∧
    ∃ t, exec (.busw v a) s = .next t ∧ t.sched.busy = s.sched.busy ∧
      ∀ i, (t.unit i).counter = (s.unit i).counter ∨
        ((t.unit i).counter = (s.unit i).reload ∧ ctlEnabled (s.unit i).control = false ∧
          ctlEnabled (t.unit i).control = true)

/-! ## The scheduler -/

/-- 42_scheduler.md R165: START while stopped runs the scheduler and schedules the first frame with delay 0, and runs no
frame itself; while running it does nothing. The handle's name and earliest time are the model's (log 12, log 13). -/
def Obligations.StartSchedulesTheFirstFrameOnce : Prop :=
  ∀ s : State, s.live = true →
    (s.sched.state = .running → exec .start s = .next s) ∧
    ∀ rest, s.sched.state = .stopped → s.env.host = .ok :: rest →
      exec .start s = .next { s with
        sched := { s.sched with state := .running, pending := some ⟨s.env.nextHandle, s.env.clock + 0⟩ }
        env := { s.env with host := rest, nextHandle := s.env.nextHandle + 1 }
        trace := .hostSchedule s.env.nextHandle 0 :: s.trace }

/-- 42_scheduler.md R166: STOP while running stops the scheduler and cancels the pending handle, if there is one; while
stopped it does nothing. The scripted answer, the handle's name and the record of outputs are the model's (log 9, log 13,
log 20). -/
def Obligations.StopCancelsThePendingHandle : Prop :=
  ∀ s : State, s.live = true →
    (s.sched.state = .stopped → exec .stop s = .next s) ∧
    (s.sched.state = .running → s.sched.pending = none →
      exec .stop s = .next { s with sched := { s.sched with state := .stopped } }) ∧
    ∀ h rest, s.sched.state = .running → s.sched.pending = some h → s.env.host = .ok :: rest →
      exec .stop s = .next { s with
        sched := { s.sched with state := .stopped, pending := none }
        env := { s.env with host := rest }
        trace := .hostCancel h.num :: s.trace }

/-- 42_scheduler.md R177: SETFPS stores the rate and the interval 1000/n and changes nothing else; a rate of 0 raises
InvalidFrameRate. -/
def Obligations.SetfpsRecomputesTheInterval : Prop :=
  ∀ (n : Word) (s : State), s.live = true →
    (n ≠ 0 → exec (.setfps n) s =
      .next { s with sched := { s.sched with targetFps := n.toNat, interval := 1000 / (n.toNat : Ms) } }) ∧
    (n = 0 → exec (.setfps n) s = .next { s with sched := { s.sched with fault := some (.invalidFrameRate 0) } })

/-- 42_scheduler.md R167, R180: a FIRE with nothing pending changes nothing, busy or not; so after a STOP that the host
carries out, a FIRE runs no frame. -/
def Obligations.FireWithNothingPendingRunsNoFrame : Prop :=
  ∀ s : State, s.live = true →
    (s.sched.pending = none → exec .fire s = .next s) ∧
    ∀ h rest t, s.sched.state = .running → s.sched.pending = some h → s.env.host = .ok :: rest →
      exec .stop s = .next t → exec .fire t = .next t

/-- 42_scheduler.md R180: while the block is stopped with nothing pending, no command but START, and DSTEP and SRESET (whose
collaborators may issue a START), makes it run or calls `CPU.step()`. And these three, like every command but a FIRE that
finds a handle pending, run no step of a frame, whatever the collaborators do and in every state: the accumulator, the
frame's start and the statistics stay, the clock is not read, `CPU.step()` is called by DSTEP alone and at most once; and
from a stopped block with nothing pending they leave such a block unless a START has scheduled a frame, with delay 0. The
record of outputs is the model's (log 20). -/
def Obligations.StoppedBlockRunsNoFrame : Prop :=
  (∀ (i : Instr) (s : State), s.live = true → s.sched.state = .stopped → s.sched.pending = none →
    i ≠ .start → i ≠ .dstep → i ≠ .sreset →
    ∃ t outs, exec i s = .next t ∧ t.sched.state = .stopped ∧ t.sched.pending = none ∧ t.trace = outs ++ s.trace ∧
      Output.cpuStep ∉ outs) ∧
  ∀ (i : Instr) (s : State), s.stuck = none → (i = .fire → s.sched.pending = none) →
    ∃ t outs, exec i s = .next t ∧ t.trace = outs ++ s.trace ∧
      t.sched.acc = s.sched.acc ∧ t.sched.frameStart = s.sched.frameStart ∧ t.sched.frameCount = s.sched.frameCount ∧
      t.sched.measuredFps = s.sched.measuredFps ∧ t.sched.lastSampleTime = s.sched.lastSampleTime ∧
      (∀ x, .hostNow x ∉ outs) ∧ outs.count .cpuStep ≤ (if i = .dstep then 1 else 0) ∧
      (s.sched.state = .stopped → s.sched.pending = none →
        (t.sched.state = .stopped ∧ t.sched.pending = none) ∨ ∃ n, .hostSchedule n 0 ∈ outs)

/-- 42_scheduler.md R167 to R173, R169: a FIRE with a pending handle, in which `CPU.step()` reports the counts `rs` (all
positive, reaching the budget 280896 with the last one and not before), no collaborator issues a command and every call
returns: the whole next state. The accumulator is the sum of the counts, the timers have taken each count in order, the
statistics and the pacing delay follow the readings, the next frame is scheduled, and the buffer obtained from the PPU is the
one rendered. The model's own in it: the scripted answers (log 9), the clock's bound (log 11), the handle's name and
earliest time in `S.pending` (log 12, log 13), the record of outputs and the buffer's name (log 20). -/
def Obligations.FireRunsACompleteFrame : Prop :=
  ∀ (s : State) (h : Handle) (rs : List Nat) (cpu : List CpuAnswer) (ppu : List PpuAnswer) (now : List NowAnswer)
    (host : List Reply) (fb : Framebuffer) (fbs : List FbAnswer) (calls : List CallAnswer) (t0 t1 t2 : Ms),
    Reference.Ready s → s.sched.state = .running → s.sched.pending = some h →
    (∀ r ∈ rs, 0 < r) → rs.dropLast.sum < 280896 → 280896 ≤ rs.sum →
    s.env.cpu = rs.map (fun r => ⟨[], .cycles r⟩) ++ cpu → s.env.ppu = List.replicate rs.length ⟨[], .ok⟩ ++ ppu →
    s.env.now = .reads t0 :: .reads t1 :: .reads t2 :: now → s.env.host = .ok :: host →
    s.env.fbs = ⟨[], .buffer fb⟩ :: fbs → s.env.calls = ⟨[], .ok⟩ :: calls →
    s.env.clock ≤ t0 → h.due ≤ t0 → t0 ≤ t1 → t1 ≤ t2 →
    exec .fire s = .next
      { params := s.params
        timers := (Reference.iterations rs (s.log (.hostNow t0))).timers
        ifr := (Reference.iterations rs (s.log (.hostNow t0))).ifr
        sched := { s.sched with
          pending := some ⟨s.env.nextHandle, t2 + max 0 (s.sched.interval - (t2 - t0))⟩
          acc := rs.sum
          frameCount := if 1000 ≤ t1 - s.sched.lastSampleTime then 0 else s.sched.frameCount + 1
          measuredFps :=
            if 1000 ≤ t1 - s.sched.lastSampleTime then s.sched.frameCount + 1 else s.sched.measuredFps
          lastSampleTime := if 1000 ≤ t1 - s.sched.lastSampleTime then t1 else s.sched.lastSampleTime
          frameStart := t0 }
        env := { s.env with
          cpu := cpu, ppu := ppu, now := now, host := host, fbs := fbs, calls := calls, clock := t2,
          nextHandle := s.env.nextHandle + 1 }
        trace := .render fb :: .getFramebuffer ::
          .hostSchedule s.env.nextHandle (max 0 (s.sched.interval - (t2 - t0))) :: .hostNow t2 :: .hostNow t1 ::
          (Reference.iterations rs (s.log (.hostNow t0))).trace
        stuck := none }

/-- 42_scheduler.md R170, 60_exceptions.md R202: a `CPU.step()` that fails or reports 0 aborts the frame: stopped, nothing
pending, the failed iteration not counted, no statistics, no schedule, no notification, the event CpuStepFailure; the earlier
iterations are kept. Where the CPU has issued a STOP and a START in that step, the handle which that START scheduled is
cancelled. The scripted answers, the clock's bound, the handle's name and the record of outputs are the model's (log 9,
log 11, log 13, log 20). -/
def Obligations.CpuFailureAbortsTheFrame : Prop :=
  ∀ (s : State) (h : Handle) (rs : List Nat) (res : CpuResult) (cpu : List CpuAnswer) (ppu : List PpuAnswer)
    (now : List NowAnswer) (t0 : Ms),
    Reference.Ready s → s.sched.state = .running → s.sched.pending = some h →
    (∀ r ∈ rs, 0 < r) → rs.sum < 280896 → res = .fail ∨ res = .cycles 0 →
    s.env.ppu = List.replicate rs.length ⟨[], .ok⟩ ++ ppu → s.env.now = .reads t0 :: now →
    s.env.clock ≤ t0 → h.due ≤ t0 →
    (s.env.cpu = rs.map (fun r => ⟨[], .cycles r⟩) ++ ⟨[], res⟩ :: cpu →
      exec .fire s = .next
        { params := s.params
          timers := (Reference.iterations rs (s.log (.hostNow t0))).timers
          ifr := (Reference.iterations rs (s.log (.hostNow t0))).ifr
          sched := { s.sched with state := .stopped, pending := none, acc := rs.sum, frameStart := t0 }
          env := { s.env with cpu := cpu, ppu := ppu, now := now, clock := t0 }
          trace := .cpuStepFailure :: .cpuStep :: (Reference.iterations rs (s.log (.hostNow t0))).trace
          stuck := none }) ∧
    ∀ host : List Reply, s.env.cpu = rs.map (fun r => ⟨[], .cycles r⟩) ++ ⟨[encode .stop, encode .start], res⟩ :: cpu →
      s.env.host = .ok :: .ok :: host →
      exec .fire s = .next
        { params := s.params
          timers := (Reference.iterations rs (s.log (.hostNow t0))).timers
          ifr := (Reference.iterations rs (s.log (.hostNow t0))).ifr
          sched := { s.sched with state := .stopped, pending := none, acc := rs.sum, frameStart := t0 }
          env := { s.env with
            cpu := cpu, ppu := ppu, now := now, host := host, clock := t0, nextHandle := s.env.nextHandle + 1 }
          trace := .cpuStepFailure :: .hostCancel s.env.nextHandle :: .hostSchedule s.env.nextHandle 0 :: .cpuStep ::
            (Reference.iterations rs (s.log (.hostNow t0))).trace
          stuck := none }

/-- 60_exceptions.md R202, 92_eei_decisions.md D16: whatever the collaborators do, a command that emits CpuStepFailure, be it
a FIRE or a DSTEP, leaves the block Stopped with nothing pending, no fault and no operation in progress, and the event is the
last thing it puts out. That a debug step in which the CPU has issued a START follows R202 is the model's reading (log 19);
the record of outputs is the model's own (log 20). -/
def Obligations.CpuStepFailureLeavesTheBlockStopped : Prop :=
  ∀ (i : Instr) (s t : State) (outs : List Output), exec i s = .next t → t.trace = outs ++ s.trace →
    .cpuStepFailure ∈ outs →
    t.sched.state = .stopped ∧ t.sched.pending = none ∧ t.sched.busy = false ∧ t.live = true ∧
      outs.head? = some .cpuStepFailure ∧ (i = .fire ∨ i = .dstep)

/-- 42_scheduler.md R175: a STOP that the CPU issues inside a frame: the iteration completes, then the frame is abandoned
without statistics, schedule, notification or event. The scripted answers, the clock's bound and the record of outputs are
the model's (log 9, log 11, log 20). -/
def Obligations.StopInsideAFrameAbandonsIt : Prop :=
  ∀ (s : State) (h : Handle) (rs : List Nat) (r : Nat) (cpu : List CpuAnswer) (ppu : List PpuAnswer)
    (now : List NowAnswer) (t0 : Ms),
    Reference.Ready s → s.sched.state = .running → s.sched.pending = some h →
    (∀ q ∈ rs, 0 < q) → 0 < r → rs.sum < 280896 →
    s.env.cpu = rs.map (fun q => ⟨[], .cycles q⟩) ++ ⟨[encode .stop], .cycles r⟩ :: cpu →
    s.env.ppu = List.replicate (rs.length + 1) ⟨[], .ok⟩ ++ ppu → s.env.now = .reads t0 :: now →
    s.env.clock ≤ t0 → h.due ≤ t0 →
    exec .fire s = .next
      { params := s.params
        timers := (Reference.iterations (rs ++ [r]) (s.log (.hostNow t0))).timers
        ifr := (Reference.iterations (rs ++ [r]) (s.log (.hostNow t0))).ifr
        sched := { s.sched with state := .stopped, pending := none, acc := rs.sum + r, frameStart := t0 }
        env := { s.env with cpu := cpu, ppu := ppu, now := now, clock := t0 }
        trace := (Reference.iterations (rs ++ [r]) (s.log (.hostNow t0))).trace
        stuck := none }

/-- 42_scheduler.md R171: the statistics at a reading `t1`: the frame counter goes up, and once 1000 ms have passed since
the last sample the rate is the counter, which restarts. The frame is counted before the clock is read: where the host's
clock never answers (70_reset_and_hazards.md R243; the hang's form is the model's, log 16), the counter has gone up. The
clock's bound is the model's (log 11). -/
def Obligations.StatisticsSampleOncePerSecond : Prop :=
  ∀ (s : State) (now : List NowAnswer), s.live = true →
    (∀ t1 : Ms, s.env.now = .reads t1 :: now → s.env.clock ≤ t1 →
      statistics s = { s with
        sched := { s.sched with
          frameCount := if t1 - s.sched.lastSampleTime ≥ 1000 then 0 else s.sched.frameCount + 1
          measuredFps := if t1 - s.sched.lastSampleTime ≥ 1000 then s.sched.frameCount + 1 else s.sched.measuredFps
          lastSampleTime := if t1 - s.sched.lastSampleTime ≥ 1000 then t1 else s.sched.lastSampleTime }
        env := { s.env with now := now, clock := t1 }
        trace := .hostNow t1 :: s.trace }) ∧
    (s.env.now = .never :: now →
      statistics s = { s with
        sched := { s.sched with frameCount := s.sched.frameCount + 1 }
        env := { s.env with now := now }
        stuck := some .hostNow })

/-- 42_scheduler.md R172: the pacing step at a reading `t2`: where the scheduler runs and nothing is pending it schedules
the next frame after `max(0, interval - elapsed)`; otherwise it schedules nothing. The handle's name and its earliest time,
which `S.pending` holds, are the model's (log 12, log 13), as are the clock's bound (log 11) and the record of outputs
(log 20). -/
def Obligations.PacingSchedulesAfterTheRestOfTheInterval : Prop :=
  ∀ (s : State) (t2 : Ms) (now : List NowAnswer) (host : List Reply), s.live = true → s.env.now = .reads t2 :: now →
    s.env.clock ≤ t2 → s.env.host = .ok :: host →
    (s.sched.state = .running ∧ s.sched.pending = none →
      pacing s = { s with
        sched := { s.sched with
          pending := some ⟨s.env.nextHandle, t2 + max 0 (s.sched.interval - (t2 - s.sched.frameStart))⟩ }
        env := { s.env with now := now, clock := t2, host := host, nextHandle := s.env.nextHandle + 1 }
        trace := .hostSchedule s.env.nextHandle (max 0 (s.sched.interval - (t2 - s.sched.frameStart))) ::
          .hostNow t2 :: s.trace }) ∧
    (¬ (s.sched.state = .running ∧ s.sched.pending = none) →
      pacing s = { s with env := { s.env with now := now, clock := t2 }, trace := .hostNow t2 :: s.trace })

/-- 42_scheduler.md R164, R241: the frame of a FIRE starts no earlier than the handle's time, whatever the collaborators do
in it; only a host clock that never answers leaves no start. The handle's time is the model's field (log 12). -/
def Obligations.FrameStartsNoEarlierThanItsHandleIsDue : Prop :=
  ∀ (s : State) (h : Handle), Reference.Ready s → s.sched.state = .running → s.sched.pending = some h →
    ∃ t, exec .fire s = .next t ∧ (h.due ≤ t.sched.frameStart ∨ t.stuck = some .hostNow)

/-- 42_scheduler.md R176: DSTEP while stopped makes one CPU step, one PPU step and one timer step by the reported count and
touches no scheduler register; a failing step emits the event and does nothing more; while running it raises
DebugStepWhileRunning; while busy it raises ReentrantCommand. Nothing is pending in a live stopped block (10_state.md R47,
Obligations.StepKeepsTheInvariant), which the clause of the failing step needs. Where the CPU has issued a START in the
failing step, the block is stopped again and the handle cancelled (60_exceptions.md R202, 92_eei_decisions.md D16; log 19).
The scripted answers and the record of outputs are the model's (log 9, log 20). -/
def Obligations.DstepRunsOneStepOfEach : Prop :=
  ∀ s : State, s.live = true →
    (∀ r cpu ppu, s.sched.busy = false → s.sched.state = .stopped → 0 < r →
      s.env.cpu = ⟨[], .cycles r⟩ :: cpu → s.env.ppu = ⟨[], .ok⟩ :: ppu →
      exec .dstep s = .next
        { params := s.params
          timers := (Reference.iterations [r] s).timers
          ifr := (Reference.iterations [r] s).ifr
          sched := s.sched
          env := { s.env with cpu := cpu, ppu := ppu }
          trace := (Reference.iterations [r] s).trace
          stuck := none }) ∧
    (∀ res cpu, s.sched.busy = false → s.sched.state = .stopped → s.sched.pending = none →
      res = .fail ∨ res = .cycles 0 →
      (s.env.cpu = ⟨[], res⟩ :: cpu →
        exec .dstep s = .next { s with
          env := { s.env with cpu := cpu }
          trace := .cpuStepFailure :: .cpuStep :: s.trace }) ∧
      ∀ host, s.env.cpu = ⟨[encode .start], res⟩ :: cpu → s.env.host = .ok :: .ok :: host →
        exec .dstep s = .next { s with
          env := { s.env with cpu := cpu, host := host, nextHandle := s.env.nextHandle + 1 }
          trace := .cpuStepFailure :: .hostCancel s.env.nextHandle :: .hostSchedule s.env.nextHandle 0 :: .cpuStep ::
            s.trace }) ∧
    (s.sched.state = .running →
      exec .dstep s = .next { s with sched := { s.sched with fault := some .debugStepWhileRunning } }) ∧
    (s.sched.busy = true → s.sched.state = .stopped →
      exec .dstep s = .next { s with sched := { s.sched with fault := some (.reentrantCommand 0x14) } })

/-- 42_scheduler.md R178: SRESET resets the CPU, the PPU, the timers and the input, in this order, and changes no scheduler
register and no flag; while busy it raises ReentrantCommand. The scripted answers and the record of outputs are the model's
(log 9, log 20). -/
def Obligations.SresetResetsTimersAndCollaborators : Prop :=
  ∀ s : State, s.live = true →
    (∀ calls, s.sched.busy = false → s.env.calls = ⟨[], .ok⟩ :: ⟨[], .ok⟩ :: ⟨[], .ok⟩ :: calls →
      exec .sreset s = .next { s with
        timers := Vector.replicate 4 ⟨0, 0, 0⟩
        env := { s.env with calls := calls }
        trace := .inputReset :: .ppuReset :: .cpuReset :: s.trace }) ∧
    (s.sched.busy = true →
      exec .sreset s = .next { s with sched := { s.sched with fault := some (.reentrantCommand 0x10) } })

/-- 42_scheduler.md R179, 60_exceptions.md R201 (item 2): in a START, a STOP, an SRESET and a DSTEP, a collaborator call other
than `CPU.step` that fails raises CollaboratorFailure at that point, and the state is left as reached: scheduling in START,
cancelling in STOP, each of the three resets in SRESET, and in DSTEP the PPU's step, the framebuffer and the rendering of an
observer call (R174), and the cancel after a failing CPU step. The model's own: that a failed cancel leaves the handle in
`S.pending`, with the block Stopped (log 17); that `S.busy` stays true (log 18); the scripted answers and the record of
outputs (log 9, log 20); in the last clause the handle's name and time (log 12, log 13) and the START that a failing debug
step takes back (log 19). -/
def Obligations.FailingCollaboratorStopsTheOperation : Prop :=
  ∀ s : State, Reference.Ready s →
    (∀ rest, s.sched.state = .stopped → s.env.host = .fail :: rest →
      exec .start s = .next (Reference.failed .hostSchedule (.hostSchedule s.env.nextHandle 0)
        { s with sched := { s.sched with state := .running }, env := { s.env with host := rest } })) ∧
    (∀ h rest, s.sched.state = .running → s.sched.pending = some h → s.env.host = .fail :: rest →
      exec .stop s = .next (Reference.failed .hostCancel (.hostCancel h.num)
        { s with sched := { s.sched with state := .stopped }, env := { s.env with host := rest } })) ∧
    (∀ calls, s.env.calls = ⟨[], .fail⟩ :: calls →
      exec .sreset s = .next (Reference.failed .cpuReset .cpuReset
        { s with sched := { s.sched with busy := true }, env := { s.env with calls := calls } })) ∧
    (∀ calls, s.env.calls = ⟨[], .ok⟩ :: ⟨[], .fail⟩ :: calls →
      exec .sreset s = .next (Reference.failed .ppuReset .ppuReset
        { s with
          sched := { s.sched with busy := true }
          env := { s.env with calls := calls }
          trace := .cpuReset :: s.trace })) ∧
    (∀ calls, s.env.calls = ⟨[], .ok⟩ :: ⟨[], .ok⟩ :: ⟨[], .fail⟩ :: calls →
      exec .sreset s = .next (Reference.failed .inputReset .inputReset
        { s with
          timers := Vector.replicate 4 ⟨0, 0, 0⟩
          sched := { s.sched with busy := true }
          env := { s.env with calls := calls }
          trace := .ppuReset :: .cpuReset :: s.trace })) ∧
    (∀ r cpu ppu, s.sched.state = .stopped → 0 < r → s.env.cpu = ⟨[], .cycles r⟩ :: cpu →
      s.env.ppu = ⟨[], .fail⟩ :: ppu →
      exec .dstep s = .next (Reference.failed .ppuStep (.ppuStep r)
        { s with
          sched := { s.sched with busy := true }
          env := { s.env with cpu := cpu, ppu := ppu }
          trace := .cpuStep :: s.trace })) ∧
    (∀ r cpu ppu acts reply fbs, s.sched.state = .stopped → 0 < r → s.env.cpu = ⟨[], .cycles r⟩ :: cpu →
      s.env.ppu = ⟨.endOfFrame :: acts, reply⟩ :: ppu → s.env.fbs = ⟨[], .fail⟩ :: fbs →
      exec .dstep s = .next (Reference.failed .getFramebuffer .getFramebuffer
        { s with
          sched := { s.sched with busy := true }
          env := { s.env with cpu := cpu, ppu := ppu, fbs := fbs }
          trace := .ppuStep r :: .cpuStep :: s.trace })) ∧
    (∀ r cpu ppu acts reply fb fbs calls, s.sched.state = .stopped → 0 < r → s.env.cpu = ⟨[], .cycles r⟩ :: cpu →
      s.env.ppu = ⟨.endOfFrame :: acts, reply⟩ :: ppu → s.env.fbs = ⟨[], .buffer fb⟩ :: fbs →
      s.env.calls = ⟨[], .fail⟩ :: calls →
      exec .dstep s = .next (Reference.failed .render (.render fb)
        { s with
          sched := { s.sched with busy := true }
          env := { s.env with cpu := cpu, ppu := ppu, fbs := fbs, calls := calls }
          trace := .getFramebuffer :: .ppuStep r :: .cpuStep :: s.trace })) ∧
    ∀ res cpu host, s.sched.state = .stopped → res = .fail ∨ res = .cycles 0 →
      s.env.cpu = ⟨[encode .start], res⟩ :: cpu → s.env.host = .ok :: .fail :: host →
      exec .dstep s = .next (Reference.failed .hostCancel (.hostCancel s.env.nextHandle)
        { s with
          sched := { s.sched with busy := true, pending := some ⟨s.env.nextHandle, s.env.clock + 0⟩ }
          env := { s.env with cpu := cpu, host := host, nextHandle := s.env.nextHandle + 1 }
          trace := .hostSchedule s.env.nextHandle 0 :: .cpuStep :: s.trace })

/-- 42_scheduler.md R179, 60_exceptions.md R201 (item 2): in a FIRE, a collaborator call other than `CPU.step` that fails
raises CollaboratorFailure at that point, and the state is left as reached: the PPU's step in an iteration, the cancel in
AbortFrame (R170), the scheduling of step 4, the framebuffer and the rendering of step 5. The model's own: that a failed
cancel leaves the handle in `S.pending`, with the block Stopped and no event (log 17); that `S.busy` stays true (log 18); the
scripted answers, the handle's name and time and the record of outputs (log 9, log 12, log 13, log 20). -/
def Obligations.FailingCollaboratorStopsTheFrame : Prop :=
  ∀ (s : State) (h : Handle) (t0 : Ms) (rs : List Nat) (cpu : List CpuAnswer) (ppu : List PpuAnswer)
    (now : List NowAnswer), Reference.FrameBegins s h t0 now → (∀ r ∈ rs, 0 < r) →
    (∀ r, 0 < r → rs.sum < 280896 → s.env.cpu = rs.map (fun r => ⟨[], .cycles r⟩) ++ ⟨[], .cycles r⟩ :: cpu →
      s.env.ppu = List.replicate rs.length ⟨[], .ok⟩ ++ ⟨[], .fail⟩ :: ppu →
      exec .fire s = .next (Reference.failed .ppuStep (.ppuStep r)
        { Reference.inFrame s t0 rs cpu ppu now with
          trace := .cpuStep :: (Reference.inFrame s t0 rs cpu ppu now).trace })) ∧
    (∀ res host, res = .fail ∨ res = .cycles 0 → rs.sum < 280896 →
      s.env.cpu = rs.map (fun r => ⟨[], .cycles r⟩) ++ ⟨[encode .stop, encode .start], res⟩ :: cpu →
      s.env.ppu = List.replicate rs.length ⟨[], .ok⟩ ++ ppu → s.env.host = .ok :: .fail :: host →
      exec .fire s = .next (Reference.failed .hostCancel (.hostCancel s.env.nextHandle)
        { Reference.inFrame s t0 rs cpu ppu now with
          sched := { (Reference.inFrame s t0 rs cpu ppu now).sched with
            state := .stopped, pending := some ⟨s.env.nextHandle, t0 + 0⟩ }
          env := { (Reference.inFrame s t0 rs cpu ppu now).env with host := host, nextHandle := s.env.nextHandle + 1 }
          trace := .hostSchedule s.env.nextHandle 0 :: .cpuStep :: (Reference.inFrame s t0 rs cpu ppu now).trace })) ∧
    ∀ (t1 t2 : Ms) (rest : List NowAnswer) (host : List Reply), rs.dropLast.sum < 280896 → 280896 ≤ rs.sum →
      s.env.cpu = rs.map (fun r => ⟨[], .cycles r⟩) ++ cpu → s.env.ppu = List.replicate rs.length ⟨[], .ok⟩ ++ ppu →
      now = .reads t1 :: .reads t2 :: rest → t0 ≤ t1 → t1 ≤ t2 →
      (s.env.host = .fail :: host →
        exec .fire s = .next (Reference.failed .hostSchedule
          (.hostSchedule s.env.nextHandle (Reference.delay s.sched t0 t2))
          { Reference.timed (Reference.inFrame s t0 rs cpu ppu now) t1 t2 rest with
            env := { (Reference.timed (Reference.inFrame s t0 rs cpu ppu now) t1 t2 rest).env with host := host } })) ∧
      (∀ fbs, s.env.host = .ok :: host → s.env.fbs = ⟨[], .fail⟩ :: fbs →
        exec .fire s = .next (Reference.failed .getFramebuffer .getFramebuffer
          { Reference.paced (Reference.timed (Reference.inFrame s t0 rs cpu ppu now) t1 t2 rest) t0 t2 host with
            env := { (Reference.paced (Reference.timed (Reference.inFrame s t0 rs cpu ppu now) t1 t2 rest) t0 t2
              host).env with fbs := fbs } })) ∧
      ∀ fb fbs calls, s.env.host = .ok :: host → s.env.fbs = ⟨[], .buffer fb⟩ :: fbs →
        s.env.calls = ⟨[], .fail⟩ :: calls →
        exec .fire s = .next (Reference.failed .render (.render fb)
          { Reference.paced (Reference.timed (Reference.inFrame s t0 rs cpu ppu now) t1 t2 rest) t0 t2 host with
            env := { (Reference.paced (Reference.timed (Reference.inFrame s t0 rs cpu ppu now) t1 t2 rest) t0 t2
              host).env with fbs := fbs, calls := calls }
            trace := .getFramebuffer ::
              (Reference.paced (Reference.timed (Reference.inFrame s t0 rs cpu ppu now) t1 t2 rest) t0 t2 host).trace })

/-- 42_scheduler.md R182: while `S.busy` is true, TRESET, TSTEP, SRESET, DSTEP (where the scheduler is stopped) and FIRE
(where a handle is pending) raise ReentrantCommand, and the other commands run as they do otherwise. -/
def Obligations.BusyBlockAllowsOnlySomeCommands : Prop :=
  ∀ s : State, s.live = true → s.sched.busy = true →
    (∀ i : Instr, i = .treset ∨ (∃ c, i = .tstep c) ∨ i = .sreset ∨ (i = .dstep ∧ s.sched.state = .stopped) ∨
        (i = .fire ∧ s.sched.pending ≠ none) →
      exec i s = .next { s with sched := { s.sched with fault := some (.reentrantCommand i.op) } }) ∧
    (∀ (i : Instr) (t : State), i.op = 0x03 ∨ i.op = 0x04 ∨ i.op = 0x05 ∨ i.op = 0x06 ∨ i.op = 0x11 ∨ i.op = 0x12 ∨
        i.op = 0x15 →
      exec i { s with sched := { s.sched with busy := false } } = .next t →
      exec i s = .next { t with sched := { t.sched with busy := true } })

/-- A command issued inside an operation is the command: what runs nested is what `exec` does in the busy state
(42_scheduler.md R182, 20_memory.md R63). -/
def Obligations.NestedCommandIsTheCommandWhileBusy : Prop :=
  ∀ (i : Instr) (s : State), s.live = true → s.sched.busy = true → exec i s = .next (nestedOp i s)

/-- 20_memory.md R63, 70_reset_and_hazards.md R236: a control or a reload write that the CPU makes during its step, as a timer
command or through the bus, is in effect for the timer step of the same iteration: in a debug step, and in an iteration of a
frame after any number of others (a failing CPU step then ends the frame, R170, and shows the timers). -/
def Obligations.NestedTimerWriteCountsInTheSameIteration : Prop :=
  ∀ (s : State) (w : Cmd) (f : State → State) (r : Nat) (cpu : List CpuAnswer) (ppu : List PpuAnswer),
    addrsWf s.params = true → Reference.TimerWrite s.params w f → 0 < r →
    (Reference.Ready s → s.sched.state = .stopped → s.env.cpu = ⟨[w], .cycles r⟩ :: cpu →
      s.env.ppu = ⟨[], .ok⟩ :: ppu →
      exec .dstep s = .next
        { params := s.params
          timers := (Reference.iterations [r] (f s)).timers
          ifr := (Reference.iterations [r] (f s)).ifr
          sched := s.sched
          env := { s.env with cpu := cpu, ppu := ppu }
          trace := (Reference.iterations [r] (f s)).trace
          stuck := none }) ∧
    ∀ (h : Handle) (t0 : Ms) (rs : List Nat) (now : List NowAnswer), Reference.FrameBegins s h t0 now →
      (∀ q ∈ rs, 0 < q) → rs.sum + r < 280896 →
      s.env.cpu = rs.map (fun q => ⟨[], .cycles q⟩) ++ ⟨[w], .cycles r⟩ :: ⟨[], .fail⟩ :: cpu →
      s.env.ppu = List.replicate (rs.length + 1) ⟨[], .ok⟩ ++ ppu →
      exec .fire s = .next
        { params := s.params
          timers := (Reference.iterations [r] (f (Reference.iterations rs (s.log (.hostNow t0))))).timers
          ifr := (Reference.iterations [r] (f (Reference.iterations rs (s.log (.hostNow t0))))).ifr
          sched := { s.sched with state := .stopped, pending := none, acc := rs.sum + r, frameStart := t0 }
          env := { s.env with cpu := cpu, ppu := ppu, now := now, clock := t0 }
          trace := .cpuStepFailure :: .cpuStep ::
            (Reference.iterations [r] (f (Reference.iterations rs (s.log (.hostNow t0))))).trace
          stuck := none }

/-- 60_exceptions.md R201 (item 2), R203: a command that a collaborator issues inside a frame and that faults stops the whole
frame there: the state is left as reached, and nothing more of the frame runs. The command is any one that raises a fault,
after any others that do not, issued by the CPU or by the PPU in an iteration after any number of others (an observer call
of the PPU among them), or in step 5 by the PPU or by Presentation. The model's own: the rest of the call's commands and
its result are dropped (log 10); an undecodable word is IllegalCommand (log 14); every code stops the operation (log 24);
a failed cancel leaves the handle (log 17); `S.busy` stays true (log 18); the scripted answers, the handle's name and time
and the record of outputs (log 9, log 12, log 13, log 20). -/
def Obligations.NestedFaultStopsTheFrame : Prop :=
  ∀ (s t : State) (h : Handle) (t0 : Ms) (rs : List Nat) (cpu : List CpuAnswer) (ppu : List PpuAnswer)
    (now : List NowAnswer), Reference.FrameBegins s h t0 now → (∀ r ∈ rs, 0 < r) →
    (∀ ws res, rs.sum < 280896 → s.env.cpu = rs.map (fun r => ⟨[], .cycles r⟩) ++ ⟨ws, res⟩ :: cpu →
      s.env.ppu = List.replicate rs.length ⟨[], .ok⟩ ++ ppu →
      Reference.NestedStops ws { Reference.inFrame s t0 rs cpu ppu now with
        trace := .cpuStep :: (Reference.inFrame s t0 rs cpu ppu now).trace } t →
      exec .fire s = .next t) ∧
    (∀ r acts reply, 0 < r → rs.sum < 280896 →
      s.env.cpu = rs.map (fun r => ⟨[], .cycles r⟩) ++ ⟨[], .cycles r⟩ :: cpu →
      s.env.ppu = List.replicate rs.length ⟨[], .ok⟩ ++ ⟨acts, reply⟩ :: ppu →
      Reference.PpuActsStop acts { Reference.inFrame s t0 rs cpu ppu now with
        trace := .ppuStep r :: .cpuStep :: (Reference.inFrame s t0 rs cpu ppu now).trace } t →
      exec .fire s = .next t) ∧
    ∀ t1 t2 rest host, rs.dropLast.sum < 280896 → 280896 ≤ rs.sum →
      s.env.cpu = rs.map (fun r => ⟨[], .cycles r⟩) ++ cpu → s.env.ppu = List.replicate rs.length ⟨[], .ok⟩ ++ ppu →
      now = .reads t1 :: .reads t2 :: rest → t0 ≤ t1 → t1 ≤ t2 → s.env.host = .ok :: host →
      Reference.FrameCompleteStops
        (Reference.paced (Reference.timed (Reference.inFrame s t0 rs cpu ppu now) t1 t2 rest) t0 t2 host) t →
      exec .fire s = .next t

/-- 60_exceptions.md R201 (item 2), R203: the same in a DSTEP and in an SRESET: a command that the CPU or the PPU (in an
observer call too) issues inside a debug step, or a collaborator inside its reset, and that faults, stops the whole
operation there. The model's own are those of Obligations.NestedFaultStopsTheFrame (log 9, log 10, log 14, log 17, log 18,
log 20, log 24). -/
def Obligations.NestedFaultStopsTheOperation : Prop :=
  ∀ s t : State, Reference.Ready s →
    (∀ ws res cpu, s.sched.state = .stopped → s.env.cpu = ⟨ws, res⟩ :: cpu →
      Reference.NestedStops ws { s with
        sched := { s.sched with busy := true }
        env := { s.env with cpu := cpu }
        trace := .cpuStep :: s.trace } t →
      exec .dstep s = .next t) ∧
    (∀ r cpu acts reply ppu, s.sched.state = .stopped → 0 < r → s.env.cpu = ⟨[], .cycles r⟩ :: cpu →
      s.env.ppu = ⟨acts, reply⟩ :: ppu →
      Reference.PpuActsStop acts { s with
        sched := { s.sched with busy := true }
        env := { s.env with cpu := cpu, ppu := ppu }
        trace := .ppuStep r :: .cpuStep :: s.trace } t →
      exec .dstep s = .next t) ∧
    (∀ ws reply calls, s.env.calls = ⟨ws, reply⟩ :: calls →
      Reference.NestedStops ws { s with
        sched := { s.sched with busy := true }
        env := { s.env with calls := calls }
        trace := .cpuReset :: s.trace } t →
      exec .sreset s = .next t) ∧
    (∀ ws reply calls, s.env.calls = ⟨[], .ok⟩ :: ⟨ws, reply⟩ :: calls →
      Reference.NestedStops ws { s with
        sched := { s.sched with busy := true }
        env := { s.env with calls := calls }
        trace := .ppuReset :: .cpuReset :: s.trace } t →
      exec .sreset s = .next t) ∧
    ∀ ws reply calls, s.env.calls = ⟨[], .ok⟩ :: ⟨[], .ok⟩ :: ⟨ws, reply⟩ :: calls →
      Reference.NestedStops ws { s with
        timers := Vector.replicate 4 ⟨0, 0, 0⟩
        sched := { s.sched with busy := true }
        env := { s.env with calls := calls }
        trace := .inputReset :: .ppuReset :: .cpuReset :: s.trace } t →
      exec .sreset s = .next t

/-- 93_implementation_defined.md I19, 70_reset_and_hazards.md R243: a `CPU.step()` that never returns leaves the block inside
it for good, in a debug step and in a frame, which then never ends: nothing after the call happens, and every later command
is the machine's own stop. How the stop is written is the model's choice (log 16). -/
def Obligations.HungCpuLeavesTheBlockStuck : Prop :=
  (∀ (s : State) (cpu : List CpuAnswer), Reference.Ready s → s.sched.state = .stopped →
    s.env.cpu = ⟨[], .never⟩ :: cpu →
    ∃ t, exec .dstep s = .next t ∧ t.stuck = some .cpuStep ∧ t.timers = s.timers ∧ t.sched.busy = true ∧
      ∀ i, exec i t = .fault (.neverReturned .cpuStep)) ∧
  ∀ (s : State) (h : Handle) (t0 : Ms) (rs : List Nat) (cpu : List CpuAnswer) (ppu : List PpuAnswer)
    (now : List NowAnswer), Reference.FrameBegins s h t0 now → (∀ r ∈ rs, 0 < r) → rs.sum < 280896 →
    s.env.cpu = rs.map (fun r => ⟨[], .cycles r⟩) ++ ⟨[], .never⟩ :: cpu →
    s.env.ppu = List.replicate rs.length ⟨[], .ok⟩ ++ ppu →
    ∃ t, exec .fire s = .next t ∧
      t = { Reference.inFrame s t0 rs cpu ppu now with
        trace := .cpuStep :: (Reference.inFrame s t0 rs cpu ppu now).trace
        stuck := some .cpuStep } ∧
      ∀ i, exec i t = .fault (.neverReturned .cpuStep)

/-- 42_scheduler.md R174, R162: the PPU may call its end-of-frame observer any number of times during `PPU.step`: a PPU step
with one such call for each buffer of `bufs` changes no block register, and each call obtains the framebuffer and renders
the buffer it obtained, in order. So it is in a debug step, and in an iteration of a frame after any number of others (a
failing CPU step then ends the frame, R170, and shows the registers). The scripted answers and the record of outputs are the
model's, as is the clock's bound (log 9, log 11, log 20). -/
def Obligations.ObserverCallsChangeNoRegister : Prop :=
  ∀ (s : State) (bufs : List Framebuffer) (r : Nat) (cpu : List CpuAnswer) (ppu : List PpuAnswer) (fbs : List FbAnswer)
    (calls : List CallAnswer), 0 < r →
    s.env.fbs = bufs.map (fun fb => ⟨[], .buffer fb⟩) ++ fbs →
    s.env.calls = List.replicate bufs.length ⟨[], .ok⟩ ++ calls →
    (s.live = true → s.env.ppu = ⟨List.replicate bufs.length .endOfFrame, .ok⟩ :: ppu →
      ppuStep r s = { s with
        env := { s.env with ppu := ppu, fbs := fbs, calls := calls }
        trace := bufs.reverse.flatMap (fun fb => [.render fb, .getFramebuffer]) ++ .ppuStep r :: s.trace }) ∧
    (Reference.Ready s → s.sched.state = .stopped → s.env.cpu = ⟨[], .cycles r⟩ :: cpu →
      s.env.ppu = ⟨List.replicate bufs.length .endOfFrame, .ok⟩ :: ppu →
      ∃ t outs, exec .dstep s = .next t ∧ t.params = s.params ∧ t.timers = (Reference.iterations [r] s).timers ∧
        t.ifr = (Reference.iterations [r] s).ifr ∧ t.sched = s.sched ∧ t.stuck = none ∧
        t.env = { s.env with cpu := cpu, ppu := ppu, fbs := fbs, calls := calls } ∧
        t.trace = outs ++ bufs.reverse.flatMap (fun fb => [.render fb, .getFramebuffer]) ++
          .ppuStep r :: .cpuStep :: s.trace ∧
        (Reference.iterations [r] s).trace = outs ++ .ppuStep r :: .cpuStep :: s.trace) ∧
    ∀ (h : Handle) (t0 : Ms) (rs : List Nat) (now : List NowAnswer), Reference.FrameBegins s h t0 now →
      (∀ q ∈ rs, 0 < q) → rs.sum + r < 280896 →
      s.env.cpu = rs.map (fun q => ⟨[], .cycles q⟩) ++ ⟨[], .cycles r⟩ :: ⟨[], .fail⟩ :: cpu →
      s.env.ppu =
        List.replicate rs.length ⟨[], .ok⟩ ++ ⟨List.replicate bufs.length .endOfFrame, .ok⟩ :: ppu →
      ∃ t outs, exec .fire s = .next t ∧ t.params = s.params ∧
        t.timers = (Reference.iterations (rs ++ [r]) (s.log (.hostNow t0))).timers ∧
        t.ifr = (Reference.iterations (rs ++ [r]) (s.log (.hostNow t0))).ifr ∧
        t.sched = { s.sched with state := .stopped, pending := none, acc := rs.sum + r, frameStart := t0 } ∧
        t.stuck = none ∧
        t.env = { s.env with cpu := cpu, ppu := ppu, fbs := fbs, calls := calls, now := now, clock := t0 } ∧
        t.trace = .cpuStepFailure :: .cpuStep :: outs ++
          bufs.reverse.flatMap (fun fb => [.render fb, .getFramebuffer]) ++
          .ppuStep r :: .cpuStep :: (Reference.iterations rs (s.log (.hostNow t0))).trace ∧
        (Reference.iterations (rs ++ [r]) (s.log (.hostNow t0))).trace =
          outs ++ .ppuStep r :: .cpuStep :: (Reference.iterations rs (s.log (.hostNow t0))).trace
end

