-- ==== Sys2Proof/Laws/State.lean ====
section
/-! SUPPORT. One lemma per field per update of State, so that no later proof unfolds a record update. -/

namespace Sys2Proof.Machine

variable (s : State)

@[simp] theorem State.raise_params (f : BlockFault) : (s.raise f).params = s.params := rfl
@[simp] theorem State.raise_timers (f : BlockFault) : (s.raise f).timers = s.timers := rfl
@[simp] theorem State.raise_ifr (f : BlockFault) : (s.raise f).ifr = s.ifr := rfl
@[simp] theorem State.raise_state (f : BlockFault) : (s.raise f).sched.state = s.sched.state := rfl
@[simp] theorem State.raise_pending (f : BlockFault) : (s.raise f).sched.pending = s.sched.pending := rfl
@[simp] theorem State.raise_acc (f : BlockFault) : (s.raise f).sched.acc = s.sched.acc := rfl
@[simp] theorem State.raise_targetFps (f : BlockFault) : (s.raise f).sched.targetFps = s.sched.targetFps := rfl
@[simp] theorem State.raise_interval (f : BlockFault) : (s.raise f).sched.interval = s.sched.interval := rfl
@[simp] theorem State.raise_frameCount (f : BlockFault) : (s.raise f).sched.frameCount = s.sched.frameCount := rfl
@[simp] theorem State.raise_measuredFps (f : BlockFault) : (s.raise f).sched.measuredFps = s.sched.measuredFps := rfl
@[simp] theorem State.raise_lastSampleTime (f : BlockFault) : (s.raise f).sched.lastSampleTime = s.sched.lastSampleTime := rfl
@[simp] theorem State.raise_frameStart (f : BlockFault) : (s.raise f).sched.frameStart = s.sched.frameStart := rfl
@[simp] theorem State.raise_busy (f : BlockFault) : (s.raise f).sched.busy = s.sched.busy := rfl
@[simp] theorem State.raise_fault (f : BlockFault) : (s.raise f).sched.fault = s.sched.fault.or (some f) := rfl
@[simp] theorem State.raise_env (f : BlockFault) : (s.raise f).env = s.env := rfl
@[simp] theorem State.raise_trace (f : BlockFault) : (s.raise f).trace = s.trace := rfl
@[simp] theorem State.raise_stuck (f : BlockFault) : (s.raise f).stuck = s.stuck := rfl

@[simp] theorem State.hang_params (c : Call) : (s.hang c).params = s.params := rfl
@[simp] theorem State.hang_timers (c : Call) : (s.hang c).timers = s.timers := rfl
@[simp] theorem State.hang_ifr (c : Call) : (s.hang c).ifr = s.ifr := rfl
@[simp] theorem State.hang_sched (c : Call) : (s.hang c).sched = s.sched := rfl
@[simp] theorem State.hang_env (c : Call) : (s.hang c).env = s.env := rfl
@[simp] theorem State.hang_trace (c : Call) : (s.hang c).trace = s.trace := rfl
@[simp] theorem State.hang_stuck (c : Call) : (s.hang c).stuck = s.stuck.or (some c) := rfl

@[simp] theorem State.log_params (o : Output) : (s.log o).params = s.params := rfl
@[simp] theorem State.log_timers (o : Output) : (s.log o).timers = s.timers := rfl
@[simp] theorem State.log_ifr (o : Output) : (s.log o).ifr = s.ifr := rfl
@[simp] theorem State.log_sched (o : Output) : (s.log o).sched = s.sched := rfl
@[simp] theorem State.log_env (o : Output) : (s.log o).env = s.env := rfl
@[simp] theorem State.log_trace (o : Output) : (s.log o).trace = o :: s.trace := rfl
@[simp] theorem State.log_stuck (o : Output) : (s.log o).stuck = s.stuck := rfl

@[simp] theorem State.setUnit_params (i : Unit4) (u : TimerUnit) : (s.setUnit i u).params = s.params := rfl
@[simp] theorem State.setUnit_timers (i : Unit4) (u : TimerUnit) : (s.setUnit i u).timers = s.timers.set i u := rfl
@[simp] theorem State.setUnit_ifr (i : Unit4) (u : TimerUnit) : (s.setUnit i u).ifr = s.ifr := rfl
@[simp] theorem State.setUnit_sched (i : Unit4) (u : TimerUnit) : (s.setUnit i u).sched = s.sched := rfl
@[simp] theorem State.setUnit_env (i : Unit4) (u : TimerUnit) : (s.setUnit i u).env = s.env := rfl
@[simp] theorem State.setUnit_trace (i : Unit4) (u : TimerUnit) : (s.setUnit i u).trace = s.trace := rfl
@[simp] theorem State.setUnit_stuck (i : Unit4) (u : TimerUnit) : (s.setUnit i u).stuck = s.stuck := rfl

@[simp] theorem State.setIf_params (v : Half) : (s.setIf v).params = s.params := rfl
@[simp] theorem State.setIf_timers (v : Half) : (s.setIf v).timers = s.timers := rfl
@[simp] theorem State.setIf_ifr (v : Half) : (s.setIf v).ifr = v := rfl
@[simp] theorem State.setIf_sched (v : Half) : (s.setIf v).sched = s.sched := rfl
@[simp] theorem State.setIf_env (v : Half) : (s.setIf v).env = s.env := rfl
@[simp] theorem State.setIf_trace (v : Half) : (s.setIf v).trace = s.trace := rfl
@[simp] theorem State.setIf_stuck (v : Half) : (s.setIf v).stuck = s.stuck := rfl

@[simp] theorem State.setState_params (v : SchedState) : (s.setState v).params = s.params := rfl
@[simp] theorem State.setState_timers (v : SchedState) : (s.setState v).timers = s.timers := rfl
@[simp] theorem State.setState_ifr (v : SchedState) : (s.setState v).ifr = s.ifr := rfl
@[simp] theorem State.setState_state (v : SchedState) : (s.setState v).sched.state = v := rfl
@[simp] theorem State.setState_pending (v : SchedState) : (s.setState v).sched.pending = s.sched.pending := rfl
@[simp] theorem State.setState_acc (v : SchedState) : (s.setState v).sched.acc = s.sched.acc := rfl
@[simp] theorem State.setState_targetFps (v : SchedState) : (s.setState v).sched.targetFps = s.sched.targetFps := rfl
@[simp] theorem State.setState_interval (v : SchedState) : (s.setState v).sched.interval = s.sched.interval := rfl
@[simp] theorem State.setState_frameCount (v : SchedState) : (s.setState v).sched.frameCount = s.sched.frameCount := rfl
@[simp] theorem State.setState_measuredFps (v : SchedState) : (s.setState v).sched.measuredFps = s.sched.measuredFps := rfl
@[simp] theorem State.setState_lastSampleTime (v : SchedState) : (s.setState v).sched.lastSampleTime = s.sched.lastSampleTime := rfl
@[simp] theorem State.setState_frameStart (v : SchedState) : (s.setState v).sched.frameStart = s.sched.frameStart := rfl
@[simp] theorem State.setState_busy (v : SchedState) : (s.setState v).sched.busy = s.sched.busy := rfl
@[simp] theorem State.setState_fault (v : SchedState) : (s.setState v).sched.fault = s.sched.fault := rfl
@[simp] theorem State.setState_env (v : SchedState) : (s.setState v).env = s.env := rfl
@[simp] theorem State.setState_trace (v : SchedState) : (s.setState v).trace = s.trace := rfl
@[simp] theorem State.setState_stuck (v : SchedState) : (s.setState v).stuck = s.stuck := rfl

@[simp] theorem State.setPending_params (v : Option Handle) : (s.setPending v).params = s.params := rfl
@[simp] theorem State.setPending_timers (v : Option Handle) : (s.setPending v).timers = s.timers := rfl
@[simp] theorem State.setPending_ifr (v : Option Handle) : (s.setPending v).ifr = s.ifr := rfl
@[simp] theorem State.setPending_state (v : Option Handle) : (s.setPending v).sched.state = s.sched.state := rfl
@[simp] theorem State.setPending_pending (v : Option Handle) : (s.setPending v).sched.pending = v := rfl
@[simp] theorem State.setPending_acc (v : Option Handle) : (s.setPending v).sched.acc = s.sched.acc := rfl
@[simp] theorem State.setPending_targetFps (v : Option Handle) : (s.setPending v).sched.targetFps = s.sched.targetFps := rfl
@[simp] theorem State.setPending_interval (v : Option Handle) : (s.setPending v).sched.interval = s.sched.interval := rfl
@[simp] theorem State.setPending_frameCount (v : Option Handle) : (s.setPending v).sched.frameCount = s.sched.frameCount := rfl
@[simp] theorem State.setPending_measuredFps (v : Option Handle) : (s.setPending v).sched.measuredFps = s.sched.measuredFps := rfl
@[simp] theorem State.setPending_lastSampleTime (v : Option Handle) : (s.setPending v).sched.lastSampleTime = s.sched.lastSampleTime := rfl
@[simp] theorem State.setPending_frameStart (v : Option Handle) : (s.setPending v).sched.frameStart = s.sched.frameStart := rfl
@[simp] theorem State.setPending_busy (v : Option Handle) : (s.setPending v).sched.busy = s.sched.busy := rfl
@[simp] theorem State.setPending_fault (v : Option Handle) : (s.setPending v).sched.fault = s.sched.fault := rfl
@[simp] theorem State.setPending_env (v : Option Handle) : (s.setPending v).env = s.env := rfl
@[simp] theorem State.setPending_trace (v : Option Handle) : (s.setPending v).trace = s.trace := rfl
@[simp] theorem State.setPending_stuck (v : Option Handle) : (s.setPending v).stuck = s.stuck := rfl

@[simp] theorem State.setAcc_params (v : Nat) : (s.setAcc v).params = s.params := rfl
@[simp] theorem State.setAcc_timers (v : Nat) : (s.setAcc v).timers = s.timers := rfl
@[simp] theorem State.setAcc_ifr (v : Nat) : (s.setAcc v).ifr = s.ifr := rfl
@[simp] theorem State.setAcc_state (v : Nat) : (s.setAcc v).sched.state = s.sched.state := rfl
@[simp] theorem State.setAcc_pending (v : Nat) : (s.setAcc v).sched.pending = s.sched.pending := rfl
@[simp] theorem State.setAcc_acc (v : Nat) : (s.setAcc v).sched.acc = v := rfl
@[simp] theorem State.setAcc_targetFps (v : Nat) : (s.setAcc v).sched.targetFps = s.sched.targetFps := rfl
@[simp] theorem State.setAcc_interval (v : Nat) : (s.setAcc v).sched.interval = s.sched.interval := rfl
@[simp] theorem State.setAcc_frameCount (v : Nat) : (s.setAcc v).sched.frameCount = s.sched.frameCount := rfl
@[simp] theorem State.setAcc_measuredFps (v : Nat) : (s.setAcc v).sched.measuredFps = s.sched.measuredFps := rfl
@[simp] theorem State.setAcc_lastSampleTime (v : Nat) : (s.setAcc v).sched.lastSampleTime = s.sched.lastSampleTime := rfl
@[simp] theorem State.setAcc_frameStart (v : Nat) : (s.setAcc v).sched.frameStart = s.sched.frameStart := rfl
@[simp] theorem State.setAcc_busy (v : Nat) : (s.setAcc v).sched.busy = s.sched.busy := rfl
@[simp] theorem State.setAcc_fault (v : Nat) : (s.setAcc v).sched.fault = s.sched.fault := rfl
@[simp] theorem State.setAcc_env (v : Nat) : (s.setAcc v).env = s.env := rfl
@[simp] theorem State.setAcc_trace (v : Nat) : (s.setAcc v).trace = s.trace := rfl
@[simp] theorem State.setAcc_stuck (v : Nat) : (s.setAcc v).stuck = s.stuck := rfl

@[simp] theorem State.setRate_params (n : Nat) : (s.setRate n).params = s.params := rfl
@[simp] theorem State.setRate_timers (n : Nat) : (s.setRate n).timers = s.timers := rfl
@[simp] theorem State.setRate_ifr (n : Nat) : (s.setRate n).ifr = s.ifr := rfl
@[simp] theorem State.setRate_state (n : Nat) : (s.setRate n).sched.state = s.sched.state := rfl
@[simp] theorem State.setRate_pending (n : Nat) : (s.setRate n).sched.pending = s.sched.pending := rfl
@[simp] theorem State.setRate_acc (n : Nat) : (s.setRate n).sched.acc = s.sched.acc := rfl
@[simp] theorem State.setRate_targetFps (n : Nat) : (s.setRate n).sched.targetFps = n := rfl
@[simp] theorem State.setRate_interval (n : Nat) : (s.setRate n).sched.interval = 1000 / (n : Ms) := rfl
@[simp] theorem State.setRate_frameCount (n : Nat) : (s.setRate n).sched.frameCount = s.sched.frameCount := rfl
@[simp] theorem State.setRate_measuredFps (n : Nat) : (s.setRate n).sched.measuredFps = s.sched.measuredFps := rfl
@[simp] theorem State.setRate_lastSampleTime (n : Nat) : (s.setRate n).sched.lastSampleTime = s.sched.lastSampleTime := rfl
@[simp] theorem State.setRate_frameStart (n : Nat) : (s.setRate n).sched.frameStart = s.sched.frameStart := rfl
@[simp] theorem State.setRate_busy (n : Nat) : (s.setRate n).sched.busy = s.sched.busy := rfl
@[simp] theorem State.setRate_fault (n : Nat) : (s.setRate n).sched.fault = s.sched.fault := rfl
@[simp] theorem State.setRate_env (n : Nat) : (s.setRate n).env = s.env := rfl
@[simp] theorem State.setRate_trace (n : Nat) : (s.setRate n).trace = s.trace := rfl
@[simp] theorem State.setRate_stuck (n : Nat) : (s.setRate n).stuck = s.stuck := rfl

@[simp] theorem State.setFrameStart_params (t : Ms) : (s.setFrameStart t).params = s.params := rfl
@[simp] theorem State.setFrameStart_timers (t : Ms) : (s.setFrameStart t).timers = s.timers := rfl
@[simp] theorem State.setFrameStart_ifr (t : Ms) : (s.setFrameStart t).ifr = s.ifr := rfl
@[simp] theorem State.setFrameStart_state (t : Ms) : (s.setFrameStart t).sched.state = s.sched.state := rfl
@[simp] theorem State.setFrameStart_pending (t : Ms) : (s.setFrameStart t).sched.pending = s.sched.pending := rfl
@[simp] theorem State.setFrameStart_acc (t : Ms) : (s.setFrameStart t).sched.acc = s.sched.acc := rfl
@[simp] theorem State.setFrameStart_targetFps (t : Ms) : (s.setFrameStart t).sched.targetFps = s.sched.targetFps := rfl
@[simp] theorem State.setFrameStart_interval (t : Ms) : (s.setFrameStart t).sched.interval = s.sched.interval := rfl
@[simp] theorem State.setFrameStart_frameCount (t : Ms) : (s.setFrameStart t).sched.frameCount = s.sched.frameCount := rfl
@[simp] theorem State.setFrameStart_measuredFps (t : Ms) : (s.setFrameStart t).sched.measuredFps = s.sched.measuredFps := rfl
@[simp] theorem State.setFrameStart_lastSampleTime (t : Ms) : (s.setFrameStart t).sched.lastSampleTime = s.sched.lastSampleTime := rfl
@[simp] theorem State.setFrameStart_frameStart (t : Ms) : (s.setFrameStart t).sched.frameStart = t := rfl
@[simp] theorem State.setFrameStart_busy (t : Ms) : (s.setFrameStart t).sched.busy = s.sched.busy := rfl
@[simp] theorem State.setFrameStart_fault (t : Ms) : (s.setFrameStart t).sched.fault = s.sched.fault := rfl
@[simp] theorem State.setFrameStart_env (t : Ms) : (s.setFrameStart t).env = s.env := rfl
@[simp] theorem State.setFrameStart_trace (t : Ms) : (s.setFrameStart t).trace = s.trace := rfl
@[simp] theorem State.setFrameStart_stuck (t : Ms) : (s.setFrameStart t).stuck = s.stuck := rfl

@[simp] theorem State.setBusy_params (b : Bool) : (s.setBusy b).params = s.params := rfl
@[simp] theorem State.setBusy_timers (b : Bool) : (s.setBusy b).timers = s.timers := rfl
@[simp] theorem State.setBusy_ifr (b : Bool) : (s.setBusy b).ifr = s.ifr := rfl
@[simp] theorem State.setBusy_state (b : Bool) : (s.setBusy b).sched.state = s.sched.state := rfl
@[simp] theorem State.setBusy_pending (b : Bool) : (s.setBusy b).sched.pending = s.sched.pending := rfl
@[simp] theorem State.setBusy_acc (b : Bool) : (s.setBusy b).sched.acc = s.sched.acc := rfl
@[simp] theorem State.setBusy_targetFps (b : Bool) : (s.setBusy b).sched.targetFps = s.sched.targetFps := rfl
@[simp] theorem State.setBusy_interval (b : Bool) : (s.setBusy b).sched.interval = s.sched.interval := rfl
@[simp] theorem State.setBusy_frameCount (b : Bool) : (s.setBusy b).sched.frameCount = s.sched.frameCount := rfl
@[simp] theorem State.setBusy_measuredFps (b : Bool) : (s.setBusy b).sched.measuredFps = s.sched.measuredFps := rfl
@[simp] theorem State.setBusy_lastSampleTime (b : Bool) : (s.setBusy b).sched.lastSampleTime = s.sched.lastSampleTime := rfl
@[simp] theorem State.setBusy_frameStart (b : Bool) : (s.setBusy b).sched.frameStart = s.sched.frameStart := rfl
@[simp] theorem State.setBusy_busy (b : Bool) : (s.setBusy b).sched.busy = b := rfl
@[simp] theorem State.setBusy_fault (b : Bool) : (s.setBusy b).sched.fault = s.sched.fault := rfl
@[simp] theorem State.setBusy_env (b : Bool) : (s.setBusy b).env = s.env := rfl
@[simp] theorem State.setBusy_trace (b : Bool) : (s.setBusy b).trace = s.trace := rfl
@[simp] theorem State.setBusy_stuck (b : Bool) : (s.setBusy b).stuck = s.stuck := rfl

@[simp] theorem State.clockTo_params (t : Ms) : (s.clockTo t).params = s.params := rfl
@[simp] theorem State.clockTo_timers (t : Ms) : (s.clockTo t).timers = s.timers := rfl
@[simp] theorem State.clockTo_ifr (t : Ms) : (s.clockTo t).ifr = s.ifr := rfl
@[simp] theorem State.clockTo_sched (t : Ms) : (s.clockTo t).sched = s.sched := rfl
@[simp] theorem State.clockTo_env (t : Ms) : (s.clockTo t).env = { s.env with clock := max s.env.clock t } := rfl
@[simp] theorem State.clockTo_trace (t : Ms) : (s.clockTo t).trace = s.trace := rfl
@[simp] theorem State.clockTo_stuck (t : Ms) : (s.clockTo t).stuck = s.stuck := rfl

@[simp] theorem State.withCmds_params (ws : List Cmd) : (s.withCmds ws).params = s.params := rfl
@[simp] theorem State.withCmds_timers (ws : List Cmd) : (s.withCmds ws).timers = s.timers := rfl
@[simp] theorem State.withCmds_ifr (ws : List Cmd) : (s.withCmds ws).ifr = s.ifr := rfl
@[simp] theorem State.withCmds_sched (ws : List Cmd) : (s.withCmds ws).sched = s.sched := rfl
@[simp] theorem State.withCmds_env (ws : List Cmd) : (s.withCmds ws).env = { s.env with cmds := ws } := rfl
@[simp] theorem State.withCmds_trace (ws : List Cmd) : (s.withCmds ws).trace = s.trace := rfl
@[simp] theorem State.withCmds_stuck (ws : List Cmd) : (s.withCmds ws).stuck = s.stuck := rfl

@[simp] theorem State.issued_params : s.issued.params = s.params := rfl
@[simp] theorem State.issued_timers : s.issued.timers = s.timers := rfl
@[simp] theorem State.issued_ifr : s.issued.ifr = s.ifr := rfl
@[simp] theorem State.issued_sched : s.issued.sched = s.sched := rfl
@[simp] theorem State.issued_trace : s.issued.trace = s.trace := rfl
@[simp] theorem State.issued_stuck : s.issued.stuck = s.stuck := rfl
@[simp] theorem State.issued_env : s.issued.env = { s.env with nextHandle := s.env.nextHandle + 1 } := rfl

@[simp] theorem State.countFrame_params : s.countFrame.params = s.params := rfl
@[simp] theorem State.countFrame_timers : s.countFrame.timers = s.timers := rfl
@[simp] theorem State.countFrame_ifr : s.countFrame.ifr = s.ifr := rfl
@[simp] theorem State.countFrame_env : s.countFrame.env = s.env := rfl
@[simp] theorem State.countFrame_trace : s.countFrame.trace = s.trace := rfl
@[simp] theorem State.countFrame_stuck : s.countFrame.stuck = s.stuck := rfl
@[simp] theorem State.countFrame_sched : s.countFrame.sched = { s.sched with frameCount := s.sched.frameCount + 1 } := rfl

@[simp] theorem State.setSample_params (t : Ms) : (s.setSample t).params = s.params := rfl
@[simp] theorem State.setSample_timers (t : Ms) : (s.setSample t).timers = s.timers := rfl
@[simp] theorem State.setSample_ifr (t : Ms) : (s.setSample t).ifr = s.ifr := rfl
@[simp] theorem State.setSample_env (t : Ms) : (s.setSample t).env = s.env := rfl
@[simp] theorem State.setSample_trace (t : Ms) : (s.setSample t).trace = s.trace := rfl
@[simp] theorem State.setSample_stuck (t : Ms) : (s.setSample t).stuck = s.stuck := rfl
@[simp] theorem State.setSample_sched (t : Ms) : (s.setSample t).sched = s.sched.sample t := rfl

end Sys2Proof.Machine
end

