-- ==== Sys2Proof/Laws/Ops.lean ====
section
/-! SUPPORT. What each shared operation can do, said once: sequencing, commands, the outside world's answers, the host's
primitives. -/

namespace Sys2Proof.Machine

/-! ### Live states and sequencing -/

theorem live_iff (s : State) : s.live = true ↔ s.sched.fault = none ∧ s.stuck = none := by
  simp [State.live]

@[simp] theorem raise_live (s : State) (f : BlockFault) : (s.raise f).live = false := by
  simp only [State.live, State.raise_fault, State.raise_stuck]
  cases s.sched.fault <;> rfl

@[simp] theorem hang_live (s : State) (c : Call) : (s.hang c).live = false := by
  simp only [State.live, State.hang_sched, State.hang_stuck]
  cases s.stuck <;> simp

theorem andThen_of_live {s : State} (h : s.live = true) (k : State → State) : s.andThen k = k s := by
  simp [State.andThen, h]

theorem andThen_of_not_live {s : State} (h : s.live = false) (k : State → State) : s.andThen k = s := by
  simp [State.andThen, h]

/-- `andThen` is the continuation or nothing. -/
theorem andThen_cases (s : State) (k : State → State) :
    (s.live = true ∧ s.andThen k = k s) ∨ (s.live = false ∧ s.andThen k = s) := by
  cases h : s.live
  · exact .inr ⟨rfl, andThen_of_not_live h k⟩
  · exact .inl ⟨rfl, andThen_of_live h k⟩

/-- A property of `s` that `k` keeps holds after `s.andThen k`. -/
theorem andThen_keeps {P : State → Prop} {s : State} {k : State → State} (hs : P s)
    (hk : s.live = true → P s → P (k s)) : P (s.andThen k) := by
  obtain ⟨hl, he⟩ | ⟨_, he⟩ := andThen_cases s k <;> rw [he]
  exacts [hk hl hs, hs]

/-- A property that each element's operation keeps holds after the whole list. -/
theorem foldl_keeps {α : Type} {P : State → Prop} {f : State → α → State} (hf : ∀ s a, P s → P (f s a)) :
    ∀ (l : List α) (s : State), P s → P (l.foldl f s)
  | [], _, hs => hs
  | a :: l, s, hs => foldl_keeps hf l (f s a) (hf s a hs)

/-! ### Commands -/

/-- A command in a live state runs its operation. -/
theorem command_of_live {s : State} (h : s.live = true) (f : State → State) : command f s = .next (f s) := by
  obtain ⟨hf, hs⟩ := (live_iff s).mp h
  simp [command, hf, hs]

/-- After a fault a command has no effect. -/
theorem command_of_fault {s : State} (hs : s.stuck = none) (hf : s.sched.fault ≠ none) (f : State → State) :
    command f s = .next s := by
  simp [command, hs, Option.isNone_iff_eq_none, hf]

/-- All a command can do when it answers a next state. -/
theorem command_next_cases {f : State → State} {s t : State} (h : command f s = .next t) :
    (s.live = true ∧ t = f s) ∨ (s.sched.fault ≠ none ∧ t = s) := by
  unfold command at h
  split at h
  · cases h
  · rename_i hs
    cases hf : s.sched.fault with
    | none => simp [hf] at h; exact .inl ⟨(live_iff s).mpr ⟨hf, hs⟩, h.symm⟩
    | some g => simp [hf] at h; exact .inr ⟨by simp, h.symm⟩

theorem unlessBusy_of_idle {s : State} (h : s.sched.busy = false) (op : Byte) (f : State → State) :
    unlessBusy op f s = f s := by
  simp [unlessBusy, h]

theorem unlessBusy_of_busy {s : State} (h : s.sched.busy = true) (op : Byte) (f : State → State) :
    unlessBusy op f s = s.raise (.reentrantCommand op) := by
  simp [unlessBusy, h]

/-- Raising the first fault. -/
theorem raise_of_live {s : State} (h : s.live = true) (f : BlockFault) :
    s.raise f = { s with sched := { s.sched with fault := some f } } := by
  simp [State.raise, ((live_iff s).mp h).1]

/-- Every command is `command` of one operation. -/
theorem exec_eq_command (i : Instr) : ∃ f : State → State, ∀ s, exec i s = command f s := by
  cases i <;> exact ⟨_, fun _ => rfl⟩

/-! ### Register reads after register writes -/

@[simp] theorem setUnit_unit_same (s : State) (i : Unit4) (u : TimerUnit) : (s.setUnit i u).unit i = u := by
  simp [State.unit]

theorem setUnit_unit_other (s : State) {i j : Unit4} (h : i ≠ j) (u : TimerUnit) :
    (s.setUnit i u).unit j = s.unit j := by
  simp [State.unit, Fin.val_ne_of_ne h]

theorem unit_of_timers {s t : State} (h : s.timers = t.timers) (i : Unit4) : s.unit i = t.unit i := by
  simp [State.unit, h]

/-! ### The outside world's answers: an answer is taken, and nothing but its list (or the draw counter) changes -/

/-- The part of the outside world that taking an answer leaves alone, and everything else. -/
structure SameButAnswers (s t : State) : Prop where
  params : t.params = s.params
  timers : t.timers = s.timers
  ifr : t.ifr = s.ifr
  sched : t.sched = s.sched
  trace : t.trace = s.trace
  stuck : t.stuck = s.stuck
  cmds : t.env.cmds = s.env.cmds
  clock : t.env.clock = s.env.clock
  nextHandle : t.env.nextHandle = s.env.nextHandle
  draws : s.env.draws ≤ t.env.draws

theorem takeCpu_same (s : State) : SameButAnswers s s.takeCpu.2 := by
  unfold State.takeCpu; split <;> constructor <;> simp

theorem takePpu_same (s : State) : SameButAnswers s s.takePpu.2 := by
  unfold State.takePpu; split <;> constructor <;> simp

theorem takeFb_same (s : State) : SameButAnswers s s.takeFb.2 := by
  unfold State.takeFb; split <;> constructor <;> simp

theorem takeCall_same (s : State) : SameButAnswers s s.takeCall.2 := by
  unfold State.takeCall; split <;> constructor <;> simp

theorem takeHost_same (s : State) : SameButAnswers s s.takeHost.2 := by
  unfold State.takeHost; split <;> constructor <;> simp

theorem takeNow_same (s : State) : SameButAnswers s s.takeNow.2 := by
  unfold State.takeNow; split <;> constructor <;> simp

theorem SameButAnswers.live {s t : State} (h : SameButAnswers s t) : t.live = s.live := by
  simp [State.live, h.sched, h.stuck]

/-- A scripted answer is the one taken. -/
theorem takeCpu_cons {s : State} {a : CpuAnswer} {l : List CpuAnswer} (h : s.env.cpu = a :: l) :
    s.takeCpu = (a, { s with env := { s.env with cpu := l } }) := by
  simp [State.takeCpu, h]

theorem takePpu_cons {s : State} {a : PpuAnswer} {l : List PpuAnswer} (h : s.env.ppu = a :: l) :
    s.takePpu = (a, { s with env := { s.env with ppu := l } }) := by
  simp [State.takePpu, h]

theorem takeFb_cons {s : State} {a : FbAnswer} {l : List FbAnswer} (h : s.env.fbs = a :: l) :
    s.takeFb = (a, { s with env := { s.env with fbs := l } }) := by
  simp [State.takeFb, h]

theorem takeCall_cons {s : State} {a : CallAnswer} {l : List CallAnswer} (h : s.env.calls = a :: l) :
    s.takeCall = (a, { s with env := { s.env with calls := l } }) := by
  simp [State.takeCall, h]

theorem takeHost_cons {s : State} {a : Reply} {l : List Reply} (h : s.env.host = a :: l) :
    s.takeHost = (a, { s with env := { s.env with host := l } }) := by
  simp [State.takeHost, h]

theorem takeNow_cons {s : State} {a : NowAnswer} {l : List NowAnswer} (h : s.env.now = a :: l) :
    s.takeNow = (a, { s with env := { s.env with now := l } }) := by
  simp [State.takeNow, h]

@[simp] theorem onReply_ok (s : State) (c : Call) : s.onReply c .ok = s := rfl

@[simp] theorem onReply_fail (s : State) (c : Call) : s.onReply c .fail = s.raise (.collaboratorFailure c) := rfl

@[simp] theorem onReply_never (s : State) (c : Call) : s.onReply c .never = s.hang c := rfl

/-- A call goes on with the state as it is, or it has stopped the operation. -/
theorem onReply_cases (s : State) (c : Call) (r : Reply) :
    s.onReply c r = s ∨ s.onReply c r = s.raise (.collaboratorFailure c) ∨ s.onReply c r = s.hang c := by
  cases r <;> simp

/-! ### The host's primitives when the host answers -/

/-- A scripted reading that is no earlier than the last one. -/
theorem hostNow_reads {s : State} {t : Ms} {l : List NowAnswer} (h : s.env.now = .reads t :: l)
    (ht : s.env.clock ≤ t) :
    s.hostNow = (t, { s with env := { s.env with now := l, clock := t }, trace := .hostNow t :: s.trace }) := by
  simp [State.hostNow, takeNow_cons h, State.clockTo, State.log, max_eq_right ht]

/-- A reading that never comes. -/
theorem hostNow_never {s : State} {l : List NowAnswer} (h : s.env.now = .never :: l) :
    s.hostNow = (s.env.clock, { s with env := { s.env with now := l }, stuck := s.stuck.or (some .hostNow) }) := by
  simp [State.hostNow, takeNow_cons h, State.hang]

/-- A call of the host that fails. -/
theorem hostCall_fail {s : State} {l : List Reply} (c : Call) (o : Output) (hl : s.live = true)
    (h : s.env.host = .fail :: l) :
    hostCall c o s = { s with
      sched := { s.sched with fault := some (.collaboratorFailure c) }
      env := { s.env with host := l }
      trace := o :: s.trace } := by
  rw [hostCall, takeHost_cons (s := s.log o) h]
  exact raise_of_live (by exact hl) _

/-- A call of the host that fails leaves nothing to go on with. -/
theorem hostCall_fail_live {s : State} {l : List Reply} (c : Call) (o : Output) (h : s.env.host = .fail :: l) :
    (hostCall c o s).live = false := by
  rw [hostCall, takeHost_cons (s := s.log o) h]
  exact raise_live _ _

/-- A schedule call that fails. -/
theorem schedule_fail {s : State} {l : List Reply} (delay : Ms) (hl : s.live = true) (h : s.env.host = .fail :: l) :
    s.schedule delay = { s with
      sched := { s.sched with fault := some (.collaboratorFailure .hostSchedule) }
      env := { s.env with host := l }
      trace := .hostSchedule s.env.nextHandle delay :: s.trace } := by
  rw [State.schedule, andThen_of_not_live (hostCall_fail_live _ _ h), hostCall_fail _ _ hl h]

/-- A cancel call that fails. -/
theorem cancelPending_fail {s : State} {k : Handle} {l : List Reply} (hl : s.live = true)
    (hp : s.sched.pending = some k) (h : s.env.host = .fail :: l) :
    s.cancelPending = { s with
      sched := { s.sched with fault := some (.collaboratorFailure .hostCancel) }
      env := { s.env with host := l }
      trace := .hostCancel k.num :: s.trace } := by
  have he : s.cancelPending =
      (hostCall .hostCancel (.hostCancel k.num) s).andThen fun s1 => s1.setPending none := by simp [State.cancelPending, hp]
  rw [he, andThen_of_not_live (hostCall_fail_live _ _ h), hostCall_fail _ _ hl h]

/-- A schedule call that returns. -/
theorem schedule_ok {s : State} {l : List Reply} (delay : Ms) (hl : s.live = true) (h : s.env.host = .ok :: l) :
    s.schedule delay = { s with
      sched := { s.sched with pending := some (s.freshHandle delay) }
      env := { s.env with host := l, nextHandle := s.env.nextHandle + 1 }
      trace := .hostSchedule s.env.nextHandle delay :: s.trace } := by
  obtain ⟨hf, hs⟩ := (live_iff s).mp hl
  simp [State.schedule, hostCall, State.takeHost, State.log, h, State.andThen, State.live, hf, hs, State.setPending,
    State.issued]

/-- A cancel call that returns. -/
theorem cancelPending_ok {s : State} {k : Handle} {l : List Reply} (hl : s.live = true) (hp : s.sched.pending = some k)
    (h : s.env.host = .ok :: l) :
    s.cancelPending = { s with
      sched := { s.sched with pending := none }
      env := { s.env with host := l }
      trace := .hostCancel k.num :: s.trace } := by
  obtain ⟨hf, hs⟩ := (live_iff s).mp hl
  simp [State.cancelPending, hp, hostCall, State.takeHost, State.log, h, State.andThen, State.live, hf, hs,
    State.setPending]

theorem cancelPending_none {s : State} (hp : s.sched.pending = none) : s.cancelPending = s := by
  simp [State.cancelPending, hp]

/-! ### Sequencing of nested commands -/

@[simp] theorem nestedAll_nil (s : State) : nestedAll [] s = s := rfl

theorem nestedAll_cons (w : Cmd) (ws : List Cmd) (s : State) :
    nestedAll (w :: ws) s = nestedAll ws (s.andThen (nestedWord w)) := rfl

@[simp] theorem ppuActs_nil (s : State) : ppuActs [] s = s := rfl

theorem ppuActs_cons (a : PpuAct) (as : List PpuAct) (s : State) :
    ppuActs (a :: as) s = ppuActs as (s.andThen (ppuAct a)) := rfl

/-- Once stopped, no further nested command runs. -/
theorem nestedAll_of_not_live (ws : List Cmd) {s : State} (h : s.live = false) : nestedAll ws s = s := by
  induction ws with
  | nil => rfl
  | cons w ws ih => rw [nestedAll_cons, andThen_of_not_live h, ih]

/-! ### Collaborator calls with a scripted answer -/

theorem cpuStep_scripted {s : State} {ws : List Cmd} {res : CpuResult} {l : List CpuAnswer}
    (h : s.env.cpu = ⟨ws, res⟩ :: l) :
    cpuStep s = (res, nestedAll ws { s with env := { s.env with cpu := l }, trace := .cpuStep :: s.trace }) := by
  rw [cpuStep, takeCpu_cons (s := s.log .cpuStep) h]; rfl

/-- A PPU step that does nothing to the block and returns. -/
theorem ppuStep_ok {s : State} {r : Nat} {l : List PpuAnswer} (hl : s.live = true) (h : s.env.ppu = ⟨[], .ok⟩ :: l) :
    ppuStep r s = { s with env := { s.env with ppu := l }, trace := .ppuStep r :: s.trace } := by
  rw [ppuStep, takePpu_cons (s := s.log (.ppuStep r)) h]
  simp only [ppuActs_nil]
  rw [andThen_of_live (by exact hl)]
  rfl

/-- A PPU step that does nothing to the block and fails. -/
theorem ppuStep_fail {s : State} {r : Nat} {l : List PpuAnswer} (hl : s.live = true) (h : s.env.ppu = ⟨[], .fail⟩ :: l) :
    ppuStep r s = { s with
      sched := { s.sched with fault := some (.collaboratorFailure .ppuStep) }
      env := { s.env with ppu := l }
      trace := .ppuStep r :: s.trace } := by
  rw [ppuStep, takePpu_cons (s := s.log (.ppuStep r)) h]
  simp only [ppuActs_nil]
  rw [andThen_of_live (by exact hl)]
  exact raise_of_live (by exact hl) _

/-- A reset or `render` that does nothing to the block and fails. -/
theorem collabCall_fail {s : State} {c : Call} {o : Output} {l : List CallAnswer} (hl : s.live = true)
    (h : s.env.calls = ⟨[], .fail⟩ :: l) :
    collabCall c o s = { s with
      sched := { s.sched with fault := some (.collaboratorFailure c) }
      env := { s.env with calls := l }
      trace := o :: s.trace } := by
  rw [collabCall, takeCall_cons (s := s.log o) h]
  simp only [nestedAll_nil]
  rw [andThen_of_live (by exact hl)]
  exact raise_of_live (by exact hl) _

/-- A `getFramebuffer` in which the PPU issues no command. -/
theorem getFramebuffer_scripted {s : State} {res : FbResult} {l : List FbAnswer} (h : s.env.fbs = ⟨[], res⟩ :: l) :
    getFramebuffer s = (res, { s with env := { s.env with fbs := l }, trace := .getFramebuffer :: s.trace }) := by
  rw [getFramebuffer, takeFb_cons (s := s.log .getFramebuffer) h]; rfl

/-- A `getFramebuffer` that fails: nothing is rendered. -/
theorem frameComplete_fail {s : State} {l : List FbAnswer} (hl : s.live = true) (h : s.env.fbs = ⟨[], .fail⟩ :: l) :
    frameComplete s = { s with
      sched := { s.sched with fault := some (.collaboratorFailure .getFramebuffer) }
      env := { s.env with fbs := l }
      trace := .getFramebuffer :: s.trace } := by
  rw [frameComplete, getFramebuffer_scripted h, afterFramebuffer, andThen_of_live (by exact hl)]
  exact raise_of_live (by exact hl) _

/-- A buffer obtained is the buffer rendered. -/
theorem frameComplete_buffer {s : State} {fb : Framebuffer} {l : List FbAnswer} (hl : s.live = true)
    (h : s.env.fbs = ⟨[], .buffer fb⟩ :: l) :
    frameComplete s = render fb { s with env := { s.env with fbs := l }, trace := .getFramebuffer :: s.trace } := by
  rw [frameComplete, getFramebuffer_scripted h, afterFramebuffer, andThen_of_live (by exact hl)]

/-- A reset or `render` that does nothing to the block and returns. -/
theorem collabCall_ok {s : State} {c : Call} {o : Output} {l : List CallAnswer} (hl : s.live = true)
    (h : s.env.calls = ⟨[], .ok⟩ :: l) :
    collabCall c o s = { s with env := { s.env with calls := l }, trace := o :: s.trace } := by
  rw [collabCall, takeCall_cons (s := s.log o) h]
  simp only [nestedAll_nil]
  rw [andThen_of_live (by exact hl)]
  rfl

theorem frameComplete_ok {s : State} {fb : Framebuffer} {m : List FbAnswer} {l : List CallAnswer} (hl : s.live = true)
    (hf : s.env.fbs = ⟨[], .buffer fb⟩ :: m) (h : s.env.calls = ⟨[], .ok⟩ :: l) :
    frameComplete s = { s with
      env := { s.env with fbs := m, calls := l }
      trace := .render fb :: .getFramebuffer :: s.trace } := by
  rw [frameComplete_buffer hl hf]
  exact collabCall_ok (by exact hl) (by exact h)

end Sys2Proof.Machine
end

