-- ==== Sys2Proof/Laws/Timer.lean ====
section
/-! SUPPORT. What the timer operations can do: INC and TSTEP write only the timers' counters, the interrupt flags and the
output log, and they do not depend on the scheduler or the outside world. -/

namespace Sys2Proof.Machine

/-! ### IFSet -/

@[simp] theorem ifSet_params (k : Nat) (s : State) : (ifSet k s).params = s.params := rfl
@[simp] theorem ifSet_timers (k : Nat) (s : State) : (ifSet k s).timers = s.timers := rfl
@[simp] theorem ifSet_ifr (k : Nat) (s : State) : (ifSet k s).ifr = ifWithBit s.ifr k := rfl
@[simp] theorem ifSet_sched (k : Nat) (s : State) : (ifSet k s).sched = s.sched := rfl
@[simp] theorem ifSet_env (k : Nat) (s : State) : (ifSet k s).env = s.env := rfl
@[simp] theorem ifSet_stuck (k : Nat) (s : State) : (ifSet k s).stuck = s.stuck := rfl
@[simp] theorem ifSet_trace (k : Nat) (s : State) :
    (ifSet k s).trace = .ifWrite (ifWithBit s.ifr k) :: .ifRead s.ifr :: s.trace := rfl
@[simp] theorem ifSet_unit (k : Nat) (s : State) (i : Unit4) : (ifSet k s).unit i = s.unit i := rfl

/-- Bit `b` of `IF` after bit `k` is set. -/
theorem ifWithBit_getLsbD (v : Half) {k : Nat} (hk : k < 16) (b : Nat) :
    (ifWithBit v k).getLsbD b = (v.getLsbD b || decide (b = k)) := by
  simp only [ifWithBit, BitVec.getLsbD_or, BitVec.getLsbD_shiftLeft, BitVec.getLsbD_one]
  by_cases hb : b = k
  · subst hb; simp [hk]
  · have : b < k ∨ b - k ≠ 0 := by omega
    rcases this with h | h <;> simp [h, hb]

/-! ### Parts of a state the timers neither read nor write -/

/-- `s` with the scheduler, the outside world and the hang of another state. -/
def State.around (s : State) (c : Scheduler) (e : Env) (h : Option Call) : State :=
  { s with sched := c, env := e, stuck := h }

@[simp] theorem around_self (s : State) : s.around s.sched s.env s.stuck = s := rfl

@[simp] theorem around_unit (s : State) (c : Scheduler) (e : Env) (h : Option Call) (i : Unit4) :
    (s.around c e h).unit i = s.unit i := rfl

theorem bump_around (i : Unit4) (n : Nat) (s : State) (c : Scheduler) (e : Env) (h : Option Call) :
    bump i n (s.around c e h) = (bump i n s).around c e h := by
  by_cases hc : (s.unit i).overflows n && ctlIrq s.params (s.unit i).control
  · have hc' : (((s.around c e h).unit i).overflows n &&
        ctlIrq (s.around c e h).params ((s.around c e h).unit i).control) = true := hc
    rw [bump, bump, if_pos hc, if_pos hc']; rfl
  · have hc' : ¬ (((s.around c e h).unit i).overflows n &&
        ctlIrq (s.around c e h).params ((s.around c e h).unit i).control) = true := hc
    rw [bump, bump, if_neg hc, if_neg hc']; rfl

theorem incAlong_around : ∀ (is : List Unit4) (n : Nat) (s : State) (c : Scheduler) (e : Env) (h : Option Call),
    incAlong is n (s.around c e h) = (incAlong is n s).around c e h
  | [], _, _, _, _, _ => rfl
  | [i], n, s, c, e, h => bump_around i n s c e h
  | i :: j :: js, n, s, c, e, h => by
    rw [incAlong, incAlong, bump_around, around_unit, around_unit, incAlong_around (j :: js)]
    split <;> rfl

theorem visit_around (el : Nat) (s : State) (i : Unit4) (c : Scheduler) (e : Env) (h : Option Call) :
    visit el (s.around c e h) i = (visit el s i).around c e h := by
  rw [visit, visit, around_unit]
  split
  · rfl
  · split
    · rfl
    · exact incAlong_around _ _ _ _ _ _

/-- TSTEP neither reads nor writes the scheduler, the outside world or a hang. -/
theorem timerStep_around (el : Nat) (s : State) (c : Scheduler) (e : Env) (h : Option Call) :
    timerStep el (s.around c e h) = (timerStep el s).around c e h := by
  simp only [timerStep, List.foldl, visit_around]

@[simp] theorem timerStep_sched (el : Nat) (s : State) : (timerStep el s).sched = s.sched := by
  rw [← around_self s, timerStep_around]; rfl

@[simp] theorem timerStep_env (el : Nat) (s : State) : (timerStep el s).env = s.env := by
  rw [← around_self s, timerStep_around]; rfl

@[simp] theorem timerStep_stuck (el : Nat) (s : State) : (timerStep el s).stuck = s.stuck := by
  rw [← around_self s, timerStep_around]; rfl

@[simp] theorem timerStep_live (el : Nat) (s : State) : (timerStep el s).live = s.live := by
  simp [State.live]

/-! ### A property kept by a unit's count and by IFSet is kept by TSTEP -/

theorem bump_keeps {P : State → Prop} (hu : ∀ s i n, P s → P (s.setUnit i ((s.unit i).count n)))
    (hi : ∀ s k, P s → P (ifSet k s)) (i : Unit4) (n : Nat) (s : State) (h : P s) : P (bump i n s) := by
  unfold bump
  split
  · exact hi _ _ (hu s i n h)
  · exact hu s i n h

theorem incAlong_keeps {P : State → Prop} (hu : ∀ s i n, P s → P (s.setUnit i ((s.unit i).count n)))
    (hi : ∀ s k, P s → P (ifSet k s)) :
    ∀ (is : List Unit4) (n : Nat) (s : State), P s → P (incAlong is n s)
  | [], _, _, h => h
  | [i], n, s, h => bump_keeps hu hi i n s h
  | i :: j :: js, n, s, h => by
    have hb := bump_keeps hu hi i n s h
    rw [incAlong]
    split
    · exact incAlong_keeps hu hi (j :: js) 1 _ hb
    · exact hb

theorem timerStep_keeps {P : State → Prop} (hu : ∀ s i n, P s → P (s.setUnit i ((s.unit i).count n)))
    (hi : ∀ s k, P s → P (ifSet k s)) (el : Nat) (s : State) (h : P s) : P (timerStep el s) := by
  refine foldl_keeps (fun s1 i h1 => ?_) _ s h
  unfold visit
  split
  · exact h1
  · split
    · exact h1
    · exact incAlong_keeps hu hi _ _ _ h1

@[simp] theorem timerStep_params (el : Nat) (s : State) : (timerStep el s).params = s.params :=
  timerStep_keeps (P := fun t => t.params = s.params) (fun _ _ _ h => h) (fun _ _ h => h) el s rfl

/-! ### The units -/

@[simp] theorem count_reload (u : TimerUnit) (n : Nat) : (u.count n).reload = u.reload := by
  unfold TimerUnit.count; split <;> rfl

@[simp] theorem count_control (u : TimerUnit) (n : Nat) : (u.count n).control = u.control := by
  unfold TimerUnit.count; split <;> rfl

theorem count_of_fits {u : TimerUnit} {n : Nat} (h : u.counter.toNat + n ≤ 0xFFFF) :
    (u.count n).counter.toNat = u.counter.toNat + n := by
  simp only [TimerUnit.count, if_pos h, BitVec.toNat_ofNat]
  omega

theorem count_of_overflow {u : TimerUnit} {n : Nat} (h : 0xFFFF < u.counter.toNat + n) :
    (u.count n).counter = u.reload := by
  simp [TimerUnit.count, Nat.not_le.mpr h]

/-- A unit keeps its reload and its control when a count is stored in any unit. -/
theorem setUnit_count_fields (s : State) (i j : Unit4) (n : Nat) :
    ((s.setUnit i ((s.unit i).count n)).unit j).reload = (s.unit j).reload ∧
      ((s.setUnit i ((s.unit i).count n)).unit j).control = (s.unit j).control := by
  by_cases h : i = j
  · subst h; simp
  · simp [setUnit_unit_other s h]

/-- TSTEP writes no reload and no control. -/
theorem timerStep_fields (el : Nat) (s : State) (j : Unit4) :
    ((timerStep el s).unit j).reload = (s.unit j).reload ∧ ((timerStep el s).unit j).control = (s.unit j).control :=
  timerStep_keeps (P := fun t => (t.unit j).reload = (s.unit j).reload ∧ (t.unit j).control = (s.unit j).control)
    (fun t i n h => by rw [(setUnit_count_fields t i j n).1, (setUnit_count_fields t i j n).2]; exact h)
    (fun _ _ h => h) el s ⟨rfl, rfl⟩

@[simp] theorem bump_unit_same (i : Unit4) (n : Nat) (s : State) : (bump i n s).unit i = (s.unit i).count n := by
  unfold bump; split <;> simp

theorem bump_unit_other {i j : Unit4} (h : i ≠ j) (n : Nat) (s : State) : (bump i n s).unit j = s.unit j := by
  unfold bump; split <;> simp [setUnit_unit_other s h]

@[simp] theorem bump_params (i : Unit4) (n : Nat) (s : State) : (bump i n s).params = s.params := by
  unfold bump; split <;> rfl

/-- INC leaves a unit alone that is not on its way. -/
theorem incAlong_unit_absent {j : Unit4} : ∀ (is : List Unit4), j ∉ is → ∀ (n : Nat) (s : State),
    (incAlong is n s).unit j = s.unit j
  | [], _, _, _ => rfl
  | [i], h, n, s => bump_unit_other (by rintro rfl; simp at h) n s
  | i :: k :: ks, h, n, s => by
    have hb := bump_unit_other (i := i) (j := j) (by rintro rfl; simp at h) n s
    rw [incAlong]
    split
    · rw [incAlong_unit_absent (k :: ks) (fun hk => h (.tail _ hk)) 1 _, hb]
    · exact hb

/-- A cascade changes no unit that does not take cascades. -/
theorem incAlong_unit_tail {j : Unit4} (is : List Unit4) (i : Unit4) (n : Nat) (s : State) (hij : i ≠ j)
    (hnd : (i :: is).Nodup) (hj : (s.unit j).cascades = false) : (incAlong (i :: is) n s).unit j = s.unit j := by
  induction is generalizing i n s with
  | nil => exact bump_unit_other hij n s
  | cons k ks ih =>
    have hb := bump_unit_other hij n s
    rw [incAlong]
    split
    · rename_i hc
      have hk : k ≠ j := by
        rintro rfl
        simp [hb, hj] at hc
      rw [ih k 1 _ hk (List.nodup_cons.mp hnd).2 (by rw [hb]; exact hj), hb]
    · exact hb

/-- What the part of INC that touches unit `i` alone does to `IF`. -/
theorem bump_ifr (i : Unit4) (n : Nat) (s : State) (b : Nat) :
    (bump i n s).ifr.getLsbD b =
      (s.ifr.getLsbD b ||
        (decide (b = 3 + i.val) && ((s.unit i).overflows n && ctlIrq s.params (s.unit i).control))) := by
  unfold bump
  split
  · rename_i h
    rw [ifSet_ifr, State.setUnit_ifr, ifWithBit_getLsbD _ (by unfold ifBit; omega), h, Bool.and_true]
    rfl
  · rename_i h
    rw [State.setUnit_ifr, Bool.eq_false_iff.mpr h]
    simp

/-! ### The way of a cascade -/

theorem unitsFrom_cons (i : Unit4) : ∃ is, unitsFrom i = i :: is ∧ i ∉ is := by
  fin_cases i <;> exact ⟨_, rfl, by decide⟩

theorem unitsFrom_next {i j : Unit4} (h : j.val = i.val + 1) : ∃ is, unitsFrom i = i :: j :: is ∧ unitsFrom j = j :: is := by
  revert h; fin_cases i <;> fin_cases j <;> simp [unitsFrom]

/-- INC counts its own unit once. -/
theorem inc_unit_self (i : Unit4) (n : Nat) (s : State) : (inc i n s).unit i = (s.unit i).count n := by
  obtain ⟨is, his, hn⟩ := unitsFrom_cons i
  rw [inc, his]
  cases is with
  | nil => simp [incAlong]
  | cons j js =>
    rw [incAlong]
    split
    · rw [incAlong_unit_absent _ hn]; simp
    · simp

/-- INC counts a cascading successor once where its own unit overflows, and not otherwise. -/
theorem inc_unit_next {s : State} {i j : Unit4} (hj : j.val = i.val + 1) (n : Nat) (hc : (s.unit j).cascades = true) :
    (inc i n s).unit j = if (s.unit i).overflows n then (s.unit j).count 1 else s.unit j := by
  obtain ⟨js, h1, h2⟩ := unitsFrom_next hj
  have hb : (bump i n s).unit j = s.unit j := bump_unit_other (by rintro rfl; omega) n s
  rw [inc, h1, incAlong, hb, hc, Bool.and_true]
  split
  · rw [← h2]
    exact (inc_unit_self j 1 _).trans (by rw [hb])
  · exact hb

/-- TSTEP's visit of a unit leaves a unit alone that takes no cascades or comes earlier. -/
theorem visit_unit_other {el : Nat} {s : State} {i j : Unit4} (hj : (s.unit j).cascades = false ∨ j.val < i.val)
    (hij : i ≠ j) : (visit el s i).unit j = s.unit j := by
  unfold visit
  split
  · rfl
  split
  · rfl
  rcases hj with hj | hj
  · obtain ⟨is, his, _⟩ := unitsFrom_cons i
    have hnd : (unitsFrom i).Nodup := by clear * -; revert i; decide
    rw [inc, his]
    exact incAlong_unit_tail is i _ s hij (his ▸ hnd) hj
  · exact incAlong_unit_absent _ (by clear * - hj; revert i j; decide) _ _

/-- TSTEP's visits write no reload, no control and no parameter. -/
theorem visit_fields (el : Nat) (s : State) (i j : Unit4) :
    ((visit el s i).unit j).control = (s.unit j).control ∧ ((visit el s i).unit j).reload = (s.unit j).reload ∧
      (visit el s i).params = s.params := by
  have h := incAlong_keeps
    (P := fun t => (t.unit j).control = (s.unit j).control ∧ (t.unit j).reload = (s.unit j).reload ∧
      t.params = s.params)
    (fun t k n h => by rw [(setUnit_count_fields t k j n).1, (setUnit_count_fields t k j n).2]; exact h) (fun _ _ h => h)
  unfold visit
  split
  · exact ⟨rfl, rfl, rfl⟩
  split
  exacts [⟨rfl, rfl, rfl⟩, h _ _ _ ⟨rfl, rfl, rfl⟩]

end Sys2Proof.Machine
end

