-- ==== Sys2Proof/Laws/Bus.lean ====
section
/-! SUPPORT. Which register an address or an index names (20_memory.md R51, 40_timer.md R112). -/

namespace Sys2Proof.Machine

theorem unitOfIdx_of_lt {idx : Byte} {i : Unit4} (h : idx.toNat = i.val) : unitOfIdx idx = some i := by
  simp [unitOfIdx, h]

theorem unitOfIdx_of_ge {idx : Byte} (h : 4 ≤ idx.toNat) : unitOfIdx idx = none := by
  simp [unitOfIdx]; omega

/-- In a list with no repeated key, an entry is the one found. -/
theorem lookup_of_mem {a : Word} {r : BusReg} : ∀ {l : List (Word × BusReg)}, (l.map Prod.fst).Nodup → (a, r) ∈ l →
    l.lookup a = some r
  | (k, v) :: l, hn, hm => by
    rw [List.map_cons, List.nodup_cons] at hn
    rcases List.mem_cons.mp hm with he | hl
    · cases he; simp [List.lookup]
    · have hk : a ≠ k := by rintro rfl; exact hn.1 (List.mem_map.mpr ⟨_, hl, rfl⟩)
      rw [List.lookup, beq_false_of_ne hk]
      exact lookup_of_mem hn.2 hl

theorem lookup_of_not_mem {a : Word} : ∀ {l : List (Word × BusReg)}, (∀ e ∈ l, a ≠ e.1) → l.lookup a = none
  | [], _ => rfl
  | (k, v) :: l, h => by
    rw [List.lookup, beq_false_of_ne (h _ List.mem_cons_self)]
    exact lookup_of_not_mem fun e he => h e (.tail _ he)

theorem regAt_of_mem {p : Params} (h : addrsWf p = true) {a : Word} {r : BusReg} (hm : (a, r) ∈ busMap p) :
    regAt p a = some r := by
  simp only [addrsWf, Bool.and_eq_true, decide_eq_true_eq] at h
  exact lookup_of_mem h.1.1 hm

theorem counter_mem (p : Params) (i : Unit4) : (cntAddr p i, BusReg.counter i) ∈ busMap p := by
  fin_cases i <;> simp [busMap]

theorem control_mem (p : Params) (i : Unit4) : (ctlAddr p i, BusReg.control i) ∈ busMap p := by
  fin_cases i <;> simp [busMap]

theorem ifReg_mem (p : Params) : (p.ifAddr, BusReg.ifReg) ∈ busMap p := by simp [busMap]

end Sys2Proof.Machine
end

