-- ==== Sys2Proof/Laws/Decode.lean ====
section
/-! SUPPORT. The four fields of a packed word are the ones it was packed from, and a word is packed from its fields
(30_encoding.md R72). -/

namespace Sys2Proof

theorem pack_getLsbD (op idx : Byte) (data : Half) (opnd : Word) (i : Nat) :
    (pack op idx data opnd).getLsbD i =
      if i < 32 then opnd.getLsbD i else if i < 48 then data.getLsbD (i - 32)
      else if i < 56 then idx.getLsbD (i - 48) else op.getLsbD (i - 56) := by
  have h : pack op idx data opnd = (((op ++ idx) ++ data) ++ opnd : BitVec (8 + 8 + 16 + 32)) := rfl
  rw [h, BitVec.getLsbD_append, BitVec.getLsbD_append, BitVec.getLsbD_append]
  by_cases h1 : i < 32
  · simp [h1]
  by_cases h2 : i < 48
  · simp [h1, h2, show i - 32 < 16 by omega]
  by_cases h3 : i < 56
  · simp [h1, h2, h3, show ¬ i - 32 < 16 by omega, Nat.sub_sub, show i - 48 < 8 by omega]
  · simp [h1, h2, h3, show ¬ i - 32 < 16 by omega, Nat.sub_sub, show ¬ i - 48 < 8 by omega]

@[simp] theorem opField_pack (op idx : Byte) (data : Half) (opnd : Word) : opField (pack op idx data opnd) = op := by
  refine BitVec.eq_of_getLsbD_eq fun i hi => ?_
  rw [opField, BitVec.getLsbD_extractLsb', pack_getLsbD, if_neg (by omega), if_neg (by omega), if_neg (by omega)]
  simp [hi]

@[simp] theorem idxField_pack (op idx : Byte) (data : Half) (opnd : Word) :
    idxField (pack op idx data opnd) = idx := by
  refine BitVec.eq_of_getLsbD_eq fun i hi => ?_
  rw [idxField, BitVec.getLsbD_extractLsb', pack_getLsbD, if_neg (by omega), if_neg (by omega), if_pos (by omega)]
  simp [hi]

@[simp] theorem dataField_pack (op idx : Byte) (data : Half) (opnd : Word) :
    dataField (pack op idx data opnd) = data := by
  refine BitVec.eq_of_getLsbD_eq fun i hi => ?_
  rw [dataField, BitVec.getLsbD_extractLsb', pack_getLsbD, if_neg (by omega), if_pos (by omega)]
  simp [hi]

@[simp] theorem opndField_pack (op idx : Byte) (data : Half) (opnd : Word) :
    opndField (pack op idx data opnd) = opnd := by
  refine BitVec.eq_of_getLsbD_eq fun i hi => ?_
  rw [opndField, BitVec.getLsbD_extractLsb', pack_getLsbD, if_pos (by omega)]
  simp [hi]

theorem pack_fields (w : Cmd) : pack (opField w) (idxField w) (dataField w) (opndField w) = w := by
  refine BitVec.eq_of_getLsbD_eq fun i hi => ?_
  rw [pack_getLsbD, opField, idxField, dataField, opndField]
  simp only [BitVec.getLsbD_extractLsb']
  by_cases h1 : i < 32
  · simp [h1]
  by_cases h2 : i < 48
  · simp [h1, h2, show i - 32 < 16 by omega, show 32 + (i - 32) = i by omega]
  by_cases h3 : i < 56
  · simp [h1, h2, h3, show i - 48 < 8 by omega, show 48 + (i - 48) = i by omega]
  · simp [h1, h2, h3, show i - 56 < 8 by omega, show 56 + (i - 56) = i by omega]

/-- Decoding a packed word is decoding its fields. -/
@[simp] theorem decode_pack (op idx : Byte) (data : Half) (opnd : Word) :
    decode (pack op idx data opnd) = decodeFields op idx data opnd := by
  simp [decode]

/-- Every instruction is packed with its operation code. -/
theorem encode_eq_pack (i : Instr) : ∃ idx data opnd, encode i = pack i.op idx data opnd := by
  cases i <;> exact ⟨_, _, _, rfl⟩

end Sys2Proof
end

