-- ==== Sys2Proof/Laws/Nested.lean ====
section
/-! SUPPORT. What everything that may run inside an operation keeps, said once: a property that the single writes keep is
kept by every nested command, every collaborator call but `CPU.step()`'s own output, and every timer step
(42_scheduler.md R173, R174, R182). -/

namespace Sys2Proof.Machine

/-- The outputs of timer operations, bus reads and collaborator calls other than `CPU.step()` and the host's. -/
def Output.isQuiet : Output → Bool
  | .cpuStep | .hostNow _ | .hostSchedule _ _ | .hostCancel _ | .cpuStepFailure => false
  | .cpuReset | .ppuStep _ | .ppuReset | .getFramebuffer | .render _ | .inputReset | .ifRead _ | .ifWrite _
  | .busValue _ _ => true

/-- Every single write inside an operation keeps `P`; a START and a STOP count as single writes. -/
structure Kept (P : State → Prop) : Prop where
  answers : ∀ {s t}, SameButAnswers s t → P s → P t
  raise : ∀ s f, P s → P (s.raise f)
  hang : ∀ s c, P s → P (s.hang c)
  log : ∀ s o, o.isQuiet = true → P s → P (s.log o)
  timers : ∀ (s : State) v, P s → P { s with timers := v }
  flags : ∀ s v, P s → P (s.setIf v)
  rate : ∀ s n, n ≠ 0 → P s → P (s.setRate n)
  start : ∀ s, P s → P (startOp s)
  stop : ∀ s, P s → P (stopOp s)

namespace Kept

variable {P : State → Prop} (k : Kept P)
include k

theorem timerStep (r : Nat) {s : State} (h : P s) : P (timerStep r s) :=
  timerStep_keeps (P := P) (fun t _ _ h1 => k.timers t _ h1)
    (fun _ _ h1 => k.log _ _ rfl (k.flags _ _ (k.log _ _ rfl h1))) r s h

theorem timerReset {s : State} (h : P s) : P (timerReset s) := k.timers s _ h

theorem unlessBusy (op : Byte) {f : State → State} {s : State} (h : P s) (hf : P (f s)) : P (unlessBusy op f s) := by
  unfold Machine.unlessBusy
  split
  exacts [k.raise _ _ h, hf]

theorem fireGate {f : State → State} {s : State} (h : P s) (hf : P (f s)) : P (fireGate f s) := by
  unfold Machine.fireGate
  split
  exacts [h, k.unlessBusy _ h hf]

theorem dstepGate {f : State → State} {s : State} (h : P s) (hf : P (f s)) : P (dstepGate f s) := by
  unfold Machine.dstepGate
  split
  exacts [k.raise _ _ h, k.unlessBusy _ h hf]

theorem tresetOp {s : State} (h : P s) : P (tresetOp s) := k.unlessBusy _ h (k.timerReset h)

theorem tstepOp (cycles : Word) {s : State} (h : P s) : P (tstepOp cycles s) := k.unlessBusy _ h (k.timerStep _ h)

theorem twctlOp (idx byte : Byte) {s : State} (h : P s) : P (twctlOp idx byte s) := by
  unfold Machine.twctlOp
  split
  exacts [k.timers _ _ h, k.raise _ _ h]

theorem twrldOp (idx : Byte) (half : Half) {s : State} (h : P s) : P (twrldOp idx half s) := by
  unfold Machine.twrldOp
  split
  exacts [k.timers _ _ h, k.raise _ _ h]

theorem busrOp (a : Word) {s : State} (h : P s) : P (busrOp a s) := by
  unfold Machine.busrOp
  split
  exacts [k.log _ _ rfl h, k.raise _ _ h]

theorem buswOp (v : Half) (a : Word) {s : State} (h : P s) : P (buswOp v a s) := by
  unfold Machine.buswOp
  split
  · rename_i r _
    cases r
    exacts [k.timers _ _ h, k.timers _ _ h, k.flags _ _ h]
  · exact k.raise _ _ h

theorem setfpsOp (n : Word) {s : State} (h : P s) : P (setfpsOp n s) := by
  unfold Machine.setfpsOp
  split
  exacts [k.raise _ _ h, k.rate _ _ (by assumption) h]

theorem nestedOp (i : Instr) {s : State} (h : P s) : P (nestedOp i s) := by
  cases i <;> unfold Machine.nestedOp <;>
    first
    | exact k.busrOp _ h
    | exact k.buswOp _ _ h
    | exact k.tresetOp h
    | exact k.tstepOp _ h
    | exact k.twctlOp _ _ h
    | exact k.twrldOp _ _ h
    | exact k.unlessBusy _ h h
    | exact k.start _ h
    | exact k.stop _ h
    | exact k.fireGate h h
    | exact k.dstepGate h h
    | exact k.setfpsOp _ h

theorem nestedWord (w : Cmd) {s : State} (h : P s) : P (nestedWord w s) := by
  unfold Machine.nestedWord
  split
  exacts [k.nestedOp _ h, k.raise _ _ h]

theorem nestedAll (ws : List Cmd) {s : State} (h : P s) : P (nestedAll ws s) :=
  foldl_keeps (fun _ w h1 => andThen_keeps h1 fun _ => k.nestedWord w) ws s h

theorem onReply (c : Call) (r : Reply) {s : State} (h : P s) : P (s.onReply c r) := by
  cases r
  exacts [h, k.raise _ _ h, k.hang _ _ h]

theorem collabCall (c : Call) {o : Output} (ho : o.isQuiet = true) {s : State} (h : P s) : P (collabCall c o s) :=
  andThen_keeps (k.nestedAll _ (k.answers (takeCall_same _) (k.log _ _ ho h))) fun _ => k.onReply _ _

theorem getFramebuffer {s : State} (h : P s) : P (getFramebuffer s).2 :=
  k.nestedAll _ (k.answers (takeFb_same _) (k.log _ _ rfl h))

theorem frameComplete {s : State} (h : P s) : P (frameComplete s) := by
  unfold Machine.frameComplete afterFramebuffer
  refine andThen_keeps (k.getFramebuffer h) fun _ h1 => ?_
  split
  exacts [k.collabCall _ rfl h1, k.raise _ _ h1, k.hang _ _ h1]

theorem ppuAct (a : PpuAct) {s : State} (h : P s) : P (ppuAct a s) := by
  cases a
  exacts [k.nestedWord _ h, k.frameComplete h]

theorem ppuActs (as : List PpuAct) {s : State} (h : P s) : P (ppuActs as s) :=
  foldl_keeps (fun _ a h1 => andThen_keeps h1 fun _ => k.ppuAct a) as s h

theorem ppuStep (r : Nat) {s : State} (h : P s) : P (ppuStep r s) :=
  andThen_keeps (k.ppuActs _ (k.answers (takePpu_same _) (k.log _ _ rfl h))) fun _ => k.onReply _ _

/-- From the state in which the call of `CPU.step()` has been put out. -/
theorem cpuStep {s : State} (h : P (s.log .cpuStep)) : P (cpuStep s).2 :=
  k.nestedAll _ (k.answers (takeCpu_same _) h)

end Kept

/-- Every command but the three that call collaborators with nested commands is the nested operation. -/
theorem exec_eq_nestedOp {i : Instr} (h1 : i ≠ .sreset) (h2 : i ≠ .fire) (h3 : i ≠ .dstep) (s : State) :
    exec i s = command (nestedOp i) s := by
  cases i
  case sreset => exact absurd rfl h1
  case fire => exact absurd rfl h2
  case dstep => exact absurd rfl h3
  all_goals rfl

/-! ### A collaborator call that a nested command stops -/

/-- The commands before the one that stops the operation run, the ones after it do not. -/
theorem nestedAll_stops {before after : List Cmd} {w : Cmd} {v : State} (hl : (nestedAll before v).live = true)
    (hs : (nestedWord w (nestedAll before v)).live = false) :
    nestedAll (before ++ w :: after) v = nestedWord w (nestedAll before v) := by
  have h : nestedAll (before ++ w :: after) v = nestedAll after ((nestedAll before v).andThen (nestedWord w)) := by
    simp [nestedAll, List.foldl_append]
  rw [h, andThen_of_live hl, nestedAll_of_not_live _ hs]

/-- Once stopped, the PPU does nothing more. -/
theorem ppuActs_of_not_live (as : List PpuAct) {s : State} (h : s.live = false) : ppuActs as s = s := by
  induction as with
  | nil => rfl
  | cons a as ih => rw [ppuActs_cons, andThen_of_not_live h, ih]

theorem ppuActs_stops {before after : List PpuAct} {a : PpuAct} {v : State} (hl : (ppuActs before v).live = true)
    (hs : (ppuAct a (ppuActs before v)).live = false) :
    ppuActs (before ++ a :: after) v = ppuAct a (ppuActs before v) := by
  have h : ppuActs (before ++ a :: after) v = ppuActs after ((ppuActs before v).andThen (ppuAct a)) := by
    simp [ppuActs, List.foldl_append]
  rw [h, andThen_of_live hl, ppuActs_of_not_live _ hs]

/-- A call whose nested commands stop the operation ends there. -/
theorem ppuStep_of_acts_stopped {s : State} {r : Nat} {acts : List PpuAct} {reply : Reply} {l : List PpuAnswer}
    (h : s.env.ppu = ⟨acts, reply⟩ :: l)
    (hs : (ppuActs acts { s with env := { s.env with ppu := l }, trace := .ppuStep r :: s.trace }).live = false) :
    ppuStep r s = ppuActs acts { s with env := { s.env with ppu := l }, trace := .ppuStep r :: s.trace } := by
  rw [ppuStep, takePpu_cons (s := s.log (.ppuStep r)) h]
  exact andThen_of_not_live hs _

theorem collabCall_of_nested_stopped {s : State} {c : Call} {o : Output} {ws : List Cmd} {reply : Reply}
    {l : List CallAnswer} (h : s.env.calls = ⟨ws, reply⟩ :: l)
    (hs : (nestedAll ws { s with env := { s.env with calls := l }, trace := o :: s.trace }).live = false) :
    collabCall c o s = nestedAll ws { s with env := { s.env with calls := l }, trace := o :: s.trace } := by
  rw [collabCall, takeCall_cons (s := s.log o) h]
  exact andThen_of_not_live hs _

theorem frameComplete_of_nested_stopped {s : State} {ws : List Cmd} {res : FbResult} {l : List FbAnswer}
    (h : s.env.fbs = ⟨ws, res⟩ :: l)
    (hs : (nestedAll ws { s with env := { s.env with fbs := l }, trace := .getFramebuffer :: s.trace }).live = false) :
    frameComplete s = nestedAll ws { s with env := { s.env with fbs := l }, trace := .getFramebuffer :: s.trace } := by
  rw [frameComplete, getFramebuffer, takeFb_cons (s := s.log .getFramebuffer) h]
  exact andThen_of_not_live hs _

/-- Observer calls that return, a buffer each. -/
theorem ppuActs_observers : ∀ (bufs : List Framebuffer) {s : State} {fbs : List FbAnswer} {calls : List CallAnswer},
    s.live = true → s.env.fbs = bufs.map (fun fb => ⟨[], .buffer fb⟩) ++ fbs →
    s.env.calls = List.replicate bufs.length ⟨[], .ok⟩ ++ calls →
    ppuActs (List.replicate bufs.length .endOfFrame) s = { s with
      env := { s.env with fbs := fbs, calls := calls }
      trace := bufs.reverse.flatMap (fun fb => [.render fb, .getFramebuffer]) ++ s.trace }
  | [], s, _, _, _, hf, hc => by
    simp only [List.map_nil, List.nil_append, List.length_nil, List.replicate_zero] at hf hc
    subst hf hc
    rfl
  | fb :: bufs, s, fbs, calls, hl, hf, hc => by
    rw [List.length_cons, List.replicate_succ, ppuActs_cons, andThen_of_live hl]
    simp only [ppuAct]
    rw [frameComplete_ok (fb := fb) (m := bufs.map (fun fb => ⟨[], .buffer fb⟩) ++ fbs)
      (l := List.replicate bufs.length ⟨[], .ok⟩ ++ calls) hl (by rw [hf]; rfl) (by rw [hc, List.length_cons, List.replicate_succ]; rfl),
      ppuActs_observers bufs (by exact hl) rfl rfl]
    simp [List.flatMap_append]

end Sys2Proof.Machine
end

