-- ==== Sys2Proof/Laws/Extends.lean ====
section
/-! SUPPORT. No shared operation takes anything back (Sys2Proof/Safety.lean, Extends): one lemma per operation. -/

namespace Sys2Proof.Machine

@[refl] theorem Extends.refl (s : State) : Extends s s :=
  ⟨rfl, rfl, List.suffix_rfl, le_refl _, le_refl _, fun _ h => h, fun _ h => h⟩

@[trans] theorem Extends.trans {s t u : State} (h : Extends s t) (k : Extends t u) : Extends s u :=
  ⟨k.params.trans h.params, k.cmds.trans h.cmds, h.trace.trans k.trace, h.clock.trans k.clock,
    h.nextHandle.trans k.nextHandle, fun f e => k.fault f (h.fault f e), fun c e => k.stuck c (h.stuck c e)⟩

theorem SameButAnswers.extends {s t : State} (h : SameButAnswers s t) : Extends s t :=
  ⟨h.params, h.cmds, by rw [h.trace], by rw [h.clock], by rw [h.nextHandle],
    fun f e => by rw [h.sched, e], fun c e => by rw [h.stuck, e]⟩

/-- An update of the registers alone, the recorded fault kept. -/
theorem extends_of_parts {s t : State} (hp : t.params = s.params) (he : t.env = s.env) (ht : t.trace = s.trace)
    (hf : t.sched.fault = s.sched.fault) (hs : t.stuck = s.stuck) : Extends s t :=
  ⟨hp, by rw [he], by rw [ht], by rw [he], by rw [he], fun _ e => by rw [hf, e], fun _ e => by rw [hs, e]⟩

theorem extends_andThen {s t : State} {k : State → State} (h : Extends s t) (hk : ∀ u, Extends u (k u)) :
    Extends s (t.andThen k) :=
  andThen_keeps h fun _ h1 => h1.trans (hk t)

theorem extends_foldl {α : Type} {f : State → α → State} (hf : ∀ s a, Extends s (f s a)) (l : List α) (s : State) :
    Extends s (l.foldl f s) :=
  foldl_keeps (P := Extends s) (fun t a h => h.trans (hf t a)) l s (.refl s)

theorem raise_extends (s : State) (f : BlockFault) : Extends s (s.raise f) :=
  ⟨rfl, rfl, List.suffix_rfl, le_refl _, le_refl _, fun g h => by simp [h], fun _ h => h⟩

theorem hang_extends (s : State) (c : Call) : Extends s (s.hang c) :=
  ⟨rfl, rfl, List.suffix_rfl, le_refl _, le_refl _, fun _ h => h, fun d h => by simp [h]⟩

theorem log_extends (s : State) (o : Output) : Extends s (s.log o) :=
  ⟨rfl, rfl, List.suffix_cons o _, le_refl _, le_refl _, fun _ h => h, fun _ h => h⟩

theorem clockTo_extends (s : State) (t : Ms) : Extends s (s.clockTo t) :=
  ⟨rfl, rfl, List.suffix_rfl, le_max_left _ _, le_refl _, fun _ h => h, fun _ h => h⟩

theorem setUnit_extends (s : State) (i : Unit4) (u : TimerUnit) : Extends s (s.setUnit i u) :=
  extends_of_parts rfl rfl rfl rfl rfl

theorem onReply_extends (s : State) (c : Call) (r : Reply) : Extends s (s.onReply c r) := by
  cases r
  exacts [.refl s, raise_extends s _, hang_extends s _]

theorem hostNow_extends (s : State) : Extends s s.hostNow.2 := by
  have h := (takeNow_same s).extends
  unfold State.hostNow
  split <;> rename_i he <;> rw [he] at h
  · exact h.trans ((clockTo_extends _ _).trans (log_extends _ _))
  · exact h.trans (hang_extends _ _)

theorem hostCall_extends (c : Call) (o : Output) (s : State) : Extends s (hostCall c o s) :=
  (log_extends s o).trans ((takeHost_same _).extends.trans (onReply_extends _ _ _))

theorem issued_extends (s : State) : Extends s s.issued :=
  ⟨rfl, rfl, List.suffix_rfl, le_refl _, Nat.le_succ _, fun _ h => h, fun _ h => h⟩

theorem setPending_extends (s : State) (h : Option Handle) : Extends s (s.setPending h) :=
  extends_of_parts rfl rfl rfl rfl rfl

theorem schedule_extends (s : State) (delay : Ms) : Extends s (s.schedule delay) :=
  extends_andThen (hostCall_extends _ _ s) fun u => (setPending_extends u _).trans (issued_extends _)

theorem cancelPending_extends (s : State) : Extends s s.cancelPending := by
  unfold State.cancelPending
  split
  · exact .refl s
  · exact extends_andThen (hostCall_extends _ _ s) fun u => setPending_extends u none

theorem startOp_extends (s : State) : Extends s (startOp s) := by
  unfold startOp
  split
  · exact .refl s
  · exact (extends_of_parts rfl rfl rfl rfl rfl : Extends s (s.setState .running)).trans (schedule_extends _ _)

theorem stopOp_extends (s : State) : Extends s (stopOp s) := by
  unfold stopOp
  split
  · exact .refl s
  · exact (extends_of_parts rfl rfl rfl rfl rfl : Extends s (s.setState .stopped)).trans (cancelPending_extends _)

/-- So nothing that may run inside an operation takes anything back. -/
theorem extends_kept (s : State) : Kept (Extends s) where
  answers k h := h.trans k.extends
  raise t f h := h.trans (raise_extends t f)
  hang t c h := h.trans (hang_extends t c)
  log t o _ h := h.trans (log_extends t o)
  timers _ _ h := h.trans (extends_of_parts rfl rfl rfl rfl rfl)
  flags _ _ h := h.trans (extends_of_parts rfl rfl rfl rfl rfl)
  rate _ _ _ h := h.trans (extends_of_parts rfl rfl rfl rfl rfl)
  start t h := h.trans (startOp_extends t)
  stop t h := h.trans (stopOp_extends t)

theorem timerStep_extends (r : Nat) (s : State) : Extends s (timerStep r s) := (extends_kept s).timerStep r (.refl s)

theorem ppuStep_extends (r : Nat) (s : State) : Extends s (ppuStep r s) := (extends_kept s).ppuStep r (.refl s)

theorem cpuStep_extends (s : State) : Extends s (cpuStep s).2 := (extends_kept s).cpuStep (log_extends s _)

theorem frameComplete_extends (s : State) : Extends s (frameComplete s) := (extends_kept s).frameComplete (.refl s)

theorem afterCpu_extends {s : State} {res : CpuResult × State} {f : State → State} {g : Nat → State → State}
    (h : Extends s res.2) (hf : ∀ u, Extends u (f u)) (hg : ∀ r u, Extends u (g r u)) :
    Extends s (afterCpu res f g) := by
  refine extends_andThen h fun u => ?_
  split
  exacts [hang_extends u _, hf u, hf u, hg _ u]

theorem setBusy_extends (s : State) (b : Bool) : Extends s (s.setBusy b) := extends_of_parts rfl rfl rfl rfl rfl

theorem abortFrame_extends (s : State) : Extends s (abortFrame s) :=
  extends_andThen ((extends_of_parts rfl rfl rfl rfl rfl : Extends s (s.setState .stopped)).trans
    (cancelPending_extends _)) fun u => (setBusy_extends u false).trans (log_extends _ _)

theorem statistics_extends (s : State) : Extends s (statistics s) := by
  refine extends_andThen ((extends_of_parts rfl rfl rfl rfl rfl : Extends s s.countFrame).trans (hostNow_extends _))
    fun u => extends_of_parts rfl rfl rfl ?_ rfl
  simp only [State.setSample_sched, Scheduler.sample]
  split <;> rfl

theorem pacing_extends (s : State) : Extends s (pacing s) := by
  rw [pacing]
  refine extends_andThen (hostNow_extends s) fun u => ?_
  split
  exacts [schedule_extends u _, .refl u]

theorem frameTail_extends (s : State) : Extends s (frameTail s) := by
  unfold frameTail
  split
  · exact setBusy_extends s false
  · exact extends_andThen (extends_andThen (statistics_extends s) pacing_extends) fun u =>
      extends_andThen (frameComplete_extends u) fun v => setBusy_extends v false

theorem countCycles_extends (r : Nat) (s : State) : Extends s (countCycles r s) :=
  (timerStep_extends r s).trans (extends_of_parts rfl rfl rfl rfl rfl)

theorem frameLoop_extends (n : Nat) : ∀ s : State, Extends s (frameLoop n s) := by
  induction n with
  | zero => exact frameTail_extends
  | succ n ih =>
    intro s
    unfold frameLoop
    split
    · split
      · exact setBusy_extends s false
      · exact afterCpu_extends (cpuStep_extends s) abortFrame_extends fun r u =>
          extends_andThen (ppuStep_extends r u) fun v => (countCycles_extends r v).trans (ih _)
    · exact frameTail_extends s

theorem frameEntry_extends (s : State) (t : Ms) : Extends s ((s.setFrameStart t).setAcc 0) :=
  extends_of_parts rfl rfl rfl rfl rfl

theorem runFrame_extends (s : State) : Extends s (runFrame s) := by
  unfold runFrame
  split
  · exact .refl s
  · exact extends_andThen ((setBusy_extends s true).trans (hostNow_extends _)) fun u =>
      (frameEntry_extends u _).trans (frameLoop_extends _ _)

theorem fireBody_extends (s : State) : Extends s (fireBody s) := by
  unfold fireBody
  split
  · exact .refl s
  · exact (extends_of_parts rfl rfl rfl rfl rfl : Extends s (s.setPending none)).trans
      ((clockTo_extends _ _).trans (runFrame_extends _))

theorem dstepBody_extends (s : State) : Extends s (dstepBody s) :=
  afterCpu_extends ((setBusy_extends s true).trans (cpuStep_extends _))
    abortFrame_extends fun r u =>
      extends_andThen (ppuStep_extends r u) fun v => (timerStep_extends r v).trans (setBusy_extends _ false)

theorem sresetBody_extends (s : State) : Extends s (sresetBody s) := by
  have k := extends_kept s
  have h1 := k.collabCall .cpuReset (o := .cpuReset) rfl (setBusy_extends s true)
  have h2 := andThen_keeps h1 fun _ => k.collabCall .ppuReset (o := .ppuReset) rfl
  have h3 := andThen_keeps h2 fun _ => k.timerReset
  have h4 := andThen_keeps h3 fun _ => k.collabCall .inputReset (o := .inputReset) rfl
  exact extends_andThen h4 fun u => setBusy_extends u false

end Sys2Proof.Machine
end

