-- ==== Sys2Proof/Laws/Frame.lean ====
section
/-! SUPPORT. What a frame can do, said once: how a FIRE enters it, what the cycle loop does at each of its checks, and how
it goes on after `CPU.step()` (42_scheduler.md R167 to R175). -/

namespace Sys2Proof.Machine

/-! ### After `CPU.step()` -/

theorem afterCpu_cycles {r : Nat} {s : State} {f : State → State} {g : Nat → State → State} (hr : 0 < r)
    (hl : s.live = true) : afterCpu (.cycles r, s) f g = g r s := by
  obtain ⟨r, rfl⟩ : ∃ k, r = k + 1 := ⟨r - 1, by omega⟩
  rw [afterCpu, andThen_of_live hl]

/-- `FAIL` and a count of 0 are the same (42_scheduler.md R160). -/
theorem afterCpu_failure {res : CpuResult} {s : State} {f : State → State} {g : Nat → State → State}
    (h : res = .fail ∨ res = .cycles 0) (hl : s.live = true) : afterCpu (res, s) f g = f s := by
  rw [afterCpu, andThen_of_live hl]
  rcases h with rfl | rfl <;> rfl

theorem afterCpu_never {s : State} {f : State → State} {g : Nat → State → State} (hl : s.live = true) :
    afterCpu (.never, s) f g = s.hang .cpuStep := by
  rw [afterCpu, andThen_of_live hl]

theorem afterCpu_of_not_live {res : CpuResult × State} {f : State → State} {g : Nat → State → State}
    (hl : res.2.live = false) : afterCpu res f g = res.2 := by
  rw [afterCpu, andThen_of_not_live hl]

/-! ### The cycle loop -/

/-- The budget is reached: the loop ends. -/
theorem frameLoop_done {s : State} (h : frameBudget ≤ s.sched.acc) (n : Nat) : frameLoop n s = frameTail s := by
  cases n with
  | zero => rfl
  | succ n => rw [frameLoop, if_neg (Nat.not_lt.mpr h)]

/-- The scheduler is stopped: the frame is abandoned. -/
theorem frameLoop_stopped {s : State} (h : s.sched.state = .stopped) (n : Nat) : frameLoop n s = abandon s := by
  have ht : frameTail s = abandon s := by rw [frameTail, h]
  cases n with
  | zero => exact ht
  | succ n => rw [frameLoop, h]; simp only [ht, ite_self]

/-- Another iteration begins. -/
theorem frameLoop_running {s : State} (hb : s.sched.acc < frameBudget) (h : s.sched.state = .running) (n : Nat) :
    frameLoop (n + 1) s = afterCpu (cpuStep s) abortFrame fun r s1 => iteration r (fun s2 => frameLoop n s2) s1 := by
  rw [frameLoop, if_pos hb, h]

/-- One iteration in which the CPU reports `r` and no collaborator issues a command: a state is written as its timers'
part `s` around the scheduler `c` and the outside world `e`. -/
theorem frameLoop_iteration {s : State} {c : Scheduler} {e : Env} {r : Nat} {cpu : List CpuAnswer} {ppu : List PpuAnswer}
    (n : Nat) (hf : c.fault = none) (hr : c.state = .running) (hb : c.acc < frameBudget) (hpos : 0 < r)
    (hc : e.cpu = ⟨[], .cycles r⟩ :: cpu) (hp : e.ppu = ⟨[], .ok⟩ :: ppu) :
    frameLoop (n + 1) (s.around c e none) =
      frameLoop n ((timerStep r ((s.log .cpuStep).log (.ppuStep r))).around { c with acc := c.acc + r }
        { e with cpu := cpu, ppu := ppu } none) := by
  have hl : ∀ (u : State) (e1 : Env), (u.around c e1 none).live = true := fun u e1 => by
    simp [State.live, State.around, hf]
  have h1 : cpuStep (s.around c e none) = (.cycles r, (s.log .cpuStep).around c { e with cpu := cpu } none) :=
    cpuStep_scripted (s := s.around c e none) hc
  have h2 : ppuStep r ((s.log .cpuStep).around c { e with cpu := cpu } none) =
      ((s.log .cpuStep).log (.ppuStep r)).around c { e with cpu := cpu, ppu := ppu } none :=
    ppuStep_ok (hl _ _) hp
  rw [frameLoop_running (by exact hb) (by exact hr), h1, afterCpu_cycles hpos (hl _ _), iteration, h2,
    andThen_of_live (hl _ _), countCycles, timerStep_around]
  rfl

/-! ### FIRE -/

/-- A FIRE with a pending handle, in a running block that is not busy, whose first reading is `t0`: the cycle loop begins. -/
theorem fire_begins {s : State} {h : Handle} {t0 : Ms} {now : List NowAnswer} (hl : s.live = true)
    (hb : s.sched.busy = false) (hs : s.sched.state = .running) (hp : s.sched.pending = some h)
    (hn : s.env.now = .reads t0 :: now) (hc : s.env.clock ≤ t0) (hd : h.due ≤ t0) :
    exec .fire s = .next (frameLoop frameBudget ((s.log (.hostNow t0)).around
      { s.sched with pending := none, busy := true, frameStart := t0, acc := 0 } { s.env with now := now, clock := t0 }
      none)) := by
  obtain ⟨hf, hk⟩ := (live_iff s).mp hl
  have h0 : (((s.setPending none).clockTo h.due).setBusy true).env.clock ≤ t0 := max_le hc hd
  have h1 : exec .fire s = .next (runFrame ((s.setPending none).clockTo h.due)) := by
    change command (fireGate fireBody) s = _
    rw [command_of_live hl, fireGate, hp]
    change Host.Outcome.next (unlessBusy 0x13 fireBody s) = _
    rw [unlessBusy_of_idle hb, fireBody, hp]
  have h2 : ((s.setPending none).clockTo h.due).sched.state = .running := hs
  rw [h1, runFrame, h2]
  dsimp only
  rw [hostNow_reads (by exact hn) h0, andThen_of_live (by exact hl)]
  congr 2
  simp [State.around, State.log, State.setBusy, State.clockTo, State.setPending, State.setFrameStart, State.setAcc, hk]

end Sys2Proof.Machine
end

