-- ==== Sys2Proof/Laws/Invariant.lean ====
section
/-! SUPPORT. Every shared operation keeps the invariant inside an operation (Sys2Proof/Safety.lean, Inside), and what each
leaves in `S.busy` while the block goes on: one lemma per operation. -/

namespace Sys2Proof.Machine

/-! ### The invariant under updates -/

/-- An update that leaves the rate, the times, the state and the handle alone, and starts nothing that had stopped. -/
theorem inside_of {s t : State} (h : Inside s)
    (hs : t.sched = { s.sched with fault := t.sched.fault, busy := t.sched.busy, acc := t.sched.acc })
    (hc : s.env.clock ≤ t.env.clock) (hn : s.env.nextHandle ≤ t.env.nextHandle)
    (hl : t.live = true → s.live = true) : Inside t := by
  obtain ⟨⟨h1, h2, h3, h4, h5⟩, h6⟩ := h
  refine ⟨⟨?_, ?_, ?_, ?_, ?_⟩, ?_⟩ <;> rw [hs]
  · exact h1
  · exact h2
  · exact h3.trans hc
  · exact h4.trans hc
  · exact fun k hk => (h5 k hk).trans_le hn
  · exact fun hlt hst => h6 (hl hlt) hst

/-- The same for the registers alone: the state may change too. -/
theorem registers_of {s t : State} (h : Registers s)
    (hs : t.sched =
      { s.sched with fault := t.sched.fault, busy := t.sched.busy, acc := t.sched.acc, state := t.sched.state })
    (hc : s.env.clock ≤ t.env.clock) (hn : s.env.nextHandle ≤ t.env.nextHandle) : Registers t := by
  obtain ⟨h1, h2, h3, h4, h5⟩ := h
  refine ⟨?_, ?_, ?_, ?_, ?_⟩ <;> rw [hs]
  · exact h1
  · exact h2
  · exact h3.trans hc
  · exact h4.trans hc
  · exact fun k hk => (h5 k hk).trans_le hn

theorem inside_andThen {s : State} {k : State → State} (h : Inside s) (hk : s.live = true → Inside (k s)) :
    Inside (s.andThen k) :=
  andThen_keeps h fun hl _ => hk hl

theorem raise_inside {s : State} (f : BlockFault) (h : Inside s) : Inside (s.raise f) :=
  inside_of h rfl (le_refl _) (le_refl _) (by simp)

theorem hang_inside {s : State} (c : Call) (h : Inside s) : Inside (s.hang c) :=
  inside_of h rfl (le_refl _) (le_refl _) (by simp)

theorem log_inside {s : State} (o : Output) (h : Inside s) : Inside (s.log o) :=
  inside_of h rfl (le_refl _) (le_refl _) id

theorem setBusy_inside {s : State} (b : Bool) (h : Inside s) : Inside (s.setBusy b) :=
  inside_of h rfl (le_refl _) (le_refl _) id

theorem setAcc_inside {s : State} (n : Nat) (h : Inside s) : Inside (s.setAcc n) :=
  inside_of h rfl (le_refl _) (le_refl _) id

theorem clockTo_inside {s : State} (t : Ms) (h : Inside s) : Inside (s.clockTo t) :=
  inside_of h rfl (le_max_left _ _) (le_refl _) id

theorem SameButAnswers.inside {s t : State} (k : SameButAnswers s t) (h : Inside s) : Inside t :=
  inside_of h (by rw [k.sched]) (by rw [k.clock]) (by rw [k.nextHandle]) (by rw [k.live]; exact id)

theorem setRate_inside {s : State} {n : Nat} (hn : n ≠ 0) (h : Inside s) : Inside (s.setRate n) :=
  ⟨⟨Nat.pos_of_ne_zero hn, rfl, h.registers.sample_le, h.registers.start_le, h.registers.issued⟩, h.stopped_idle⟩

/-! ### The host's primitives -/

theorem hostNow_inside {s : State} (h : Inside s) : Inside s.hostNow.2 := by
  have h1 := (takeNow_same s).inside h
  unfold State.hostNow
  split <;> rename_i he <;> rw [he] at h1
  · exact log_inside _ (clockTo_inside _ h1)
  · exact hang_inside _ h1

/-- A reading is the host's clock at that moment. -/
theorem hostNow_reading (s : State) : s.hostNow.1 = s.hostNow.2.env.clock := by
  unfold State.hostNow
  split <;> rfl

/-- `Host.now()` writes no scheduler register. -/
@[simp] theorem hostNow_sched (s : State) : s.hostNow.2.sched = s.sched := by
  have h1 := (takeNow_same s).sched
  unfold State.hostNow
  split <;> rename_i he <;> rw [he] at h1 <;> exact h1

theorem hostCall_registers {s : State} (c : Call) (o : Output) (h : Registers s) : Registers (hostCall c o s) := by
  have h1 : Registers (s.log o) := registers_of h rfl (le_refl _) (le_refl _)
  have k := takeHost_same (s.log o)
  have h2 : Registers (s.log o).takeHost.2 :=
    registers_of h1 (by rw [k.sched]) (by rw [k.clock]) (by rw [k.nextHandle])
  unfold hostCall
  obtain he | he | he := onReply_cases (s.log o).takeHost.2 c (s.log o).takeHost.1 <;> rw [he]
  exacts [h2, registers_of h2 rfl (le_refl _) (le_refl _), registers_of h2 rfl (le_refl _) (le_refl _)]

/-- A call of the host writes at most `S.fault`. -/
theorem hostCall_sched (c : Call) (o : Output) (s : State) :
    (hostCall c o s).sched = { s.sched with fault := (hostCall c o s).sched.fault } := by
  have k := (takeHost_same (s.log o)).sched
  unfold hostCall
  obtain he | he | he := onReply_cases (s.log o).takeHost.2 c (s.log o).takeHost.1 <;> rw [he]
  · rw [k]; rfl
  · simp only [State.raise, k, State.log_sched]
  · rw [State.hang_sched, k]; rfl

theorem hostCall_live {c : Call} {o : Output} {s : State} (h : (hostCall c o s).live = true) : s.live = true := by
  have e := hostCall_extends c o s
  obtain ⟨h1, h2⟩ := (live_iff _).mp h
  refine (live_iff s).mpr ⟨Option.eq_none_iff_forall_ne_some.mpr fun f hf => ?_,
    Option.eq_none_iff_forall_ne_some.mpr fun d hd => ?_⟩
  · rw [e.fault f hf] at h1; cases h1
  · rw [e.stuck d hd] at h2; cases h2

/-- Scheduling in state `Running`. -/
theorem schedule_inside {s : State} (delay : Ms) (hr : s.sched.state = .running) (h : Inside s) :
    Inside (s.schedule delay) := by
  have hs := hostCall_sched .hostSchedule (.hostSchedule s.env.nextHandle delay) s
  have hreg := hostCall_registers .hostSchedule (.hostSchedule s.env.nextHandle delay) h.registers
  have hrun : (hostCall .hostSchedule (.hostSchedule s.env.nextHandle delay) s).sched.state = .running := by
    rw [hs]; exact hr
  have hn := (hostCall_extends .hostSchedule (.hostSchedule s.env.nextHandle delay) s).nextHandle
  refine inside_andThen ⟨hreg, fun _ hst => by rw [hrun] at hst; cases hst⟩ fun _ => ⟨?_, ?_⟩
  · refine ⟨hreg.rate_pos, hreg.interval_eq, hreg.sample_le, hreg.start_le, fun k hk => ?_⟩
    obtain rfl : s.freshHandle delay = k := Option.some.inj hk
    exact Nat.lt_succ_of_le hn
  · intro _ hst
    have : (hostCall .hostSchedule (.hostSchedule s.env.nextHandle delay) s).sched.state = .stopped := hst
    rw [hrun] at this
    cases this

theorem setPending_none_registers {s : State} (h : Registers s) : Registers (s.setPending none) :=
  ⟨h.rate_pos, h.interval_eq, h.sample_le, h.start_le, fun _ hk => nomatch hk⟩

/-- Cancelling, in any state of the scheduler. -/
theorem cancelPending_inside {s : State} (h : Registers s) : Inside s.cancelPending := by
  unfold State.cancelPending
  split
  · exact ⟨h, fun _ _ => by assumption⟩
  · rename_i k _
    have hreg := hostCall_registers .hostCancel (.hostCancel k.num) h
    obtain ⟨_, he⟩ | ⟨hl, he⟩ := andThen_cases (hostCall .hostCancel (.hostCancel k.num) s) fun s1 => s1.setPending none
    · rw [he]; exact ⟨setPending_none_registers hreg, fun _ _ => rfl⟩
    · rw [he]; exact ⟨hreg, fun hl' => by rw [hl] at hl'; cases hl'⟩

/-! ### Operations -/

theorem startOp_inside {s : State} (h : Inside s) : Inside (startOp s) := by
  unfold startOp
  split
  · exact h
  · exact schedule_inside 0 rfl ⟨registers_of h.registers rfl (le_refl _) (le_refl _), fun _ hst => nomatch hst⟩

theorem stopOp_inside {s : State} (h : Inside s) : Inside (stopOp s) := by
  unfold stopOp
  split
  · exact h
  · exact cancelPending_inside (registers_of h.registers rfl (le_refl _) (le_refl _))

/-- So everything that may run inside an operation keeps the invariant. -/
theorem inside_kept : Kept Inside where
  answers k h := k.inside h
  raise _ f h := raise_inside f h
  hang _ c h := hang_inside c h
  log _ o _ h := log_inside o h
  timers _ _ h := inside_of h rfl (le_refl _) (le_refl _) id
  flags _ _ h := inside_of h rfl (le_refl _) (le_refl _) id
  rate _ _ hn h := setRate_inside hn h
  start _ h := startOp_inside h
  stop _ h := stopOp_inside h

theorem afterCpu_inside {res : CpuResult × State} {f : State → State} {g : Nat → State → State}
    (h : Inside res.2) (hf : ∀ u, Inside u → Inside (f u)) (hg : ∀ r u, Inside u → Inside (g r u)) :
    Inside (afterCpu res f g) := by
  refine inside_andThen h fun _ => ?_
  split
  exacts [hang_inside _ h, hf _ h, hf _ h, hg _ _ h]

theorem abortFrame_inside {s : State} (h : Inside s) : Inside (abortFrame s) := by
  have h1 : Inside (s.setState .stopped).cancelPending :=
    cancelPending_inside (registers_of h.registers rfl (le_refl _) (le_refl _))
  exact inside_andThen h1 fun _ => log_inside _ (setBusy_inside _ h1)

theorem setSample_inside {s : State} {t : Ms} (ht : t ≤ s.env.clock) (h : Inside s) : Inside (s.setSample t) := by
  obtain ⟨⟨h1, h2, h3, h4, h5⟩, h6⟩ := h
  refine ⟨⟨?_, ?_, ?_, ?_, ?_⟩, ?_⟩ <;> simp only [State.setSample_sched, State.setSample_env, Scheduler.sample] <;>
    (try intro hl) <;> split
  all_goals first | exact h1 | exact h2 | exact h3 | exact ht | exact h4 | exact h5 hl | exact h6 hl | skip
  all_goals exact h6 (by simpa [State.live, State.setSample, Scheduler.sample, *] using hl)

theorem countFrame_inside {s : State} (h : Inside s) : Inside s.countFrame :=
  ⟨⟨h.registers.rate_pos, h.registers.interval_eq, h.registers.sample_le, h.registers.start_le, h.registers.issued⟩,
    h.stopped_idle⟩

theorem statistics_inside {s : State} (h : Inside s) : Inside (statistics s) :=
  have h1 := hostNow_inside (countFrame_inside h)
  inside_andThen h1 fun _ => setSample_inside (le_of_eq (hostNow_reading _)) h1

theorem pacing_inside {s : State} (h : Inside s) : Inside (pacing s) := by
  rw [pacing]
  refine inside_andThen (hostNow_inside h) fun _ => ?_
  split
  · rename_i hm
    simp only [Scheduler.maySchedule, Bool.and_eq_true, decide_eq_true_eq] at hm
    exact schedule_inside _ hm.1 (hostNow_inside h)
  · exact hostNow_inside h

theorem notify_inside {s : State} (h : Inside s) : Inside (notify s) :=
  inside_andThen (inside_kept.frameComplete h) fun _ => setBusy_inside _ (inside_kept.frameComplete h)

theorem frameTail_inside {s : State} (h : Inside s) : Inside (frameTail s) := by
  unfold frameTail
  split
  · exact setBusy_inside _ h
  · have h1 : Inside ((statistics s).andThen pacing) :=
      inside_andThen (statistics_inside h) fun _ => pacing_inside (statistics_inside h)
    exact inside_andThen h1 fun _ => notify_inside h1

theorem countCycles_inside (r : Nat) {s : State} (h : Inside s) : Inside (countCycles r s) :=
  setAcc_inside _ (inside_kept.timerStep r h)

theorem frameLoop_inside (n : Nat) : ∀ {s : State}, Inside s → Inside (frameLoop n s) := by
  induction n with
  | zero => exact frameTail_inside
  | succ n ih =>
    intro s h
    unfold frameLoop
    split
    · split
      · exact setBusy_inside _ h
      · exact afterCpu_inside (inside_kept.cpuStep (log_inside _ h)) (fun _ k => abortFrame_inside k) fun r u k =>
          inside_andThen (inside_kept.ppuStep r k) fun _ => ih (countCycles_inside r (inside_kept.ppuStep r k))
    · exact frameTail_inside h

theorem frameEntry_inside {s : State} {t : Ms} (ht : t ≤ s.env.clock) (h : Inside s) :
    Inside ((s.setFrameStart t).setAcc 0) :=
  ⟨⟨h.registers.rate_pos, h.registers.interval_eq, h.registers.sample_le, ht, h.registers.issued⟩, h.stopped_idle⟩

theorem runFrame_inside {s : State} (h : Inside s) : Inside (runFrame s) := by
  unfold runFrame
  split
  · exact h
  · have h1 := hostNow_inside (setBusy_inside true h)
    exact inside_andThen h1 fun _ => frameLoop_inside _ (frameEntry_inside (le_of_eq (hostNow_reading _)) h1)

theorem setPending_none_inside {s : State} (h : Inside s) : Inside (s.setPending none) :=
  ⟨setPending_none_registers h.registers, fun _ _ => rfl⟩

theorem fireBody_inside {s : State} (h : Inside s) : Inside (fireBody s) := by
  unfold fireBody
  split
  · exact h
  · exact runFrame_inside (clockTo_inside _ (setPending_none_inside h))

theorem dstepBody_inside {s : State} (h : Inside s) : Inside (dstepBody s) :=
  afterCpu_inside (inside_kept.cpuStep (log_inside _ (setBusy_inside true h))) (fun _ k => abortFrame_inside k) fun r _ k =>
    inside_andThen (inside_kept.ppuStep r k) fun _ => setBusy_inside _ (inside_kept.timerStep r (inside_kept.ppuStep r k))

theorem sresetBody_inside {s : State} (h : Inside s) : Inside (sresetBody s) := by
  have h1 := inside_kept.collabCall .cpuReset (o := .cpuReset) rfl (setBusy_inside true h)
  have h2 := andThen_keeps h1 fun _ => inside_kept.collabCall .ppuReset (o := .ppuReset) rfl
  have h3 := andThen_keeps h2 fun _ => inside_kept.timerReset
  have h4 := andThen_keeps h3 fun _ => inside_kept.collabCall .inputReset (o := .inputReset) rfl
  exact inside_andThen h4 fun _ => setBusy_inside _ h4

/-! ### `S.busy`: kept by everything that runs inside an operation, cleared by an operation that ends -/

theorem hostCall_busy (c : Call) (o : Output) (s : State) : (hostCall c o s).sched.busy = s.sched.busy := by
  rw [hostCall_sched]

theorem schedule_busy (delay : Ms) (s : State) : (s.schedule delay).sched.busy = s.sched.busy :=
  andThen_keeps (P := fun t => t.sched.busy = s.sched.busy) (hostCall_busy _ _ s) fun _ h => h

theorem cancelPending_busy (s : State) : s.cancelPending.sched.busy = s.sched.busy := by
  unfold State.cancelPending
  split
  · rfl
  · exact andThen_keeps (P := fun t => t.sched.busy = s.sched.busy) (hostCall_busy _ _ s) fun _ h => h

theorem startOp_busy (s : State) : (startOp s).sched.busy = s.sched.busy := by
  unfold startOp
  split
  exacts [rfl, schedule_busy 0 (s.setState .running)]

theorem stopOp_busy (s : State) : (stopOp s).sched.busy = s.sched.busy := by
  unfold stopOp
  split
  exacts [rfl, cancelPending_busy (s.setState .stopped)]

theorem busy_kept (b : Bool) : Kept fun t => t.sched.busy = b where
  answers k h := by rw [k.sched]; exact h
  raise _ _ h := h
  hang _ _ h := h
  log _ _ _ h := h
  timers _ _ h := h
  flags _ _ h := h
  rate _ _ _ h := h
  start s h := (startOp_busy s).trans h
  stop s h := (stopOp_busy s).trans h

/-- The block is still inside its operation, or it has stopped for good. -/
theorem abortFrame_busy (s : State) (h : (abortFrame s).live = true) : (abortFrame s).sched.busy = false := by
  obtain ⟨_, he⟩ | ⟨hl, he⟩ := andThen_cases (s.setState .stopped).cancelPending
    fun s1 => (s1.setBusy false).log .cpuStepFailure
  · rw [abortFrame, he]; rfl
  · rw [abortFrame, he, hl] at h; cases h

theorem andThen_busy {s : State} {k : State → State} (hk : (k s).live = true → (k s).sched.busy = false)
    (h : (s.andThen k).live = true) : (s.andThen k).sched.busy = false := by
  obtain ⟨_, he⟩ | ⟨hl, he⟩ := andThen_cases s k <;> rw [he] at h ⊢
  · exact hk h
  · rw [hl] at h; cases h

theorem frameTail_busy (s : State) (h : (frameTail s).live = true) : (frameTail s).sched.busy = false := by
  unfold frameTail at h ⊢
  split at h
  · rfl
  · exact andThen_busy (fun h1 => andThen_busy (fun _ => rfl) h1) h

theorem afterCpu_busy {res : CpuResult × State} {f : State → State} {g : Nat → State → State}
    (hf : ∀ u, (f u).live = true → (f u).sched.busy = false)
    (hg : ∀ r u, (g r u).live = true → (g r u).sched.busy = false)
    (h : (afterCpu res f g).live = true) : (afterCpu res f g).sched.busy = false := by
  refine andThen_busy (fun h1 => ?_) h
  revert h1
  split <;> intro h1
  · simp at h1
  · exact hf _ h1
  · exact hf _ h1
  · exact hg _ _ h1

theorem frameLoop_busy (n : Nat) : ∀ s : State, (frameLoop n s).live = true → (frameLoop n s).sched.busy = false := by
  induction n with
  | zero => exact frameTail_busy
  | succ n ih =>
    intro s
    unfold frameLoop
    split
    · split
      · exact fun _ => rfl
      · exact afterCpu_busy abortFrame_busy fun r u => andThen_busy (ih _)
    · exact frameTail_busy s

end Sys2Proof.Machine
end

