-- ==== Sys2Proof/Laws/PerInstr.lean ====
section
/-! SUPPORT. Per-instruction lemmas: one per constructor of `Instr`. -/

namespace Sys2Proof.Laws.EncodedFields

/-- The word of `i` carries `i`'s operation code, and the index field is used only by the two commands that have one
(30_encoding.md R72, R73). -/
def Statement (i : Instr) : Prop :=
  opField (encode i) = i.op ∧ (i.op = 0x03 ∨ i.op = 0x04 ∨ idxField (encode i) = 0)

theorem treset : Statement (.treset) := ⟨opField_pack _ _ _ _, Or.inr (Or.inr (idxField_pack _ _ _ _))⟩
theorem tstep (a : Word) : Statement (.tstep a) := ⟨opField_pack _ _ _ _, Or.inr (Or.inr (idxField_pack _ _ _ _))⟩
theorem twctl (a : Byte) (b : Byte) : Statement (.twctl a b) := ⟨opField_pack _ _ _ _, Or.inl rfl⟩
theorem twrld (a : Byte) (b : Half) : Statement (.twrld a b) := ⟨opField_pack _ _ _ _, Or.inr (Or.inl rfl)⟩
theorem busr (a : Word) : Statement (.busr a) := ⟨opField_pack _ _ _ _, Or.inr (Or.inr (idxField_pack _ _ _ _))⟩
theorem busw (a : Half) (b : Word) : Statement (.busw a b) := ⟨opField_pack _ _ _ _, Or.inr (Or.inr (idxField_pack _ _ _ _))⟩
theorem sreset : Statement (.sreset) := ⟨opField_pack _ _ _ _, Or.inr (Or.inr (idxField_pack _ _ _ _))⟩
theorem start : Statement (.start) := ⟨opField_pack _ _ _ _, Or.inr (Or.inr (idxField_pack _ _ _ _))⟩
theorem stop : Statement (.stop) := ⟨opField_pack _ _ _ _, Or.inr (Or.inr (idxField_pack _ _ _ _))⟩
theorem fire : Statement (.fire) := ⟨opField_pack _ _ _ _, Or.inr (Or.inr (idxField_pack _ _ _ _))⟩
theorem dstep : Statement (.dstep) := ⟨opField_pack _ _ _ _, Or.inr (Or.inr (idxField_pack _ _ _ _))⟩
theorem setfps (a : Word) : Statement (.setfps a) := ⟨opField_pack _ _ _ _, Or.inr (Or.inr (idxField_pack _ _ _ _))⟩
theorem busrTm0cnt : Statement (.busrTm0cnt) := ⟨opField_pack _ _ _ _, Or.inr (Or.inr (idxField_pack _ _ _ _))⟩
theorem buswTm0cnt (a : Half) : Statement (.buswTm0cnt a) := ⟨opField_pack _ _ _ _, Or.inr (Or.inr (idxField_pack _ _ _ _))⟩
theorem busrTm1cnt : Statement (.busrTm1cnt) := ⟨opField_pack _ _ _ _, Or.inr (Or.inr (idxField_pack _ _ _ _))⟩
theorem buswTm1cnt (a : Half) : Statement (.buswTm1cnt a) := ⟨opField_pack _ _ _ _, Or.inr (Or.inr (idxField_pack _ _ _ _))⟩
theorem busrTm2cnt : Statement (.busrTm2cnt) := ⟨opField_pack _ _ _ _, Or.inr (Or.inr (idxField_pack _ _ _ _))⟩
theorem buswTm2cnt (a : Half) : Statement (.buswTm2cnt a) := ⟨opField_pack _ _ _ _, Or.inr (Or.inr (idxField_pack _ _ _ _))⟩
theorem busrTm3cnt : Statement (.busrTm3cnt) := ⟨opField_pack _ _ _ _, Or.inr (Or.inr (idxField_pack _ _ _ _))⟩
theorem buswTm3cnt (a : Half) : Statement (.buswTm3cnt a) := ⟨opField_pack _ _ _ _, Or.inr (Or.inr (idxField_pack _ _ _ _))⟩
theorem busrTm0ctl : Statement (.busrTm0ctl) := ⟨opField_pack _ _ _ _, Or.inr (Or.inr (idxField_pack _ _ _ _))⟩
theorem buswTm0ctl (a : Half) : Statement (.buswTm0ctl a) := ⟨opField_pack _ _ _ _, Or.inr (Or.inr (idxField_pack _ _ _ _))⟩
theorem busrTm1ctl : Statement (.busrTm1ctl) := ⟨opField_pack _ _ _ _, Or.inr (Or.inr (idxField_pack _ _ _ _))⟩
theorem buswTm1ctl (a : Half) : Statement (.buswTm1ctl a) := ⟨opField_pack _ _ _ _, Or.inr (Or.inr (idxField_pack _ _ _ _))⟩
theorem busrTm2ctl : Statement (.busrTm2ctl) := ⟨opField_pack _ _ _ _, Or.inr (Or.inr (idxField_pack _ _ _ _))⟩
theorem buswTm2ctl (a : Half) : Statement (.buswTm2ctl a) := ⟨opField_pack _ _ _ _, Or.inr (Or.inr (idxField_pack _ _ _ _))⟩
theorem busrTm3ctl : Statement (.busrTm3ctl) := ⟨opField_pack _ _ _ _, Or.inr (Or.inr (idxField_pack _ _ _ _))⟩
theorem buswTm3ctl (a : Half) : Statement (.buswTm3ctl a) := ⟨opField_pack _ _ _ _, Or.inr (Or.inr (idxField_pack _ _ _ _))⟩
theorem busrIf : Statement (.busrIf) := ⟨opField_pack _ _ _ _, Or.inr (Or.inr (idxField_pack _ _ _ _))⟩
theorem buswIf (a : Half) : Statement (.buswIf a) := ⟨opField_pack _ _ _ _, Or.inr (Or.inr (idxField_pack _ _ _ _))⟩

end Sys2Proof.Laws.EncodedFields
end

