-- ==== Sys2Proof/Tests/Slice0.lean ====
section
/-! SUPPORT. The model's own tests: the checks of WellFormed, decoding from words written out from 30_encoding.md, one-step
tests whose expected values are the vectors of 95_test_vectors.md, and for every statement with hypotheses a witness that
meets them. -/

namespace Sys2Proof.Tests

open Sys2Proof.Machine

-- One theorem after another: the file then needs few threads, each of which takes a large stack.
set_option Elab.async false

/-! ### WellFormed: every check refuses an ill-formed term, and passes its neighbour -/

theorem test_wf_refuses_named_busr : ¬ (Instr.busr 0x04000100).WellFormed ∧ (Instr.busr 0x04000101).WellFormed := by decide

theorem test_wf_refuses_named_busw :
    ¬ (Instr.busw 0xFFFF 0x04000202).WellFormed ∧ (Instr.busw 0xFFFF 0x04000200).WellFormed := by decide

/-- 20_memory.md R51: distinct, even addresses; 92_eei_decisions.md D1: the fields avoid EN and CAS and each other. -/
theorem test_params_wf :
    paramsWf Params.default = true ∧
    paramsWf { Params.default with tmrCtlOffset := 0 } = false ∧
    paramsWf { Params.default with tmrBase := 0x04000101 } = false ∧
    paramsWf { Params.default with tmrBase := 0xFFFFFFF8 } = false ∧
    paramsWf { Params.default with irqBit := 7 } = false ∧
    paramsWf { Params.default with selLow := 1 } = false ∧
    paramsWf { Params.default with selLow := 6 } = false ∧
    paramsWf { Params.default with selLow := 7 } = false ∧
    paramsWf { Params.default with defaultFps := 0 } = false ∧
    paramsWf { Params.default with tPowerOn := -1 } = false := by decide +kernel

/-! ### Decoding: a word for each constructor, its fields op:8, idx:8, data:16, opnd:32 written out (30_encoding.md R72,
R73) -/

theorem test_decode_timer_commands :
    decode 0b00000001_00000000_0000000000000000_00000000000000000000000000000000 = .ok .treset ∧
    decode 0b00000010_00000000_0000000000000000_10000000000000000000000000000101 = .ok (.tstep 0x80000005) ∧
    decode 0b00000011_10000001_0000000000000000_00000000000000000000000010000100 = .ok (.twctl 0x81 0x84) ∧
    decode 0b00000100_00000010_0000000000000000_00000000000000001010101111001101 = .ok (.twrld 2 0xABCD) := by decide

theorem test_decode_bus_commands :
    decode 0b00000101_00000000_0000000000000000_00000100000000000000001000000000 = .ok (.busr 0x04000200) ∧
    decode 0b00000110_00000000_1000000000000001_00000100000000000000000100010000 = .ok (.busw 0x8001 0x04000110) := by
  decide

theorem test_decode_scheduler_commands :
    decode 0b00010000_00000000_0000000000000000_00000000000000000000000000000000 = .ok .sreset ∧
    decode 0b00010001_00000000_0000000000000000_00000000000000000000000000000000 = .ok .start ∧
    decode 0b00010010_00000000_0000000000000000_00000000000000000000000000000000 = .ok .stop ∧
    decode 0b00010011_00000000_0000000000000000_00000000000000000000000000000000 = .ok .fire ∧
    decode 0b00010100_00000000_0000000000000000_00000000000000000000000000000000 = .ok .dstep ∧
    decode 0b00010101_00000000_0000000000000000_10000000000000000000000000011110 = .ok (.setfps 0x8000001E) := by decide

/-- The nine BUSR rows (30_encoding.md R71, 20_memory.md R51). -/
theorem test_decode_busr_rows :
    decode 0x0500000004000100 = .ok .busrTm0cnt ∧ decode 0x0500000004000104 = .ok .busrTm1cnt ∧
    decode 0x0500000004000108 = .ok .busrTm2cnt ∧ decode 0x050000000400010C = .ok .busrTm3cnt ∧
    decode 0x0500000004000102 = .ok .busrTm0ctl ∧ decode 0x0500000004000106 = .ok .busrTm1ctl ∧
    decode 0x050000000400010A = .ok .busrTm2ctl ∧ decode 0x050000000400010E = .ok .busrTm3ctl ∧
    decode 0x0500000004000202 = .ok .busrIf := by decide

/-- The nine BUSW rows (30_encoding.md R71, 20_memory.md R51). -/
theorem test_decode_busw_rows :
    decode 0x0600FFFF04000100 = .ok (.buswTm0cnt 0xFFFF) ∧ decode 0x0600FFFE04000104 = .ok (.buswTm1cnt 0xFFFE) ∧
    decode 0x0600800104000108 = .ok (.buswTm2cnt 0x8001) ∧ decode 0x060012340400010C = .ok (.buswTm3cnt 0x1234) ∧
    decode 0x0600008004000102 = .ok (.buswTm0ctl 0x0080) ∧ decode 0x0600FF8404000106 = .ok (.buswTm1ctl 0xFF84) ∧
    decode 0x060000C40400010A = .ok (.buswTm2ctl 0x00C4) ∧ decode 0x060000C00400010E = .ok (.buswTm3ctl 0x00C0) ∧
    decode 0x0600000004000202 = .ok (.buswIf 0x0000) := by decide

/-- 95_test_vectors.md DC1 to DC10. -/
theorem test_decode_rejects :
    decode 0x0300000000000180 = .error .nonzeroField ∧ decode 0x0700000000000000 = .error .undefinedOp ∧
    decode 0x0000000000000000 = .error .undefinedOp ∧ decode 0x0101000000000000 = .error .nonzeroField ∧
    decode 0x0200000100000005 = .error .nonzeroField ∧ decode 0x0400000000010000 = .error .nonzeroField ∧
    decode 0x0601FFFF04000100 = .error .nonzeroField ∧ decode 0x1300000000000001 = .error .nonzeroField ∧
    decode 0x0304000000000080 = .ok (.twctl 4 0x80) ∧ decode 0xFF00000000000000 = .error .undefinedOp := by decide

theorem test_table_word : decodeTableWord 64 0x1100000000000000 = some .start ∧ decodeTableWord 64 0 = none := by decide

/-! ### Small states -/

/-- The next state of an outcome, if it is one. -/
def nextOf (o : Host.Outcome State Fault Refusal) : Option State :=
  match o with
  | .next s => some s
  | .fault _ => none
  | .refused _ => none

/-- Power-on with these timers and flags. -/
def timers4 (u0 u1 u2 u3 : TimerUnit) (v : Half) : State :=
  { State.reset with timers := Vector.mk #[u0, u1, u2, u3] rfl, ifr := v }

/-- Power-on with one timer unit set. -/
def with1 (i : Unit4) (u : TimerUnit) : State := State.reset.setUnit i u

/-- Power-on with `S.busy` true. -/
def busy : State := State.reset.setBusy true

/-- Power-on with these collaborator answers. -/
def scripted (cpu : List CpuAnswer) (ppu : List PpuAnswer) (calls : List CallAnswer) (host : List Reply)
    (now : List NowAnswer) : State :=
  { State.reset with
    env := { State.reset.env with cpu := cpu, ppu := ppu, calls := calls, host := host, now := now } }

/-- `Running` with the handle `h0` pending, due at 0. -/
def started (s : State) : State :=
  { s with
    sched := { s.sched with state := .running, pending := some ⟨0, 0⟩ }
    env := { s.env with nextHandle := 1 } }

/-- A call that does nothing to the block and returns. -/
def callOk : CallAnswer := ⟨[], .ok⟩

/-- A PPU step that does nothing to the block and returns. -/
def ppuOk : PpuAnswer := ⟨[], .ok⟩

/-- A pixel buffer, told from others by its name. -/
def pixels : Framebuffer := ⟨7⟩

/-- The PPU's coming answers to `getFramebuffer`. -/
def withFbs (fbs : List FbAnswer) (s : State) : State := { s with env := { s.env with fbs := fbs } }

/-- A frame is about to run, with these collaborators. -/
def frameWith (cpu : List CpuAnswer) (ppu : List PpuAnswer) (fbs : List FbAnswer) (calls : List CallAnswer)
    (host : List Reply) (now : List NowAnswer) : State :=
  started (withFbs fbs (scripted cpu ppu calls host now))

/-- A frame is about to run: the vectors SC5 to SC11 with this CPU (`@now 0, 10, 10`). -/
def frame (cpu : List CpuAnswer) : State :=
  frameWith cpu [ppuOk, ppuOk, ppuOk] [⟨[], .buffer pixels⟩] [callOk, callOk] [.ok, .ok] [.reads 0, .reads 10, .reads 10]

/-! ### Timer commands -/

/-- 95_test_vectors.md TR1. -/
theorem test_treset_zeroes :
    (nextOf (exec .treset (timers4 .zero .zero ⟨0x1234, 0x0100, 0xC3⟩ .zero 0x0040))).map
      (fun t => (t.timers, t.ifr)) = some (Vector.replicate 4 ⟨0, 0, 0⟩, 0x0040) := by decide

/-- TR3. -/
theorem test_treset_busy :
    (nextOf (exec .treset busy)).map (fun t => t.sched.fault) = some (some (.reentrantCommand 0x01)) := by decide

/-- IN6: three cascading overflows, then unit 3's own; `IF` and the order of its writes. -/
theorem test_tstep_cascade_and_flag_order :
    (nextOf (exec (.tstep 1) (timers4 ⟨0xFFFF, 0xFFFF, 0xC0⟩ ⟨0xFFFF, 0xFFFF, 0xC4⟩ ⟨0xFFFF, 0xFFFF, 0xC4⟩
      ⟨0xFFFF, 0xFFFF, 0xC0⟩ 0))).map
      (fun t => ([t.unit 0, t.unit 1, t.unit 2, t.unit 3].map TimerUnit.counter, t.ifr, Reference.ifWrites t.trace.reverse)) =
    some ([0xFFFF, 0xFFFF, 0xFFFF, 0xFFFF], 0x0078, [0x08, 0x18, 0x38, 0x78]) := by decide

/-- S4, TS10 and TS12: unit 0 with CAS set counts, and overflows once however far; the divisors 64 and 1024. -/
theorem test_tstep_divisors_and_snap :
    (nextOf (exec (.tstep 0x2FFFF) (timers4 ⟨0, 0, 0x84⟩ ⟨0, 0, 0x84⟩ ⟨0, 0, 0x81⟩ ⟨0, 0, 0x83⟩ 0))).map
      (fun t => ([t.unit 0, t.unit 1, t.unit 2, t.unit 3].map TimerUnit.counter, t.ifr)) =
    some ([0, 1, 0x0BFF, 0x00BF], 0) := by decide

/-- S6. -/
theorem test_twctl_reloads_on_enable :
    (nextOf (exec (.twctl 0 0x80) (with1 0 ⟨0x1234, 0x5000, 0x00⟩))).map (fun t => t.unit 0) =
      some ⟨0x5000, 0x5000, 0x80⟩ := by decide

/-- WC1. -/
theorem test_twctl_enabled_stays :
    (nextOf (exec (.twctl 0 0xC3) (with1 0 ⟨0x1234, 0x5000, 0x80⟩))).map (fun t => t.unit 0) =
      some ⟨0x1234, 0x5000, 0xC3⟩ := by decide

/-- WR1. -/
theorem test_twrld_leaves_counter :
    (nextOf (exec (.twrld 1 0xABCD) (with1 1 ⟨0x0010, 0x0000, 0x80⟩))).map (fun t => t.unit 1) =
      some ⟨0x0010, 0xABCD, 0x80⟩ := by decide

/-- WR4. -/
theorem test_twrld_index :
    (nextOf (exec (.twrld 5 1) State.reset)).map (fun t => (t.sched.fault, t.timers)) =
      some (some (.configurationError 5), State.reset.timers) := by decide

/-! ### The register bus -/

/-- B9. -/
theorem test_busr_odd :
    (nextOf (exec (.busr 0x04000101) State.reset)).map (fun t => t.sched.fault) =
      some (some (.unmodelledAccess 0x04000101)) := by decide

/-- With `IF_ADDR` moved, BUSR at the new address reads `IF` (20_memory.md R51). -/
theorem test_busr_moved_if :
    (nextOf (exec (.busr 0x04000208) (State.powerOn { Params.default with ifAddr := 0x04000208, ifInit := 0x0028 }))).map
      (fun t => t.trace) = some [.busValue 0x04000208 0x0028] := by decide

/-- B10. -/
theorem test_busw_other :
    (nextOf (exec (.busw 1 0x04000110) State.reset)).map (fun t => t.sched.fault) =
      some (some (.unmodelledAccess 0x04000110)) := by decide

/-- With `TMR_BASE` moved, BUSW at the new control address is TWCTL (41_bus_registers.md R144). -/
theorem test_busw_moved_control :
    (nextOf (exec (.busw 0xFF84 0x04000306) (State.powerOn { Params.default with tmrBase := 0x04000300 }))).map
      (fun t => t.unit 1) = some ⟨0, 0, 0x84⟩ := by decide

/-- The eight timer registers with a value of their own each. -/
def mirror : State :=
  timers4 ⟨0x5000, 0xAAAA, 0x80⟩ ⟨0x0101, 0xAAAA, 0x84⟩ ⟨0x0202, 0xAAAA, 0xFB⟩ ⟨0x0042, 0x9999, 0x03⟩ 0x0028

/-- What a bus read puts out. -/
def readOut (i : Instr) : Option (List Output) := (nextOf (exec i mirror)).map fun t => t.trace

/-- B1, B3 and their neighbours. -/
theorem test_busr_counters :
    readOut .busrTm0cnt = some [.busValue 0x04000100 0x5000] ∧ readOut .busrTm1cnt = some [.busValue 0x04000104 0x0101] ∧
    readOut .busrTm2cnt = some [.busValue 0x04000108 0x0202] ∧ readOut .busrTm3cnt = some [.busValue 0x0400010C 0x0042] := by
  decide

/-- B2, B4 and their neighbours. -/
theorem test_busr_controls_and_if :
    readOut .busrTm0ctl = some [.busValue 0x04000102 0x0080] ∧ readOut .busrTm1ctl = some [.busValue 0x04000106 0x0084] ∧
    readOut .busrTm2ctl = some [.busValue 0x0400010A 0x00FB] ∧ readOut .busrTm3ctl = some [.busValue 0x0400010E 0x0003] ∧
    readOut .busrIf = some [.busValue 0x04000202 0x0028] := by decide

/-- The units and the flags after a bus write. -/
def written (i : Instr) (s : State) : Option (Vector TimerUnit 4 × Half) :=
  (nextOf (exec i s)).map fun t => (t.timers, t.ifr)

/-- B5 and its neighbours. -/
theorem test_busw_counters :
    written (.buswTm0cnt 0xFF00) mirror = some ((mirror.setUnit 0 ⟨0x5000, 0xFF00, 0x80⟩).timers, 0x0028) ∧
    written (.buswTm1cnt 0xFF00) mirror = some ((mirror.setUnit 1 ⟨0x0101, 0xFF00, 0x84⟩).timers, 0x0028) ∧
    written (.buswTm2cnt 0xFF00) mirror = some ((mirror.setUnit 2 ⟨0x0202, 0xFF00, 0xFB⟩).timers, 0x0028) ∧
    written (.buswTm3cnt 0xFF00) mirror = some ((mirror.setUnit 3 ⟨0x0042, 0xFF00, 0x03⟩).timers, 0x0028) := by decide

/-- B6, B7 and their neighbours: the upper byte is discarded, only unit 3 goes from disabled to enabled. -/
theorem test_busw_controls_and_if :
    written (.buswTm0ctl 0xFF84) mirror = some ((mirror.setUnit 0 ⟨0x5000, 0xAAAA, 0x84⟩).timers, 0x0028) ∧
    written (.buswTm1ctl 0xFF04) mirror = some ((mirror.setUnit 1 ⟨0x0101, 0xAAAA, 0x04⟩).timers, 0x0028) ∧
    written (.buswTm2ctl 0xFFC3) mirror = some ((mirror.setUnit 2 ⟨0x0202, 0xAAAA, 0xC3⟩).timers, 0x0028) ∧
    written (.buswTm3ctl 0xFF84) mirror = some ((mirror.setUnit 3 ⟨0x9999, 0x9999, 0x84⟩).timers, 0x0028) ∧
    written (.buswIf 0x0000) mirror = some (mirror.timers, 0x0000) := by decide

/-! ### The scheduler -/

/-- SC20. -/
theorem test_sreset :
    (nextOf (exec .sreset ((started (scripted [] [] [callOk, callOk, callOk] [] [])).setUnit 0 ⟨0x1234, 0x5678, 0xC3⟩))).map
      (fun t => (t.timers, t.sched.state, t.sched.pending, t.trace)) =
    some (Vector.replicate 4 ⟨0, 0, 0⟩, .running, some ⟨0, 0⟩, [.inputReset, .ppuReset, .cpuReset]) := by decide

/-- SC1. -/
theorem test_start :
    (nextOf (exec .start (scripted [] [] [] [.ok] []))).map
      (fun t => (t.sched.state, t.sched.pending.map Handle.num, t.trace)) =
    some (.running, some 0, [.hostSchedule 0 0]) := by decide

/-- SC3. -/
theorem test_stop :
    (nextOf (exec .stop (started (scripted [] [] [] [.ok] [])))).map
      (fun t => (t.sched.state, t.sched.pending, t.trace)) =
    some (.stopped, none, [.hostCancel 0]) := by decide

/-- SC7: one iteration, the overshoot kept in `S.acc`, the delay 50/3 - 10, the buffer obtained is rendered (R173); and
where the clock never answers in step 3 the frame is counted (42_scheduler.md R171, 70_reset_and_hazards.md R243). -/
theorem test_fire_frame :
    (nextOf (exec .fire (frame [⟨[], .cycles 280897⟩]))).map
      (fun t => (t.sched.acc, t.sched.frameCount, t.sched.pending.map Handle.num, t.sched.busy, t.trace)) =
      some (280897, 1, some 1, false,
        [.render pixels, .getFramebuffer, .hostSchedule 1 (20 / 3), .hostNow 10, .hostNow 10, .ppuStep 280897, .cpuStep,
          .hostNow 0]) ∧
    (nextOf (exec .fire (frameWith [⟨[], .cycles 280896⟩] [ppuOk] [] [] [] [.reads 0, .never]))).map
      (fun t => (t.sched.frameCount, t.stuck)) = some (1, some .hostNow) := by decide +kernel

/-- SC8: two iterations, then the abort. -/
theorem test_fire_abort :
    (nextOf (exec .fire (frame [⟨[], .cycles 2⟩, ⟨[], .cycles 2⟩, ⟨[], .fail⟩]))).map
      (fun t => (t.sched.state, t.sched.pending, t.sched.acc, t.sched.frameCount, t.trace)) =
    some (.stopped, none, 4, 0,
      [.cpuStepFailure, .cpuStep, .ppuStep 2, .cpuStep, .ppuStep 2, .cpuStep, .hostNow 0]) := by decide +kernel

/-- S8 with `@cpu 3`. -/
theorem test_dstep :
    (nextOf (exec .dstep ((scripted [⟨[], .cycles 3⟩] [ppuOk] [] [] []).setUnit 0 ⟨0, 0, 0x80⟩))).map
      (fun t => (t.unit 0, t.sched, t.trace)) =
    some (⟨3, 0, 0x80⟩, State.reset.sched, [.ppuStep 3, .cpuStep]) := by decide +kernel

/-- SC15; and a START inside a failing debug step is taken back (60_exceptions.md R202, 92_eei_decisions.md D16; log 19). -/
theorem test_dstep_failure :
    (nextOf (exec .dstep (scripted [⟨[], .fail⟩] [ppuOk] [] [] []))).map (fun t => (t.sched, t.trace)) =
      some (State.reset.sched, [.cpuStepFailure, .cpuStep]) ∧
    (nextOf (exec .dstep (scripted [⟨[0x1100000000000000], .fail⟩] [] [] [.ok, .ok] []))).map
      (fun t => (t.sched.state, t.sched.pending, t.sched.busy, t.trace)) =
      some (.stopped, none, false, [.cpuStepFailure, .hostCancel 0, .hostSchedule 0 0, .cpuStep]) := by decide +kernel

/-- SC17. -/
theorem test_setfps :
    (nextOf (exec (.setfps 1) State.reset)).map (fun t => (t.sched.targetFps, t.sched.interval)) = some (1, 1000) := by
  decide +kernel

/-- SC16. -/
theorem test_setfps_zero :
    (nextOf (exec (.setfps 0) State.reset)).map (fun t => (t.sched.targetFps, t.sched.fault)) =
      some (60, some (.invalidFrameRate 0)) := by decide

/-! ### Nested commands (SC10, SC21, SC22) -/

/-- SC10, with the third step's STOP. -/
theorem test_nested_stop :
    (nextOf (exec .fire (frame [⟨[], .cycles 1⟩, ⟨[], .cycles 1⟩, ⟨[0x1200000000000000], .cycles 1⟩]))).map
      (fun t => (t.sched.state, t.sched.pending, t.sched.acc, t.sched.busy, t.trace.head?)) =
    some (.stopped, none, 3, false, some (.ppuStep 1)) := by decide +kernel

/-- SC21: `render` issues STOP and cancels the handle just scheduled. -/
theorem test_nested_stop_in_render :
    (nextOf (exec .fire (frameWith [⟨[], .cycles 280896⟩] [ppuOk] [⟨[], .buffer pixels⟩] [⟨[0x1200000000000000], .ok⟩]
      [.ok, .ok] [.reads 0, .reads 10, .reads 10]))).map
      (fun t => (t.sched.state, t.sched.pending, t.sched.frameCount, t.trace.head?)) =
    some (.stopped, none, 1, some (.hostCancel 1)) := by decide +kernel

/-- SC22: STOP then START inside the CPU's step; step 4 schedules nothing. -/
theorem test_nested_restart :
    (nextOf (exec .fire (frame [⟨[0x1200000000000000, 0x1100000000000000], .cycles 280896⟩]))).map
      (fun t => (t.sched.state, t.sched.pending.map Handle.num, t.trace.count (.hostSchedule 1 0))) =
    some (.running, some 1, 1) := by decide +kernel

/-! ### Steps -/

/-- An IllegalCommand word, issued and taken (R74; F3 on the next test). -/
theorem test_step_illegal :
    (nextOf (step (State.reset.withFetchWord 64 0x0700000000000000))).map (fun t => (t.sched.fault, t.env.cmds)) =
      some (some (.illegalCommand 0x0700000000000000), []) := by decide +kernel

/-- F3: the first fault stays. -/
theorem test_step_first_fault_stays :
    (nextOf (step ((State.reset.raise (.illegalCommand 0)).withFetchWord 64 0x0500000004000101))).map
      (fun t => (t.sched.fault, t.env.cmds)) = some (some (.illegalCommand 0), []) := by decide +kernel

theorem test_step_runs_first :
    (nextOf (step (State.reset.withFetchWord 64 0x0300000000000080))).map (fun t => t.unit 0) = some ⟨0, 0, 0x80⟩ := by
  decide +kernel

/-! ### Witnesses: concrete states and operands that meet the hypotheses of each statement, at the edges of each clause -/

theorem witness_DecodeOfEncodeIsTheInstruction :
    (Instr.busr 0xFFFFFFFF).WellFormed ∧ (Instr.twctl 0xFF 0xFF).WellFormed ∧ (Instr.busw 0xFFFF 0x04000101).WellFormed := by
  decide

theorem witness_EncodeOfDecodeIsTheWord : decode 0x03FF0000000000FF = .ok (.twctl 0xFF 0xFF) := by decide

/-- An undefined operation code, and a set bit that must be zero. -/
theorem witness_WordsOutsideTheTableAreIllegalCommands :
    Reference.Illegal 0x1600000000000000 ∧ Reference.Illegal 0x0300000000000100 ∧ ¬ Reference.Illegal 0x03FF0000000000FF ∧
    State.reset.params.ifWrite = .plainStore ∧ paramsWf State.reset.params = true ∧ State.reset.live = true ∧
    (State.reset.withCmds [0x1600000000000000]).env.cmds = [0x1600000000000000] := by
  refine ⟨fun m hm => ?_, fun m hm => ?_, fun h => h _ rfl (by decide), rfl, by decide, rfl, rfl⟩
  · cases hm
  · obtain rfl : (0x0000FFFFFFFFFF00 : Cmd) = m := Option.some.inj hm
    decide

theorem witness_StepRunsTheDecodedCommand :
    State.reset.params.ifWrite = .plainStore ∧ paramsWf State.reset.params = true ∧
    decode 0x1100000000000000 = .ok .start ∧
    (State.reset.withCmds [0x1100000000000000, 0]).env.cmds = [0x1100000000000000, 0] := by decide

theorem witness_IdleBlockKeepsItsState :
    State.reset.params.ifWrite = .plainStore ∧ paramsWf State.reset.params = true ∧ State.reset.stuck = none ∧
    State.reset.env.cmds = [] := by decide

/-- Another bus; equal addresses; odd addresses. -/
theorem witness_IllegalParametersAreRefused :
    IfWrite.writeOneToClear ≠ .plainStore ∧ IfWrite.other ≠ .plainStore ∧ Params.default.ifWrite = .plainStore ∧
    ¬ ((busMap { Params.default with tmrCtlOffset := 0 }).map Prod.fst).Nodup ∧
    ∃ e ∈ busMap { Params.default with ifAddr := 0x04000203 }, e.1.toNat % 2 = 1 := by decide

theorem witness_FaultedBlockIgnoresEveryCommand :
    (State.reset.raise (.illegalCommand 0)).sched.fault = some (.illegalCommand 0) ∧
    (State.reset.raise (.illegalCommand 0)).stuck = none := by decide

theorem witness_EveryCommandAnswersANextState : (State.reset.raise (.illegalCommand 0)).stuck = none := rfl

/-- A step that takes a command and one that idles. -/
theorem witness_StepTakesNothingBack :
    (∃ t, step (State.reset.withFetchWord 64 0x1200000000000000) = .next t) ∧ ∃ t, step State.reset = .next t :=
  ⟨⟨_, rfl⟩, ⟨_, rfl⟩⟩

/-- A running block with a handle pending meets the invariant and takes a step. -/
theorem witness_StepKeepsTheInvariant :
    Invariant ((started State.reset).withFetchWord 64 0x1100000000000000) ∧
    ∃ t, step ((started State.reset).withFetchWord 64 0x1100000000000000) = .next t :=
  ⟨⟨⟨⟨by decide, rfl, le_refl _, le_refl _, fun _ h => by cases h; decide⟩, fun _ h => nomatch h⟩, fun _ => rfl⟩, ⟨_, rfl⟩⟩

theorem witness_PowerOnMeetsTheInvariant :
    paramsWf { Params.default with ifInit := 0xFFFF, defaultFps := 1, irqBit := 0, selLow := 3 } = true := by decide

theorem witness_PowerOnValues : Params.default.defaultFps = 60 := rfl

theorem witness_ControlByteFields : Params.default.irqBit = 6 ∧ Params.default.selLow = 0 := by decide

/-- Both ends of the range of `k`, bit clear and bit set. -/
theorem witness_IfSetSetsOneBitAndKeepsTheOthers :
    (ifSet 3 (timers4 .zero .zero .zero .zero 0x8041)).ifr = 0x8049 ∧
    (ifSet 6 (timers4 .zero .zero .zero .zero 0x8041)).ifr = 0x8041 := by decide

/-- For the statements on TRESET, TSTEP and SRESET, both clauses. -/
theorem witness_TresetZeroesEveryUnit :
    (State.reset.live = true ∧ State.reset.sched.busy = false) ∧ busy.live = true ∧ busy.sched.busy = true := by decide

theorem witness_TstepCompletesAndKeepsItsFrame :
    ((with1 0 ⟨0xFFFF, 0, 0xC0⟩).live = true ∧ (with1 0 ⟨0xFFFF, 0, 0xC0⟩).sched.busy = false) ∧ busy.live = true ∧
    busy.sched.busy = true := by decide

/-- With the default positions of IRQ and SEL, and with others. -/
theorem witness_TstepFollowsThePseudocode :
    Reference.Ready (with1 0 ⟨0xFFFF, 0, 0xC0⟩) ∧
    Reference.Ready (State.powerOn { Params.default with irqBit := 0, selLow := 5 }) ∧
    paramsWf { Params.default with irqBit := 0, selLow := 5 } = true :=
  ⟨⟨by decide, by decide⟩, ⟨by decide, by decide⟩, by decide⟩

/-- The sum is 0xFFFF exactly (clause 1), and one cycle less than the divisor (clause 2); unit 0 with CAS set counts too. -/
theorem witness_DirectUnitAdvancesByTheFlooredQuotient :
    Reference.Direct (with1 0 ⟨0xFFFE, 0, 0x85⟩) 0 ∧
    (((with1 0 ⟨0xFFFE, 0, 0x85⟩).unit 0).counter.toNat +
      (64 : Word).toNat / Reference.div (((with1 0 ⟨0xFFFE, 0, 0x85⟩).unit 0).control.toNat % 4) = 0xFFFF) ∧
    (63 : Word).toNat < Reference.div (((with1 0 ⟨0xFFFE, 0, 0x85⟩).unit 0).control.toNat % 4) :=
  ⟨⟨by decide, .inl rfl⟩, by decide, by decide⟩

/-- The sum is 0x10000 exactly, with IRQ set. -/
theorem witness_DirectOverflowSnapsToTheReload :
    Reference.Direct (with1 3 ⟨0xFFFF, 0x1234, 0xC0⟩) 3 ∧
    (((with1 3 ⟨0xFFFF, 0x1234, 0xC0⟩).unit 3).counter.toNat +
      (1 : Word).toNat / Reference.div (((with1 3 ⟨0xFFFF, 0x1234, 0xC0⟩).unit 3).control.toNat % 4) = 0x10000) ∧
    ((with1 3 ⟨0xFFFF, 0x1234, 0xC0⟩).unit 3).control.getLsbD 6 = true :=
  ⟨⟨by decide, .inr (by decide)⟩, by decide, by decide⟩

/-- Unit 2 counts directly into the cascade unit 3, which stands at 0xFFFF. -/
def chain (control2 : Byte) : State := timers4 .zero .zero ⟨0xFFFF, 0, control2⟩ ⟨0xFFFF, 0xAAAA, 0x84⟩ 0

/-- The predecessor disabled; enabled and just not overflowing (0 cycles); enabled and just overflowing (1 cycle). -/
theorem witness_CascadeUnitTakesOneCountPerOverflow :
    Reference.Ready (chain 0x80) ∧ Reference.DefaultFields (chain 0x80) ∧ (3 : Unit4).val = (2 : Unit4).val + 1 ∧
    ctlEnabled ((chain 0x80).unit 3).control = true ∧ ctlCascade ((chain 0x80).unit 3).control = true ∧
    ctlEnabled ((chain 0x00).unit 2).control = false ∧ Reference.Direct (chain 0x80) 2 ∧
    ((chain 0x80).unit 2).counter.toNat + (0 : Word).toNat / Reference.div (((chain 0x80).unit 2).control.toNat % 4) ≤
      0xFFFF ∧
    0xFFFF <
      ((chain 0x80).unit 2).counter.toNat + (1 : Word).toNat / Reference.div (((chain 0x80).unit 2).control.toNat % 4) :=
  ⟨⟨by decide, by decide⟩, ⟨rfl, rfl⟩, rfl, by decide, by decide, by decide, ⟨by decide, .inr (by decide)⟩, by decide,
    by decide⟩

theorem witness_DisabledUnitHoldsItsValue :
    Reference.Ready (with1 1 ⟨5, 0, 0x7F⟩) ∧ ((with1 1 ⟨5, 0, 0x7F⟩).unit 1).control.getLsbD 7 = false :=
  ⟨⟨by decide, by decide⟩, by decide⟩

/-- Two states whose unit 0 differs in bits 5:3 only. -/
theorem witness_UnusedControlBitsHaveNoEffect :
    Reference.Ready (with1 0 ⟨0, 0, 0x80⟩) ∧ Reference.DefaultFields (with1 0 ⟨0, 0, 0x80⟩) ∧
    with1 0 ⟨0, 0, 0xB8⟩ = { with1 0 ⟨0, 0, 0x80⟩ with timers := (with1 0 ⟨0, 0, 0xB8⟩).timers } ∧
    ∀ i, ((with1 0 ⟨0, 0, 0xB8⟩).unit i).counter = ((with1 0 ⟨0, 0, 0x80⟩).unit i).counter ∧
      ((with1 0 ⟨0, 0, 0xB8⟩).unit i).reload = ((with1 0 ⟨0, 0, 0x80⟩).unit i).reload ∧
      ((with1 0 ⟨0, 0, 0xB8⟩).unit i).control &&& 0xC7 = ((with1 0 ⟨0, 0, 0x80⟩).unit i).control &&& 0xC7 :=
  ⟨⟨by decide, by decide⟩, ⟨rfl, rfl⟩, rfl, by decide⟩

theorem witness_PrescalerKeepsNoRemainder :
    Reference.DefaultFields (with1 0 ⟨0, 0, 0x83⟩) ∧ Reference.Direct (with1 0 ⟨0, 0, 0x83⟩) 0 ∧
    ∀ e ∈ [1023, 1023, 0], e < Reference.div (((with1 0 ⟨0, 0, 0x83⟩).unit 0).control.toNat % 4) :=
  ⟨⟨rfl, rfl⟩, ⟨by decide, .inl rfl⟩, by decide⟩

/-- The last unit and the first index that is none; the statements on TWCTL, TWRLD and the index check. -/
theorem witness_TwctlStoresAndReloadsOnEnable :
    State.reset.live = true ∧ busy.live = true ∧ (3 : Byte).toNat = (3 : Unit4).val := by decide

theorem witness_TwrldStoresTheReloadOnly :
    State.reset.live = true ∧ busy.live = true ∧ (0 : Byte).toNat = (0 : Unit4).val := by decide

theorem witness_IndexOutOfRangeIsAConfigurationError :
    State.reset.live = true ∧ 4 ≤ (4 : Byte).toNat ∧ 4 ≤ (255 : Byte).toNat := by decide

theorem witness_BusReadReturnsTheLiveRegister : mirror.live = true ∧ addrsWf mirror.params = true := by decide

theorem witness_BusWriteRoutesToTheTimerOperations : mirror.live = true ∧ addrsWf mirror.params = true := by decide

/-- The odd address above TM3CTL. -/
theorem witness_OtherAddressesAreUnmodelled :
    mirror.live = true ∧ (∀ i, (0x0400010F : Word) ≠ cntAddr mirror.params i) ∧
    (∀ i, (0x0400010F : Word) ≠ ctlAddr mirror.params i) ∧ (0x0400010F : Word) ≠ mirror.params.ifAddr := by decide

theorem witness_BusReadRowsReturnTheirRegister : mirror.live = true ∧ Reference.DefaultAddresses mirror :=
  ⟨by decide, rfl, rfl, rfl⟩

theorem witness_BusWriteRowsWriteTheirRegister : mirror.live = true ∧ Reference.DefaultAddresses mirror :=
  ⟨by decide, rfl, rfl, rfl⟩

theorem witness_BusAccessesNeverAdvanceATimer : mirror.stuck = none ∧ busy.stuck = none := by decide

theorem witness_StartSchedulesTheFirstFrameOnce :
    (started State.reset).live = true ∧ (started State.reset).sched.state = .running ∧
    (scripted [] [] [] [.ok] []).live = true ∧ (scripted [] [] [] [.ok] []).sched.state = .stopped ∧
    (scripted [] [] [] [.ok] []).env.host = [.ok] := by decide

/-- Stopped; running with nothing pending (after a FIRE has taken the handle); running with `h0` pending. -/
theorem witness_StopCancelsThePendingHandle :
    State.reset.live = true ∧ State.reset.sched.state = .stopped ∧
    ((started State.reset).setPending none).sched.state = .running ∧
    ((started State.reset).setPending none).sched.pending = none ∧
    (frame []).live = true ∧ (frame []).sched.state = .running ∧ (frame []).sched.pending = some ⟨0, 0⟩ ∧
    (frame []).env.host = .ok :: [.ok] := by decide +kernel

theorem witness_SetfpsRecomputesTheInterval :
    State.reset.live = true ∧ busy.live = true ∧ (1 : Word) ≠ 0 ∧ (0xFFFFFFFF : Word) ≠ 0 ∧ (0 : Word) = 0 := by decide

theorem witness_FireWithNothingPendingRunsNoFrame :
    State.reset.live = true ∧ State.reset.sched.pending = none ∧ busy.live = true ∧ busy.sched.pending = none ∧
    (frame []).live = true ∧ (frame []).sched.state = .running ∧ (frame []).sched.pending = some ⟨0, 0⟩ ∧
    (frame []).env.host = .ok :: [.ok] ∧ (nextOf (exec .stop (frame []))).isSome = true := by decide +kernel

/-- Every command from a stopped block; one that the second clause lets a START follow; a running and a busy block. -/
theorem witness_StoppedBlockRunsNoFrame :
    State.reset.live = true ∧ State.reset.sched.state = .stopped ∧ State.reset.sched.pending = none ∧
    Instr.fire ≠ .start ∧ Instr.fire ≠ .dstep ∧ Instr.fire ≠ .sreset ∧ State.reset.stuck = none ∧
    (scripted [⟨[encode .start], .cycles 1⟩] [ppuOk] [] [.ok] []).stuck = none ∧
    (scripted [⟨[encode .start], .cycles 1⟩] [ppuOk] [] [.ok] []).sched.state = .stopped ∧
    (scripted [⟨[encode .start], .cycles 1⟩] [ppuOk] [] [.ok] []).sched.pending = none ∧
    (frame []).stuck = none ∧ (frame []).sched.pending ≠ none ∧ busy.stuck = none := by decide

/-- Two iterations, the second of which just reaches the budget. -/
theorem witness_FireRunsACompleteFrame :
    Reference.Ready (frame [⟨[], .cycles 280895⟩, ⟨[], .cycles 1⟩]) ∧
    (frame [⟨[], .cycles 280895⟩, ⟨[], .cycles 1⟩]).sched.state = .running ∧
    (frame [⟨[], .cycles 280895⟩, ⟨[], .cycles 1⟩]).sched.pending = some ⟨0, 0⟩ ∧
    (∀ r ∈ [280895, 1], 0 < r) ∧ [280895, 1].dropLast.sum < 280896 ∧ 280896 ≤ [280895, 1].sum ∧
    (frame [⟨[], .cycles 280895⟩, ⟨[], .cycles 1⟩]).env.cpu = [280895, 1].map (fun r => ⟨[], .cycles r⟩) ++ [] ∧
    (frame []).env.ppu = List.replicate [280895, 1].length ⟨[], .ok⟩ ++ [ppuOk] ∧
    (frame []).env.now = [.reads 0, .reads 10, .reads 10] ∧ (frame []).env.host = .ok :: [.ok] ∧
    (frame []).env.fbs = ⟨[], .buffer pixels⟩ :: [] ∧ (frame []).env.calls = ⟨[], .ok⟩ :: [callOk] ∧
    (frame []).env.clock ≤ 0 ∧ (⟨0, 0⟩ : Handle).due ≤ 0 ∧ (0 : Ms) ≤ 10 ∧ (10 : Ms) ≤ 10 :=
  ⟨⟨by decide, by decide⟩, rfl, rfl, by decide, by decide, by decide, rfl, rfl, rfl, rfl, rfl, rfl, le_refl _,
    le_refl _, by decide +kernel, le_refl _⟩

/-- One cycle below the budget, then a failure or a 0; a failure on the first step; a STOP and a START before the failure. -/
theorem witness_CpuFailureAbortsTheFrame :
    Reference.Ready (frame [⟨[], .cycles 280895⟩, ⟨[], .cycles 0⟩]) ∧
    (∀ r ∈ [280895], 0 < r) ∧ [280895].sum < 280896 ∧
    (frame [⟨[], .cycles 280895⟩, ⟨[], .cycles 0⟩]).env.cpu =
      [280895].map (fun r => ⟨[], .cycles r⟩) ++ ⟨[], .cycles 0⟩ :: [] ∧
    (frame [⟨[], .fail⟩]).env.cpu = ([] : List Nat).map (fun r => ⟨[], .cycles r⟩) ++ ⟨[], .fail⟩ :: [] ∧
    (frame [⟨[encode .stop, encode .start], .fail⟩]).env.cpu =
      ([] : List Nat).map (fun r => ⟨[], .cycles r⟩) ++ ⟨[encode .stop, encode .start], .fail⟩ :: [] ∧
    (frame []).env.host = .ok :: .ok :: [] ∧
    (frame []).sched.state = .running ∧ (frame []).sched.pending = some ⟨0, 0⟩ ∧
    (frame []).env.ppu = List.replicate [280895].length ⟨[], .ok⟩ ++ [ppuOk, ppuOk] ∧
    (frame []).env.now = .reads 0 :: [.reads 10, .reads 10] ∧ (frame []).env.clock ≤ 0 ∧ (⟨0, 0⟩ : Handle).due ≤ 0 :=
  ⟨⟨by decide, by decide⟩, by decide, by decide, rfl, rfl, rfl, rfl, rfl, rfl, rfl, rfl, le_refl _, le_refl _⟩

/-- A debug step whose CPU issues a START and fails. -/
theorem witness_CpuStepFailureLeavesTheBlockStopped :
    ∃ t outs, exec .dstep (scripted [⟨[encode .start], .fail⟩] [] [] [.ok, .ok] []) = .next t ∧
      t.trace = outs ++ (scripted [⟨[encode .start], .fail⟩] [] [] [.ok, .ok] []).trace ∧ .cpuStepFailure ∈ outs :=
  ⟨_, [.cpuStepFailure, .hostCancel 0, .hostSchedule 0 0, .cpuStep], rfl, by decide +kernel, by decide⟩

/-- The stop comes in the iteration that also reaches the budget. -/
theorem witness_StopInsideAFrameAbandonsIt :
    Reference.Ready (frame [⟨[], .cycles 280895⟩, ⟨[encode .stop], .cycles 1⟩]) ∧
    (∀ q ∈ [280895], 0 < q) ∧ 0 < 1 ∧ [280895].sum < 280896 ∧
    (frame [⟨[], .cycles 280895⟩, ⟨[encode .stop], .cycles 1⟩]).env.cpu =
      [280895].map (fun q => ⟨[], .cycles q⟩) ++ ⟨[encode .stop], .cycles 1⟩ :: [] ∧
    (frame []).sched.state = .running ∧ (frame []).sched.pending = some ⟨0, 0⟩ ∧
    (frame []).env.ppu = List.replicate ([280895].length + 1) ⟨[], .ok⟩ ++ [ppuOk] ∧
    (frame []).env.now = .reads 0 :: [.reads 10, .reads 10] ∧ (frame []).env.clock ≤ 0 ∧ (⟨0, 0⟩ : Handle).due ≤ 0 :=
  ⟨⟨by decide, by decide⟩, by decide, by decide, by decide, rfl, rfl, rfl, rfl, rfl, le_refl _, le_refl _⟩

/-- The reading comes exactly 1000 ms after the last sample, and just before; it never comes. -/
theorem witness_StatisticsSampleOncePerSecond :
    (scripted [] [] [] [] [.reads 1000]).live = true ∧
    (scripted [] [] [] [] [.reads 1000]).env.now = .reads 1000 :: [] ∧
    (scripted [] [] [] [] [.reads 1000]).env.clock ≤ 1000 ∧
    (scripted [] [] [] [] [.reads (1999 / 2)]).env.clock ≤ 1999 / 2 ∧
    (1000 : Ms) - (scripted [] [] [] [] [.reads 1000]).sched.lastSampleTime ≥ 1000 ∧
    ¬ (1999 / 2 : Ms) - (scripted [] [] [] [] [.reads (1999 / 2)]).sched.lastSampleTime ≥ 1000 ∧
    (scripted [] [] [] [] [.never]).live = true ∧ (scripted [] [] [] [] [.never]).env.now = .never :: [] :=
  ⟨by decide, rfl, by decide +kernel, by decide +kernel, by decide +kernel, by decide +kernel, rfl, rfl⟩

/-- Running with nothing pending; running with a handle (after a nested STOP and START); stopped. -/
theorem witness_PacingSchedulesAfterTheRestOfTheInterval :
    (frame []).live = true ∧ (frame []).env.now = .reads 0 :: [.reads 10, .reads 10] ∧ (frame []).env.clock ≤ 0 ∧
    (frame []).env.host = .ok :: [.ok] ∧
    (((frame []).setPending none).sched.state = .running ∧ ((frame []).setPending none).sched.pending = none) ∧
    ¬ ((frame []).sched.state = .running ∧ (frame []).sched.pending = none) ∧
    ¬ (((frame []).setState .stopped).sched.state = .running ∧ ((frame []).setState .stopped).sched.pending = none) :=
  ⟨by decide, rfl, le_refl _, rfl, ⟨rfl, rfl⟩, fun h => (nomatch h.2), fun h => (nomatch h.1)⟩

theorem witness_FrameStartsNoEarlierThanItsHandleIsDue :
    Reference.Ready (frame []) ∧ (frame []).sched.state = .running ∧ (frame []).sched.pending = some ⟨0, 0⟩ :=
  ⟨⟨by decide, by decide⟩, rfl, rfl⟩

/-- A count of 1; a failure; a failure after a START; running; busy while stopped. -/
theorem witness_DstepRunsOneStepOfEach :
    (scripted [⟨[], .cycles 1⟩] [ppuOk] [] [] []).live = true ∧
    (scripted [⟨[], .cycles 1⟩] [ppuOk] [] [] []).sched.busy = false ∧
    (scripted [⟨[], .cycles 1⟩] [ppuOk] [] [] []).sched.state = .stopped ∧ 0 < 1 ∧
    (scripted [⟨[], .cycles 1⟩] [ppuOk] [] [] []).env.cpu = ⟨[], .cycles 1⟩ :: [] ∧
    (scripted [⟨[], .cycles 1⟩] [ppuOk] [] [] []).env.ppu = ⟨[], .ok⟩ :: [] ∧
    (scripted [⟨[], .cycles 0⟩] [ppuOk] [] [] []).env.cpu = ⟨[], .cycles 0⟩ :: [] ∧
    (scripted [⟨[], .cycles 0⟩] [ppuOk] [] [] []).sched.pending = none ∧
    (scripted [⟨[encode .start], .fail⟩] [] [] [.ok, .ok] []).env.cpu = ⟨[encode .start], .fail⟩ :: [] ∧
    (scripted [⟨[encode .start], .fail⟩] [] [] [.ok, .ok] []).env.host = .ok :: .ok :: [] ∧
    (scripted [⟨[encode .start], .fail⟩] [] [] [.ok, .ok] []).sched.pending = none ∧
    (started State.reset).live = true ∧ (started State.reset).sched.state = .running ∧
    busy.live = true ∧ busy.sched.busy = true ∧ busy.sched.state = .stopped := by decide

theorem witness_SresetResetsTimersAndCollaborators :
    (scripted [] [] [callOk, callOk, callOk] [] []).live = true ∧
    (scripted [] [] [callOk, callOk, callOk] [] []).sched.busy = false ∧
    (scripted [] [] [callOk, callOk, callOk] [] []).env.calls = ⟨[], .ok⟩ :: ⟨[], .ok⟩ :: ⟨[], .ok⟩ :: [] ∧
    busy.live = true ∧ busy.sched.busy = true := by decide

/-- One state for the stopped clauses, one each for STOP, the later resets, the observer's calls and the cancel. -/
theorem witness_FailingCollaboratorStopsTheOperation :
    (Reference.Ready (scripted [⟨[], .cycles 1⟩] [⟨[], .fail⟩] [⟨[], .fail⟩] [.fail] []) ∧
      (scripted [⟨[], .cycles 1⟩] [⟨[], .fail⟩] [⟨[], .fail⟩] [.fail] []).sched.state = .stopped ∧ 0 < 1 ∧
      (scripted [⟨[], .cycles 1⟩] [⟨[], .fail⟩] [⟨[], .fail⟩] [.fail] []).env.host = .fail :: [] ∧
      (scripted [⟨[], .cycles 1⟩] [⟨[], .fail⟩] [⟨[], .fail⟩] [.fail] []).env.calls = ⟨[], .fail⟩ :: [] ∧
      (scripted [⟨[], .cycles 1⟩] [⟨[], .fail⟩] [⟨[], .fail⟩] [.fail] []).env.cpu = ⟨[], .cycles 1⟩ :: [] ∧
      (scripted [⟨[], .cycles 1⟩] [⟨[], .fail⟩] [⟨[], .fail⟩] [.fail] []).env.ppu = ⟨[], .fail⟩ :: []) ∧
    (Reference.Ready (started (scripted [] [] [] [.fail] [])) ∧
      (started (scripted [] [] [] [.fail] [])).sched.state = .running ∧
      (started (scripted [] [] [] [.fail] [])).sched.pending = some ⟨0, 0⟩ ∧
      (started (scripted [] [] [] [.fail] [])).env.host = .fail :: []) ∧
    (Reference.Ready (scripted [] [] [callOk, callOk, ⟨[], .fail⟩] [] []) ∧
      (scripted [] [] [callOk, ⟨[], .fail⟩] [] []).env.calls = ⟨[], .ok⟩ :: ⟨[], .fail⟩ :: [] ∧
      (scripted [] [] [callOk, callOk, ⟨[], .fail⟩] [] []).env.calls = ⟨[], .ok⟩ :: ⟨[], .ok⟩ :: ⟨[], .fail⟩ :: []) ∧
    (Reference.Ready (withFbs [⟨[], .buffer pixels⟩]
        (scripted [⟨[], .cycles 1⟩] [⟨[.endOfFrame], .ok⟩] [⟨[], .fail⟩] [] [])) ∧
      (scripted [⟨[], .cycles 1⟩] [⟨[.endOfFrame], .ok⟩] [⟨[], .fail⟩] [] []).sched.state = .stopped ∧
      (scripted [⟨[], .cycles 1⟩] [⟨[.endOfFrame], .ok⟩] [⟨[], .fail⟩] [] []).env.ppu = ⟨.endOfFrame :: [], .ok⟩ :: [] ∧
      (withFbs [⟨[], .fail⟩] State.reset).env.fbs = ⟨[], .fail⟩ :: [] ∧
      (withFbs [⟨[], .buffer pixels⟩] State.reset).env.fbs = ⟨[], .buffer pixels⟩ :: []) ∧
    Reference.Ready (scripted [⟨[encode .start], .fail⟩] [] [] [.ok, .fail] []) ∧
      (scripted [⟨[encode .start], .fail⟩] [] [] [.ok, .fail] []).sched.state = .stopped ∧
      (scripted [⟨[encode .start], .fail⟩] [] [] [.ok, .fail] []).env.cpu = ⟨[encode .start], .fail⟩ :: [] ∧
      (scripted [⟨[encode .start], .fail⟩] [] [] [.ok, .fail] []).env.host = .ok :: .fail :: [] :=
  ⟨⟨⟨by decide, by decide⟩, rfl, by decide, rfl, rfl, rfl, rfl⟩, ⟨⟨by decide, by decide⟩, rfl, rfl, rfl⟩,
    ⟨⟨by decide, by decide⟩, rfl, rfl⟩, ⟨⟨by decide, by decide⟩, rfl, rfl, rfl, rfl⟩, ⟨by decide, by decide⟩, rfl, rfl, rfl⟩

/-- A frame that has begun, whatever its collaborators. -/
theorem frame_begins (cpu : List CpuAnswer) (ppu : List PpuAnswer) (fbs : List FbAnswer) (calls : List CallAnswer)
    (host : List Reply) (now : List NowAnswer) :
    Reference.FrameBegins (frameWith cpu ppu fbs calls host (.reads 0 :: now)) ⟨0, 0⟩ 0 now :=
  ⟨⟨rfl, rfl⟩, rfl, rfl, rfl, le_refl _, le_refl _⟩

/-- The PPU's step and the cancel in the iteration below the budget; steps 4 and 5 after a count that just reaches it. -/
theorem witness_FailingCollaboratorStopsTheFrame :
    (∀ r ∈ [280895], 0 < r) ∧ [280895].sum < 280896 ∧ 0 < 1 ∧
    (∀ r ∈ [280895, 1], 0 < r) ∧ [280895, 1].dropLast.sum < 280896 ∧ 280896 ≤ [280895, 1].sum ∧ (0 : Ms) ≤ 10 ∧
    Reference.FrameBegins (frameWith [⟨[], .cycles 280895⟩, ⟨[], .cycles 1⟩] [ppuOk, ⟨[], .fail⟩] [] [] [] [.reads 0])
      ⟨0, 0⟩ 0 [] ∧
    [(⟨[], .cycles 280895⟩ : CpuAnswer), ⟨[], .cycles 1⟩] =
      [280895].map (fun r => ⟨[], .cycles r⟩) ++ ⟨[], .cycles 1⟩ :: [] ∧
    [ppuOk, ⟨[], .fail⟩] = List.replicate [280895].length ⟨[], .ok⟩ ++ ⟨[], .fail⟩ :: [] ∧
    Reference.FrameBegins (frameWith [⟨[], .cycles 280895⟩, ⟨[encode .stop, encode .start], .fail⟩] [ppuOk] [] []
      [.ok, .fail] [.reads 0]) ⟨0, 0⟩ 0 [] ∧
    Reference.FrameBegins (frameWith [⟨[], .cycles 280895⟩, ⟨[], .cycles 1⟩] [ppuOk, ppuOk] [⟨[], .fail⟩] [] [.fail]
      [.reads 0, .reads 0, .reads 10]) ⟨0, 0⟩ 0 (.reads 0 :: .reads 10 :: []) ∧
    Reference.FrameBegins (frameWith [⟨[], .cycles 280895⟩, ⟨[], .cycles 1⟩] [ppuOk, ppuOk] [⟨[], .buffer pixels⟩]
      [⟨[], .fail⟩] [.ok] [.reads 0, .reads 0, .reads 10]) ⟨0, 0⟩ 0 (.reads 0 :: .reads 10 :: []) ∧
    [(⟨[], .cycles 280895⟩ : CpuAnswer), ⟨[], .cycles 1⟩] = [280895, 1].map (fun r => ⟨[], .cycles r⟩) ++ [] ∧
    [ppuOk, ppuOk] = List.replicate [280895, 1].length ⟨[], .ok⟩ ++ [] :=
  ⟨by decide, by decide, by decide, by decide, by decide, by decide, by decide +kernel, frame_begins .., rfl, rfl,
    frame_begins .., frame_begins .., frame_begins .., rfl, rfl⟩

/-- Busy and stopped (inside a debug step), busy with a handle pending; a command of the second clause that completes. -/
theorem witness_BusyBlockAllowsOnlySomeCommands :
    busy.live = true ∧ busy.sched.busy = true ∧ busy.sched.state = .stopped ∧
    ((frame []).setBusy true).live = true ∧ ((frame []).setBusy true).sched.busy = true ∧
    ((frame []).setBusy true).sched.pending ≠ none ∧ Instr.stop.op = 0x12 ∧
    (nextOf (exec .stop { (frame []).setBusy true with
      sched := { ((frame []).setBusy true).sched with busy := false } })).isSome = true :=
  ⟨by decide, by decide, rfl, by decide, by decide, fun h => (nomatch h), rfl, rfl⟩

theorem witness_NestedCommandIsTheCommandWhileBusy : busy.live = true ∧ busy.sched.busy = true := by decide

/-- The four ways of a write, at the last unit; in a debug step, and in a frame whose counts stay just below the budget. -/
theorem witness_NestedTimerWriteCountsInTheSameIteration :
    addrsWf Params.default = true ∧ 0 < 1 ∧
    Reference.TimerWrite Params.default (encode (.twctl 3 0x80)) (writeControl 3 0x80) ∧
    Reference.TimerWrite Params.default (encode (.twrld 3 0xFFFF)) (writeReload 3 0xFFFF) ∧
    Reference.TimerWrite Params.default (encode (.busw 0xFF80 0x0400010E)) (writeControl 3 0x80) ∧
    Reference.TimerWrite Params.default (encode (.busw 0xFFFF 0x0400010C)) (writeReload 3 0xFFFF) ∧
    Reference.Ready (scripted [⟨[encode (.twctl 3 0x80)], .cycles 1⟩] [ppuOk] [] [] []) ∧
    (scripted [⟨[encode (.twctl 3 0x80)], .cycles 1⟩] [ppuOk] [] [] []).sched.state = .stopped ∧
    (scripted [⟨[encode (.twctl 3 0x80)], .cycles 1⟩] [ppuOk] [] [] []).env.cpu =
      ⟨[encode (.twctl 3 0x80)], .cycles 1⟩ :: [] ∧
    (scripted [⟨[encode (.twctl 3 0x80)], .cycles 1⟩] [ppuOk] [] [] []).env.ppu = ⟨[], .ok⟩ :: [] ∧
    Reference.FrameBegins (frameWith [⟨[], .cycles 280894⟩, ⟨[encode (.twctl 3 0x80)], .cycles 1⟩, ⟨[], .fail⟩]
      [ppuOk, ppuOk] [] [] [] [.reads 0]) ⟨0, 0⟩ 0 [] ∧
    (∀ q ∈ [280894], 0 < q) ∧ [280894].sum + 1 < 280896 ∧
    [(⟨[], .cycles 280894⟩ : CpuAnswer), ⟨[encode (.twctl 3 0x80)], .cycles 1⟩, ⟨[], .fail⟩] =
      [280894].map (fun q => ⟨[], .cycles q⟩) ++ ⟨[encode (.twctl 3 0x80)], .cycles 1⟩ :: ⟨[], .fail⟩ :: [] ∧
    [ppuOk, ppuOk] = List.replicate ([280894].length + 1) ⟨[], .ok⟩ ++ [] :=
  ⟨by decide, by decide, ⟨3, .inl ⟨3, 0x80, rfl, rfl, rfl⟩⟩, ⟨3, .inr (.inl ⟨3, 0xFFFF, rfl, rfl, rfl⟩)⟩,
    ⟨3, .inr (.inr (.inl ⟨0xFF80, by decide, rfl⟩))⟩, ⟨3, .inr (.inr (.inr ⟨0xFFFF, by decide, rfl⟩))⟩,
    ⟨by decide, by decide⟩, rfl, rfl, rfl, frame_begins .., by decide, by decide, rfl, rfl⟩

/-- Every check that a nested command can fail, at a boundary value; and the two calls of the host that can fail. -/
theorem witness_Raises :
    Reference.Raises busy 0 (.illegalCommand 0) ∧
    Reference.Raises busy 0x0300000000000100 (.illegalCommand 0x0300000000000100) ∧
    Reference.Raises busy (encode .treset) (.reentrantCommand 0x01) ∧
    Reference.Raises busy (encode (.tstep 0)) (.reentrantCommand 0x02) ∧
    Reference.Raises busy (encode .sreset) (.reentrantCommand 0x10) ∧
    Reference.Raises (frame []) (encode .fire) (.reentrantCommand 0x13) ∧
    Reference.Raises (frame []) (encode .dstep) .debugStepWhileRunning ∧
    Reference.Raises busy (encode .dstep) (.reentrantCommand 0x14) ∧
    Reference.Raises busy (encode (.twctl 4 0)) (.configurationError 4) ∧
    Reference.Raises busy (encode (.twrld 4 0)) (.configurationError 4) ∧
    Reference.Raises busy (encode (.busr 0x04000110)) (.unmodelledAccess 0x04000110) ∧
    Reference.Raises busy (encode (.busw 0 0x04000101)) (.unmodelledAccess 0x04000101) ∧
    Reference.Raises busy (encode (.setfps 0)) (.invalidFrameRate 0) ∧
    (∃ t, Reference.Stops (scripted [] [] [] [.fail] []) (encode .start) t) ∧
    ∃ t, Reference.Stops (started (scripted [] [] [] [.fail] [])) (encode .stop) t :=
  ⟨.illegal _ fun _ h => (nomatch h), .illegal _ fun m h => by
      rw [show Reference.reservedBits (opField 0x0300000000000100) = some 0x0000FFFFFFFFFF00 from rfl] at h
      cases h
      decide,
    .treset, .tstep 0, .sreset, .fire (by decide), .dstepRunning (by decide), .dstepBusy (by decide),
    .twctl 4 0 (by decide), .twrld 4 0 (by decide), .busr _ (by decide), .busw 0 _ (by decide), .setfps,
    ⟨_, .start rfl rfl⟩, ⟨_, .stop rfl rfl rfl⟩⟩

/-- A TSTEP as the only command of a call stops it, in every live state. -/
theorem nested_tstep_stops (v : State) (h : v.live = true) :
    ∃ t, Reference.NestedStops [encode (.tstep 0)] v t :=
  ⟨_, [], _, [], rfl, h, .checks (.tstep 0)⟩

/-- The CPU, after a STOP that runs, and the PPU (a command; an observer call), in the iteration below the budget. -/
theorem witness_NestedFaultStopsTheFrame :
    Reference.FrameBegins (frameWith [⟨[], .cycles 280895⟩, ⟨[encode .stop, encode .dstep, encode .start], .cycles 1⟩]
      [ppuOk] [] [] [] [.reads 0]) ⟨0, 0⟩ 0 [] ∧
    (∀ r ∈ [280895], 0 < r) ∧ [280895].sum < 280896 ∧ 0 < 1 ∧
    (∃ t, Reference.NestedStops [encode .stop, encode .dstep, encode .start]
      { Reference.inFrame (frameWith [⟨[], .cycles 280895⟩, ⟨[encode .stop, encode .dstep, encode .start], .cycles 1⟩]
          [ppuOk] [] [] [] [.reads 0]) 0 [280895] [] [] [] with trace := [] } t) ∧
    Reference.FrameBegins (frameWith [⟨[], .cycles 280895⟩, ⟨[], .cycles 1⟩]
      [ppuOk, ⟨[.command (encode (.tstep 0)), .endOfFrame], .ok⟩] [] [] [] [.reads 0]) ⟨0, 0⟩ 0 [] ∧
    (∃ t, Reference.PpuActsStop [.command (encode (.tstep 0)), .endOfFrame]
      (Reference.inFrame (frameWith [⟨[], .cycles 280895⟩, ⟨[], .cycles 1⟩]
        [ppuOk, ⟨[.command (encode (.tstep 0)), .endOfFrame], .ok⟩] [] [] [] [.reads 0]) 0 [280895] [] [] []) t) ∧
    Reference.FrameBegins (frameWith [⟨[], .cycles 280895⟩, ⟨[], .cycles 1⟩] [ppuOk, ⟨[.endOfFrame], .ok⟩]
      [⟨[encode (.tstep 0)], .fail⟩] [] [] [.reads 0]) ⟨0, 0⟩ 0 [] ∧
    ∃ t, Reference.PpuActsStop [.endOfFrame]
      (Reference.inFrame (frameWith [⟨[], .cycles 280895⟩, ⟨[], .cycles 1⟩] [ppuOk, ⟨[.endOfFrame], .ok⟩]
        [⟨[encode (.tstep 0)], .fail⟩] [] [] [.reads 0]) 0 [280895] [] [] []) t :=
  ⟨frame_begins .., by decide, by decide, by decide,
    ⟨_, [encode .stop], _, [encode .start], rfl, rfl, .checks (.dstepBusy rfl)⟩, frame_begins ..,
    ⟨_, [], _, [.endOfFrame], rfl, rfl, .inl ⟨_, rfl, .checks (.tstep 0)⟩⟩, frame_begins ..,
    (nested_tstep_stops _ rfl).imp fun _ h => ⟨[], _, [], rfl, rfl, .inr ⟨rfl, .inl ⟨_, _, _, rfl, h⟩⟩⟩⟩

/-- Step 5, after a count that just reaches the budget: the PPU in `getFramebuffer`, Presentation in `render`. -/
theorem witness_NestedFaultStopsTheFrame_step5 :
    (∀ r ∈ [280895, 1], 0 < r) ∧ [280895, 1].dropLast.sum < 280896 ∧ 280896 ≤ [280895, 1].sum ∧ (0 : Ms) ≤ 10 ∧
    Reference.FrameBegins (frameWith [⟨[], .cycles 280895⟩, ⟨[], .cycles 1⟩] [ppuOk, ppuOk]
      [⟨[encode (.tstep 0)], .fail⟩] [] [.ok] [.reads 0, .reads 0, .reads 10]) ⟨0, 0⟩ 0 (.reads 0 :: .reads 10 :: []) ∧
    (∃ t, Reference.FrameCompleteStops (Reference.paced (Reference.timed (Reference.inFrame
      (frameWith [⟨[], .cycles 280895⟩, ⟨[], .cycles 1⟩] [ppuOk, ppuOk] [⟨[encode (.tstep 0)], .fail⟩] [] [.ok]
        [.reads 0, .reads 0, .reads 10]) 0 [280895, 1] [] [] [.reads 0, .reads 10]) 0 10 []) 0 10 []) t) ∧
    Reference.FrameBegins (frameWith [⟨[], .cycles 280895⟩, ⟨[], .cycles 1⟩] [ppuOk, ppuOk] [⟨[], .buffer pixels⟩]
      [⟨[encode (.tstep 0)], .ok⟩] [.ok] [.reads 0, .reads 0, .reads 10]) ⟨0, 0⟩ 0 (.reads 0 :: .reads 10 :: []) ∧
    ∃ t, Reference.FrameCompleteStops (Reference.paced (Reference.timed (Reference.inFrame
      (frameWith [⟨[], .cycles 280895⟩, ⟨[], .cycles 1⟩] [ppuOk, ppuOk] [⟨[], .buffer pixels⟩]
        [⟨[encode (.tstep 0)], .ok⟩] [.ok] [.reads 0, .reads 0, .reads 10]) 0 [280895, 1] [] [] [.reads 0, .reads 10])
      0 10 []) 0 10 []) t :=
  ⟨by decide, by decide, by decide, by decide +kernel, frame_begins ..,
    (nested_tstep_stops _ rfl).imp fun _ h => .inl ⟨_, _, _, rfl, h⟩, frame_begins ..,
    (nested_tstep_stops _ rfl).imp fun _ h => .inr ⟨_, _, _, _, _, rfl, rfl, h⟩⟩

/-- In a debug step the CPU and the PPU; in a reset each of the three. -/
theorem witness_NestedFaultStopsTheOperation :
    Reference.Ready (scripted [⟨[encode (.tstep 0)], .fail⟩] [] [] [] []) ∧
    (scripted [⟨[encode (.tstep 0)], .fail⟩] [] [] [] []).sched.state = .stopped ∧
    (scripted [⟨[encode (.tstep 0)], .fail⟩] [] [] [] []).env.cpu = ⟨[encode (.tstep 0)], .fail⟩ :: [] ∧
    (∃ t, Reference.NestedStops [encode (.tstep 0)] busy t) ∧
    Reference.Ready (scripted [⟨[], .cycles 1⟩] [⟨[.command (encode (.tstep 0))], .ok⟩] [] [] []) ∧ 0 < 1 ∧
    (scripted [⟨[], .cycles 1⟩] [⟨[.command (encode (.tstep 0))], .ok⟩] [] [] []).env.ppu =
      ⟨[.command (encode (.tstep 0))], .ok⟩ :: [] ∧
    (∃ t, Reference.PpuActsStop [.command (encode (.tstep 0))] busy t) ∧
    Reference.Ready (scripted [] [] [callOk, callOk, ⟨[encode (.tstep 0)], .ok⟩] [] []) ∧
    (scripted [] [] [⟨[encode (.tstep 0)], .ok⟩] [] []).env.calls = ⟨[encode (.tstep 0)], .ok⟩ :: [] ∧
    (scripted [] [] [callOk, ⟨[encode (.tstep 0)], .ok⟩] [] []).env.calls =
      ⟨[], .ok⟩ :: ⟨[encode (.tstep 0)], .ok⟩ :: [] ∧
    (scripted [] [] [callOk, callOk, ⟨[encode (.tstep 0)], .ok⟩] [] []).env.calls =
      ⟨[], .ok⟩ :: ⟨[], .ok⟩ :: ⟨[encode (.tstep 0)], .ok⟩ :: [] :=
  ⟨⟨by decide, by decide⟩, rfl, rfl, nested_tstep_stops _ rfl, ⟨by decide, by decide⟩, by decide, rfl,
    ⟨_, [], _, [], rfl, rfl, .inl ⟨_, rfl, .checks (.tstep 0)⟩⟩, ⟨by decide, by decide⟩, rfl, rfl, rfl⟩

/-- In a debug step, and in a frame one cycle below the budget. -/
theorem witness_HungCpuLeavesTheBlockStuck :
    Reference.Ready (scripted [⟨[], .never⟩] [] [] [] []) ∧
    (scripted [⟨[], .never⟩] [] [] [] []).sched.state = .stopped ∧
    (scripted [⟨[], .never⟩] [] [] [] []).env.cpu = ⟨[], .never⟩ :: [] ∧
    Reference.FrameBegins (frameWith [⟨[], .cycles 280895⟩, ⟨[], .never⟩] [ppuOk] [] [] [] [.reads 0]) ⟨0, 0⟩ 0 [] ∧
    (∀ r ∈ [280895], 0 < r) ∧ [280895].sum < 280896 ∧
    [(⟨[], .cycles 280895⟩ : CpuAnswer), ⟨[], .never⟩] = [280895].map (fun r => ⟨[], .cycles r⟩) ++ ⟨[], .never⟩ :: [] ∧
    [ppuOk] = List.replicate [280895].length ⟨[], .ok⟩ ++ [] :=
  ⟨⟨by decide, by decide⟩, rfl, rfl, frame_begins .., by decide, by decide, rfl, rfl⟩

/-- Two observer calls with a buffer each, and none; in a debug step, and in a frame that stays just below the budget. -/
theorem witness_ObserverCallsChangeNoRegister :
    Reference.Ready (withFbs [⟨[], .buffer pixels⟩, ⟨[], .buffer ⟨8⟩⟩]
      (scripted [⟨[], .cycles 1⟩] [⟨[.endOfFrame, .endOfFrame], .ok⟩] [callOk, callOk] [] [])) ∧
    (scripted [⟨[], .cycles 1⟩] [⟨[.endOfFrame, .endOfFrame], .ok⟩] [callOk, callOk] [] []).sched.state = .stopped ∧ 0 < 1 ∧
    (scripted [⟨[], .cycles 1⟩] [⟨[.endOfFrame, .endOfFrame], .ok⟩] [callOk, callOk] [] []).env.cpu =
      ⟨[], .cycles 1⟩ :: [] ∧
    (scripted [⟨[], .cycles 1⟩] [⟨[.endOfFrame, .endOfFrame], .ok⟩] [callOk, callOk] [] []).env.ppu =
      ⟨List.replicate [pixels, ⟨8⟩].length .endOfFrame, .ok⟩ :: [] ∧
    (withFbs [⟨[], .buffer pixels⟩, ⟨[], .buffer ⟨8⟩⟩] State.reset).env.fbs =
      [pixels, ⟨8⟩].map (fun fb => ⟨[], .buffer fb⟩) ++ [] ∧
    (scripted [⟨[], .cycles 1⟩] [⟨[.endOfFrame, .endOfFrame], .ok⟩] [callOk, callOk] [] []).env.calls =
      List.replicate [pixels, ⟨8⟩].length ⟨[], .ok⟩ ++ [] ∧
    (scripted [⟨[], .cycles 1⟩] [ppuOk] [] [] []).env.ppu =
      ⟨List.replicate ([] : List Framebuffer).length .endOfFrame, .ok⟩ :: [] ∧
    Reference.FrameBegins (frameWith [⟨[], .cycles 280894⟩, ⟨[], .cycles 1⟩, ⟨[], .fail⟩]
      [ppuOk, ⟨[.endOfFrame, .endOfFrame], .ok⟩] [⟨[], .buffer pixels⟩, ⟨[], .buffer ⟨8⟩⟩] [callOk, callOk] []
      [.reads 0]) ⟨0, 0⟩ 0 [] ∧
    (∀ q ∈ [280894], 0 < q) ∧ [280894].sum + 1 < 280896 ∧
    [(⟨[], .cycles 280894⟩ : CpuAnswer), ⟨[], .cycles 1⟩, ⟨[], .fail⟩] =
      [280894].map (fun q => ⟨[], .cycles q⟩) ++ ⟨[], .cycles 1⟩ :: ⟨[], .fail⟩ :: [] ∧
    [ppuOk, ⟨[.endOfFrame, .endOfFrame], .ok⟩] = List.replicate [280894].length ⟨[], .ok⟩ ++
      ⟨List.replicate [pixels, ⟨8⟩].length .endOfFrame, .ok⟩ :: [] :=
  ⟨⟨by decide, by decide⟩, rfl, by decide, rfl, rfl, rfl, rfl, rfl, frame_begins .., by decide, by decide, rfl, rfl⟩

end Sys2Proof.Tests
end

section
/-! One step takes the command at the head of the queue, and every command completes (00_scope.md R3). -/

namespace Sys2Proof.Machine

/-! ### The step -/

/-- With parameters that the machine accepts a step serves the queue. -/
theorem step_eq_serve {s : State} (hif : s.params.ifWrite = .plainStore) (hwf : paramsWf s.params = true) :
    step s = serve s := by
  simp [step, hif, hwf]

/-- A word at the head of the queue that decodes runs as its instruction, in the state without it. -/
theorem serve_of_decode {s : State} {w : Cmd} {rest : List Cmd} {i : Instr} (hc : s.env.cmds = w :: rest)
    (hd : decode w = .ok i) : serve s = exec i (s.withCmds rest) := by
  simp only [serve, hc, hd]

/-- A word of 64 bits is issued as it is, before all others. -/
theorem withFetchWord_toNat (s : State) (w : Cmd) : s.withFetchWord 64 w.toNat = s.withCmds (w :: s.env.cmds) := by
  rw [State.withFetchWord, Nat.mod_eq_of_lt w.isLt, BitVec.ofNat_toNat, BitVec.setWidth_eq]

/-- A state whose queue is replaced and then given back is as it was. -/
theorem withCmds_withCmds_self (s : State) (ws : List Cmd) : (s.withCmds ws).withCmds s.env.cmds = s := rfl

/-- Settles O5: the first clause is the step itself; in the second, taking the command put first gives the queue back. -/
theorem stepRunsTheDecodedCommand : Obligations.StepRunsTheDecodedCommand := by
  intro s w i hif hwf hd
  constructor
  · intro rest hc
    rw [step_eq_serve hif hwf, serve_of_decode hc hd]
    rfl
  · calc step (s.withFetchWord 64 w.toNat)
        = serve (s.withCmds (w :: s.env.cmds)) := by
          rw [withFetchWord_toNat, step_eq_serve (by exact hif) (by exact hwf)]
      _ = exec i ((s.withCmds (w :: s.env.cmds)).withCmds s.env.cmds) := serve_of_decode rfl hd
      _ = exec i s := by rw [withCmds_withCmds_self]

/-! ### Completion -/

/-- Where no call hangs a command answers a next state: its operation's, or after a fault the state itself. -/
theorem command_answers {s : State} (hs : s.stuck = none) (f : State → State) : ∃ t, command f s = .next t := by
  by_cases hf : s.sched.fault = none
  · exact ⟨f s, command_of_live ((live_iff s).mpr ⟨hf, hs⟩) f⟩
  · exact ⟨s, command_of_fault hs hf f⟩

/-- Settles O9: every instruction is one operation run as a command. -/
theorem everyCommandAnswersANextState : Obligations.EveryCommandAnswersANextState := by
  intro i s hs
  obtain ⟨f, hf⟩ := exec_eq_command i
  rw [hf]
  exact command_answers hs f

end Sys2Proof.Machine
end

section
/-! What one step keeps (10_state.md R38, R41, R47; 42_scheduler.md R164), and the state at power-on (R43 to R45). -/

namespace Sys2Proof.Machine

/-! ### A property that every operation keeps is kept by a step -/

/-- A property that an operation keeps is kept by its command: after a fault the command does nothing. -/
theorem command_keeps {P : State → Prop} {f : State → State} {s t : State} (hf : P s → P (f s)) (hs : P s)
    (h : command f s = .next t) : P t := by
  obtain ⟨_, rfl⟩ | ⟨_, rfl⟩ := command_next_cases h
  exacts [hf hs, hs]

/-- The three commands with a body of their own are named; every other one is an operation that may also run nested. -/
theorem exec_keeps {P : State → Prop} (k : Kept P) (hsreset : ∀ u, P u → P (sresetBody u))
    (hfire : ∀ u, P u → P (fireBody u)) (hdstep : ∀ u, P u → P (dstepBody u)) (i : Instr) {s t : State} (hs : P s)
    (h : exec i s = .next t) : P t := by
  by_cases h1 : i = .sreset
  · subst h1
    exact command_keeps (fun hp => k.unlessBusy _ hp (hsreset s hp)) hs h
  by_cases h2 : i = .fire
  · subst h2
    exact command_keeps (fun hp => k.fireGate hp (hfire s hp)) hs h
  by_cases h3 : i = .dstep
  · subst h3
    exact command_keeps (fun hp => k.dstepGate hp (hdstep s hp)) hs h
  rw [exec_eq_nestedOp h1 h2 h3] at h
  exact command_keeps (k.nestedOp i) hs h

/-- A step that answers a next state has served the queue. -/
theorem serve_of_step {s t : State} (h : step s = .next t) : serve s = .next t := by
  unfold step at h
  split at h
  · cases h
  split at h
  · cases h
  exact h

/-- A step takes the head of the queue and runs what it decodes to, raises `IllegalCommand`, or idles; so it keeps what
those keep. -/
theorem step_keeps {P : State → Prop} (k : Kept P) (hsreset : ∀ u, P u → P (sresetBody u))
    (hfire : ∀ u, P u → P (fireBody u)) (hdstep : ∀ u, P u → P (dstepBody u)) {s t : State}
    (hs : P (s.withCmds s.env.cmds.tail)) (h : step s = .next t) : P t := by
  replace h := serve_of_step h
  unfold serve at h
  split at h
  · rename_i hc
    rw [hc] at hs
    have hself : s.withCmds [] = s := by rw [← hc]; rfl
    rw [List.tail_nil, hself] at hs
    exact command_keeps id hs h
  · rename_i w rest hc
    rw [hc] at hs
    split at h
    · exact exec_keeps k hsreset hfire hdstep _ hs h
    · exact command_keeps (k.raise _ _) hs h

/-- Settles O10: everything that a command runs extends the state in which it is run. -/
theorem stepTakesNothingBack : Obligations.StepTakesNothingBack := fun s _ h =>
  step_keeps (extends_kept (s.withCmds s.env.cmds.tail))
    (fun u hu => hu.trans (sresetBody_extends u)) (fun u hu => hu.trans (fireBody_extends u))
    (fun u hu => hu.trans (dstepBody_extends u)) (.refl _) h

/-! ### No operation is in progress between commands -/

/-- What has stopped the block stays, so a live block was live before. -/
theorem Extends.live_of_live {s t : State} (e : Extends s t) (h : t.live = true) : s.live = true := by
  obtain ⟨hf, hs⟩ := (live_iff t).mp h
  refine (live_iff s).mpr ⟨Option.eq_none_iff_forall_ne_some.mpr fun f h1 => ?_,
    Option.eq_none_iff_forall_ne_some.mpr fun c h1 => ?_⟩
  · exact nomatch hf.symm.trans (e.fault f h1)
  · exact nomatch hs.symm.trans (e.stuck c h1)

/-- A live block has no operation in progress (10_state.md R41). -/
def IdleWhileLive (s : State) : Prop := s.live = true → s.sched.busy = false

/-- An update that keeps `S.busy` and makes no stopped block live. -/
theorem idleWhileLive_of {s t : State} (h : IdleWhileLive s) (hb : t.sched.busy = s.sched.busy)
    (hl : t.live = true → s.live = true) : IdleWhileLive t :=
  fun ht => hb.trans (h (hl ht))

theorem idleWhileLive_kept : Kept IdleWhileLive where
  answers k h := idleWhileLive_of h (by rw [k.sched]) k.extends.live_of_live
  raise _ _ h := idleWhileLive_of h rfl (by simp)
  hang _ _ h := idleWhileLive_of h rfl (by simp)
  log _ _ _ h := h
  timers _ _ h := h
  flags _ _ h := h
  rate _ _ _ h := h
  start s h := idleWhileLive_of h (startOp_busy s) (startOp_extends s).live_of_live
  stop s h := idleWhileLive_of h (stopOp_busy s) (stopOp_extends s).live_of_live

theorem sresetBody_idle (s : State) : IdleWhileLive (sresetBody s) := andThen_busy fun _ => rfl

theorem dstepBody_idle (s : State) : IdleWhileLive (dstepBody s) :=
  afterCpu_busy abortFrame_busy fun _ _ => andThen_busy fun _ => rfl

theorem runFrame_idle {s : State} (h : IdleWhileLive s) : IdleWhileLive (runFrame s) := by
  unfold runFrame
  split
  · exact h
  · exact andThen_busy (frameLoop_busy _ _)

theorem fireBody_idle {s : State} (h : IdleWhileLive s) : IdleWhileLive (fireBody s) := by
  unfold fireBody
  split
  · exact h
  · exact runFrame_idle h

theorem withCmds_inside {s : State} (ws : List Cmd) (h : Inside s) : Inside (s.withCmds ws) :=
  inside_of h rfl (le_refl _) (le_refl _) id

/-- Settles O11: every operation keeps the invariant inside an operation, and leaves no operation in progress. -/
theorem stepKeepsTheInvariant : Obligations.StepKeepsTheInvariant := by
  intro s t hinv h
  constructor
  · exact step_keeps inside_kept (fun _ => sresetBody_inside) (fun _ => fireBody_inside) (fun _ => dstepBody_inside)
      (withCmds_inside _ hinv.inside) h
  · exact step_keeps idleWhileLive_kept (fun u _ => sresetBody_idle u) (fun _ => fireBody_idle)
      (fun u _ => dstepBody_idle u) hinv.not_busy h

/-! ### Power-on -/

theorem powerOn_invariant {p : Params} (h : paramsWf p = true) : Invariant (State.powerOn p) := by
  have hfps : 0 < p.defaultFps := by
    simp only [paramsWf, Bool.and_eq_true, decide_eq_true_eq] at h
    obtain ⟨⟨_, hfps⟩, _⟩ := h
    exact hfps
  have hreg : Registers (State.powerOn p) := ⟨hfps, rfl, le_refl _, le_refl _, fun _ hp => nomatch hp⟩
  exact ⟨⟨hreg, fun _ _ => rfl⟩, fun _ => rfl⟩

/-- Settles O12: `State.reset` is power-on with the default parameters, which are a legal choice. -/
theorem powerOnMeetsTheInvariant : Obligations.PowerOnMeetsTheInvariant :=
  ⟨fun _ => powerOn_invariant, powerOn_invariant (by decide)⟩

/-- Settles O13: 1000 over the default rate of 60 is 50/3. -/
theorem powerOnValues : Obligations.PowerOnValues := by
  intro p hp
  refine ⟨fun i => ?_, rfl, ?_⟩
  · simp [State.unit, State.powerOn, TimerUnit.zero]
  · have hint : (1000 : Ms) / ((60 : Nat) : Ms) = 50 / 3 := by norm_num
    change Scheduler.powerOn p = _
    rw [Scheduler.powerOn, hp, hint]

end Sys2Proof.Machine
end

section
/-! What a TSTEP leaves of a unit: a disabled one, one that counts too few cycles, and the control bits 5:3 (10_state.md
R24, R28, R30). -/

namespace Sys2Proof.Machine

/-- A TSTEP of a block that is not busy is the timer step. -/
theorem exec_tstep_of_ready {s : State} (h : Reference.Ready s) (cycles : Word) :
    exec (.tstep cycles) s = .next (timerStep (natOfOpnd cycles) s) := by
  obtain ⟨hl, hb⟩ := h
  exact (command_of_live hl _).trans (by rw [tstepOp, unlessBusy_of_idle hb])

/-! ### A unit that TSTEP leaves as it was -/

/-- A unit that no cascade reaches and that its own visit leaves alone is left alone by TSTEP. -/
theorem timerStep_unit_of_visit {el : Nat} {s : State} {i : Unit4}
    (hc : (s.unit i).cascades = false ∨ i = 0)
    (hv : ∀ t : State, t.params = s.params → t.unit i = s.unit i → (visit el t i).unit i = s.unit i) :
    (timerStep el s).unit i = s.unit i := by
  have hstep : ∀ (t : State) (j : Unit4), t.params = s.params ∧ t.unit i = s.unit i →
      (visit el t j).params = s.params ∧ (visit el t j).unit i = s.unit i := by
    rintro t j ⟨hp, hu⟩
    obtain ⟨_, _, hvp⟩ := visit_fields el t j i
    refine ⟨hvp.trans hp, ?_⟩
    by_cases hji : j = i
    · rw [hji]; exact hv t hp hu
    · have hj : (t.unit i).cascades = false ∨ i.val < j.val := hu ▸ hc.imp id fun h0 => by
        subst h0; exact Fin.pos_iff_ne_zero.mpr hji
      exact (visit_unit_other hj hji).trans hu
  exact (foldl_keeps hstep [0, 1, 2, 3] s ⟨rfl, rfl⟩).2

theorem visit_of_disabled {el : Nat} {s : State} {i : Unit4} (h : ctlEnabled (s.unit i).control = false) :
    visit el s i = s := by
  simp [visit, h]

theorem cascades_of_disabled {u : TimerUnit} (h : ctlEnabled u.control = false) : u.cascades = false := by
  simp [TimerUnit.cascades, h]

/-- Settles O23: a disabled unit takes no cascade, and its own visit is skipped. -/
theorem disabledUnitHoldsItsValue : Obligations.DisabledUnitHoldsItsValue := by
  intro cycles s i hr hd
  refine ⟨_, exec_tstep_of_ready hr cycles, timerStep_unit_of_visit (.inl (cascades_of_disabled hd)) fun t _ hu => ?_⟩
  rw [visit_of_disabled (by rw [hu]; exact hd), hu]

@[simp] theorem count_zero (u : TimerUnit) : u.count 0 = u := by
  have hfits : u.counter.toNat + 0 ≤ 0xFFFF := by omega
  rw [TimerUnit.count, if_pos hfits]
  simp

theorem advance_of_lt {p : Params} {b : Byte} {el : Nat} (h : el < divisor (ctlSel p b)) : advance p b el = 0 :=
  Nat.div_eq_of_lt h

/-- A direct unit's visit counts its cycles. -/
theorem visit_of_direct {s : State} {i : Unit4} (h : Reference.Direct s i) (el : Nat) :
    visit el s i = inc i (advance s.params (s.unit i).control el) s := by
  obtain ⟨he, hc⟩ := h
  have hskip : (decide (0 < i.val) && ctlCascade (s.unit i).control) = false := by
    rcases hc with rfl | hc
    · rfl
    · rw [hc, Bool.and_false]
  rw [visit, he, hskip]
  rfl

/-- No cascade reaches a unit that counts directly. -/
theorem cascades_of_direct {s : State} {i : Unit4} (h : Reference.Direct s i) : (s.unit i).cascades = false ∨ i = 0 := by
  obtain ⟨_, rfl | hc⟩ := h
  · exact .inr rfl
  · exact .inl (by simp [TimerUnit.cascades, hc])

/-- Fewer cycles than its divisor leave a direct unit as it was (40_timer.md R102). -/
theorem timerStep_unit_of_direct {s : State} {i : Unit4} {el : Nat} (h : Reference.Direct s i)
    (hel : el < divisor (ctlSel s.params (s.unit i).control)) : (timerStep el s).unit i = s.unit i := by
  refine timerStep_unit_of_visit (cascades_of_direct h) fun t hp hu => ?_
  have ht : Reference.Direct t i := by rw [Reference.Direct, hu]; exact h
  rw [visit_of_direct ht, hp, hu, advance_of_lt hel, inc_unit_self, count_zero, hu]

/-- At its default position `SEL` is the control byte modulo 4. -/
theorem ctlSel_default {p : Params} (h : p.selLow = 0) (b : Byte) : ctlSel p b = b.toNat % 4 := by
  simp [ctlSel, h]

/-- The prescaler table is the spec's. -/
theorem divisor_eq_div (n : Nat) : divisor n = Reference.div n := by
  match n with
  | 0 => rfl
  | 1 => rfl
  | 2 => rfl
  | n + 3 => simp [divisor, Reference.div]

/-- Settles O25: each step leaves the unit and the parameters as they were, so the next step finds the same divisor. -/
theorem prescalerKeepsNoRemainder : Obligations.PrescalerKeepsNoRemainder := by
  intro es s i hf hd hes
  induction es generalizing s with
  | nil => rfl
  | cons e es ih =>
    have he : e < divisor (ctlSel s.params (s.unit i).control) := by
      rw [ctlSel_default hf.2, divisor_eq_div]
      exact hes e List.mem_cons_self
    have hu : (timerStep e s).unit i = s.unit i := timerStep_unit_of_direct hd he
    rw [List.foldl_cons, ih (timerStep e s), hu]
    · rw [Reference.DefaultFields, timerStep_params]; exact hf
    · rw [Reference.Direct, hu]; exact hd
    · rw [hu]; exact fun e' h' => hes e' (.tail _ h')

/-! ### The control bits 5:3 -/

/-- The unit with the unused bits 5:3 of its control byte cleared. -/
def TimerUnit.masked (u : TimerUnit) : TimerUnit := { u with control := u.control &&& 0xC7 }

/-- The state with the unused control bits of every unit cleared. -/
def State.masked (s : State) : State := { s with timers := s.timers.map TimerUnit.masked }

@[simp] theorem masked_unit (s : State) (i : Unit4) : s.masked.unit i = (s.unit i).masked := by
  simp [State.unit, State.masked]

@[simp] theorem masked_counter (u : TimerUnit) : u.masked.counter = u.counter := rfl

@[simp] theorem masked_reload (u : TimerUnit) : u.masked.reload = u.reload := rfl

@[simp] theorem masked_params (s : State) : s.masked.params = s.params := rfl

/-- Storing a unit commutes with clearing the unused bits. -/
theorem setUnit_masked (s : State) (i : Unit4) (u : TimerUnit) : s.masked.setUnit i u.masked = (s.setUnit i u).masked := by
  simp [State.masked, State.setUnit, Vector.map_set]

theorem count_masked (u : TimerUnit) (n : Nat) : u.masked.count n = (u.count n).masked := by
  unfold TimerUnit.count
  rw [masked_counter]
  split <;> rfl

/-- None of the four fields lies in the unused bits. -/
@[simp] theorem ctlEnabled_masked (u : TimerUnit) : ctlEnabled u.masked.control = ctlEnabled u.control := by
  simp [ctlEnabled, TimerUnit.masked]

@[simp] theorem ctlCascade_masked (u : TimerUnit) : ctlCascade u.masked.control = ctlCascade u.control := by
  simp [ctlCascade, TimerUnit.masked]

theorem ctlIrq_masked {p : Params} (h : p.irqBit = 6) (u : TimerUnit) :
    ctlIrq p u.masked.control = ctlIrq p u.control := by
  simp [ctlIrq, h, TimerUnit.masked]

theorem ctlSel_masked {p : Params} (h : p.selLow = 0) (u : TimerUnit) :
    ctlSel p u.masked.control = ctlSel p u.control := by
  have hmod : ((u.control &&& 0xC7).toNat) % 4 = u.control.toNat % 4 := by
    rw [BitVec.toNat_and, show (4 : Nat) = 2 ^ 2 from rfl, Nat.and_mod_two_pow]
    simpa using Nat.and_two_pow_sub_one_eq_mod (u.control.toNat % 4) 2
  rw [ctlSel_default h, ctlSel_default h]
  exact hmod

@[simp] theorem cascades_masked (u : TimerUnit) : u.masked.cascades = u.cascades := by
  simp [TimerUnit.cascades]

@[simp] theorem overflows_masked (u : TimerUnit) (n : Nat) : u.masked.overflows n = u.overflows n := rfl

theorem bump_masked {s : State} (h : Reference.DefaultFields s) (i : Unit4) (n : Nat) :
    bump i n s.masked = (bump i n s).masked := by
  unfold bump
  rw [masked_unit, overflows_masked, masked_params, ctlIrq_masked h.1, count_masked, setUnit_masked]
  split <;> rfl

theorem incAlong_masked : ∀ (is : List Unit4) (n : Nat) {s : State}, Reference.DefaultFields s →
    incAlong is n s.masked = (incAlong is n s).masked
  | [], _, _, _ => rfl
  | [i], n, _, h => bump_masked h i n
  | i :: j :: js, n, s, h => by
    have hb : Reference.DefaultFields (bump i n s) := by rw [Reference.DefaultFields, bump_params]; exact h
    rw [incAlong, incAlong, bump_masked h, masked_unit, masked_unit, overflows_masked, cascades_masked,
      incAlong_masked (j :: js) 1 hb]
    split <;> rfl

theorem visit_masked {s : State} (h : Reference.DefaultFields s) (el : Nat) (i : Unit4) :
    visit el s.masked i = (visit el s i).masked := by
  unfold visit
  rw [masked_unit, ctlEnabled_masked, ctlCascade_masked, masked_params, advance, advance, ctlSel_masked h.2]
  split
  · rfl
  split
  · rfl
  exact incAlong_masked _ _ h

/-- TSTEP takes nothing from the unused control bits: clearing them before and after it is the same. -/
theorem timerStep_masked {s : State} (h : Reference.DefaultFields s) (el : Nat) :
    timerStep el s.masked = (timerStep el s).masked := by
  have hfold : ∀ (is : List Unit4) {t : State}, Reference.DefaultFields t →
      is.foldl (visit el) t.masked = (is.foldl (visit el) t).masked := by
    intro is
    induction is with
    | nil => exact fun _ => rfl
    | cons i is ih =>
      intro t ht
      rw [List.foldl_cons, List.foldl_cons, visit_masked ht]
      obtain ⟨_, _, hp⟩ := visit_fields el t i i
      exact ih (by rw [Reference.DefaultFields, hp]; exact ht)
  exact hfold _ h

/-- Two states that differ in the unused control bits only are the same once these are cleared. -/
theorem masked_eq_of_agree {s s' : State} (hs : s' = { s with timers := s'.timers })
    (h : ∀ i, (s'.unit i).counter = (s.unit i).counter ∧ (s'.unit i).reload = (s.unit i).reload ∧
      (s'.unit i).control &&& 0xC7 = (s.unit i).control &&& 0xC7) : s'.masked = s.masked := by
  have hu : ∀ i : Unit4, (s'.unit i).masked = (s.unit i).masked := fun i => by
    obtain ⟨h1, h2, h3⟩ := h i
    simp only [TimerUnit.masked, h1, h2, h3]
  have ht : s'.timers.map TimerUnit.masked = s.timers.map TimerUnit.masked := by
    ext i hi : 1
    simpa [State.unit] using hu ⟨i, hi⟩
  rw [State.masked, ht, hs]
  rfl

/-- Two states that are the same once the unused control bits are cleared hold the same flags, outputs, counters and
reloads. -/
theorem agree_of_masked_eq {s s' : State} (h : s'.masked = s.masked) :
    s'.ifr = s.ifr ∧ s'.trace = s.trace ∧
      ∀ i, (s'.unit i).counter = (s.unit i).counter ∧ (s'.unit i).reload = (s.unit i).reload := by
  have hifr : s'.masked.ifr = s.masked.ifr := by rw [h]
  have htrace : s'.masked.trace = s.masked.trace := by rw [h]
  refine ⟨hifr, htrace, fun i => ?_⟩
  have hu : (s'.unit i).masked = (s.unit i).masked := by rw [← masked_unit, h, masked_unit]
  rw [← masked_counter, ← masked_reload, hu]
  exact ⟨rfl, rfl⟩

@[simp] theorem withControl_control (u : TimerUnit) (b : Byte) : (u.withControl b).control = b := by
  unfold TimerUnit.withControl
  split <;> rfl

/-- Settles O24: the byte is stored whole, and both TSTEPs give the same state once the unused bits are cleared. -/
theorem unusedControlBitsHaveNoEffect : Obligations.UnusedControlBitsHaveNoEffect := by
  refine ⟨fun s i b => ?_, fun cycles s s' hr hf hs h => ?_⟩
  · have hc : ((writeControl i b s).unit i).control = b := by simp [writeControl]
    exact ⟨hc, by rw [busValue, hc, halfOfByte]⟩
  · have hr' : Reference.Ready s' := by rw [hs]; exact hr
    have hf' : Reference.DefaultFields s' := by rw [hs]; exact hf
    have hm : (timerStep (natOfOpnd cycles) s').masked = (timerStep (natOfOpnd cycles) s).masked := by
      rw [← timerStep_masked hf', ← timerStep_masked hf, masked_eq_of_agree hs h]
    exact ⟨_, _, exec_tstep_of_ready hr cycles, exec_tstep_of_ready hr' cycles, agree_of_masked_eq hm⟩

end Sys2Proof.Machine
end

section
/-! The machine's refusals and the one access of IFSet (20_memory.md R51, R56, R57). -/

namespace Sys2Proof.Machine

/-! ### Parameters that the machine accepts -/

/-- What a legal choice of the parameters says of the nine addresses. -/
theorem addrs_of_paramsWf {p : Params} (h : paramsWf p = true) :
    ((busMap p).map Prod.fst).Nodup ∧ ∀ e ∈ busMap p, e.1.toNat % 2 = 0 := by
  simp only [paramsWf, addrsWf, Bool.and_eq_true, decide_eq_true_eq, List.all_eq_true] at h
  obtain ⟨⟨⟨⟨⟨hdistinct, heven⟩, _⟩, _⟩, _⟩, _⟩ := h
  refine ⟨hdistinct, fun e he => ?_⟩
  have hbit : e.1.getLsbD 0 = false := by simpa using heven e he
  simpa [BitVec.getLsbD, Nat.testBit_zero] using hbit

/-- Settles O7: the bus is checked first; then the addresses, which a legal choice makes distinct and even. -/
theorem illegalParametersAreRefused : Obligations.IllegalParametersAreRefused := by
  intro s
  refine ⟨fun hbus => by rw [step, if_pos hbus], fun hbus hclash => ?_⟩
  have hwf : paramsWf s.params = false := by
    refine Bool.eq_false_iff.mpr fun h => ?_
    obtain ⟨hdistinct, heven⟩ := addrs_of_paramsWf h
    rcases hclash with hrep | ⟨e, he, hodd⟩
    · exact hrep hdistinct
    · have := heven e he
      omega
  simp [step, hbus, hwf]

/-! ### IFSet -/

/-- Settles O16: bits 3 to 6 lie inside `IF`, and IFSet is one read, one write and no other update. -/
theorem ifSetSetsOneBitAndKeepsTheOthers : Obligations.IfSetSetsOneBitAndKeepsTheOthers := by
  intro k s _ hk
  refine ⟨fun b => ?_, rfl⟩
  rw [ifSet_ifr, ifWithBit_getLsbD _ (by omega)]

end Sys2Proof.Machine
end

section
/-! The cycle loop while no collaborator issues a command (42_scheduler.md R168 to R170), the states inside it written as
their timers' part in surroundings, and the entry of a debug step (R176). -/

namespace Sys2Proof.Machine

/-- A state whose surroundings show no fault and no hang is live. -/
theorem around_live (s : State) {c : Scheduler} (hf : c.fault = none) (e : Env) : (s.around c e none).live = true :=
  (live_iff _).mpr ⟨hf, rfl⟩

/-- A live state is its timers' part in surroundings without a hang. -/
theorem around_none_of_live {s : State} (h : s.live = true) (c : Scheduler) (e : Env) :
    s.around c e none = { s with sched := c, env := e } := by
  obtain ⟨_, hk⟩ := (live_iff s).mp h
  rw [State.around, ← hk]

/-- A PPU step that does nothing to the block. -/
theorem ppuStep_around {s : State} {c : Scheduler} {e : Env} {ppu : List PpuAnswer} (r : Nat) (hc : c.fault = none)
    (he : e.ppu = ⟨[], .ok⟩ :: ppu) :
    ppuStep r (s.around c e none) = (s.log (.ppuStep r)).around c { e with ppu := ppu } none :=
  ppuStep_ok (around_live _ hc _) he

theorem iterations_params (rs : List Nat) (s : State) : (Reference.iterations rs s).params = s.params := by
  refine foldl_keeps (P := fun t => t.params = s.params) (fun t r h => ?_) rs s rfl
  rw [timerStep_params]
  exact h

/-- Iterations of the cycle loop in which no collaborator issues a command; before each the budget is not reached. -/
theorem frameLoop_iterations {rs : List Nat} (n : Nat) {s : State} {c : Scheduler} {e : Env} {cpu : List CpuAnswer}
    {ppu : List PpuAnswer} (hf : c.fault = none) (hrun : c.state = .running) (hpos : ∀ r ∈ rs, 0 < r)
    (hb : rs ≠ [] → c.acc + rs.dropLast.sum < frameBudget)
    (hcpu : e.cpu = rs.map (fun r => ⟨[], .cycles r⟩) ++ cpu)
    (hppu : e.ppu = List.replicate rs.length ⟨[], .ok⟩ ++ ppu) :
    frameLoop (rs.length + n) (s.around c e none) =
      frameLoop n ((Reference.iterations rs s).around { c with acc := c.acc + rs.sum }
        { e with cpu := cpu, ppu := ppu } none) := by
  induction rs generalizing s c e with
  | nil =>
    obtain rfl : e.cpu = cpu := hcpu
    obtain rfl : e.ppu = ppu := hppu
    rw [List.length_nil, Nat.zero_add]
    rfl
  | cons r rs ih =>
    have hb0 : c.acc < frameBudget := by have := hb (List.cons_ne_nil r rs); omega
    have hb1 : rs ≠ [] → c.acc + r + rs.dropLast.sum < frameBudget := fun hne => by
      have := hb (List.cons_ne_nil r rs)
      rw [List.dropLast_cons_of_ne_nil hne, List.sum_cons] at this
      omega
    rw [List.length_cons, Nat.add_right_comm, frameLoop_iteration _ hf hrun hb0 (hpos r List.mem_cons_self) hcpu hppu,
      ih (c := { c with acc := c.acc + r }) hf hrun (fun q hq => hpos q (.tail _ hq)) hb1 rfl rfl, List.sum_cons]
    dsimp only
    rw [Nat.add_assoc]
    rfl

/-- A CPU step that fails ends the frame (42_scheduler.md R170); here nothing is pending, so nothing is cancelled. -/
theorem frameLoop_cpuFails {s : State} {c : Scheduler} {e : Env} {res : CpuResult} {cpu : List CpuAnswer}
    (n : Nat) (hres : res = .fail ∨ res = .cycles 0) (hf : c.fault = none) (hrun : c.state = .running)
    (hpend : c.pending = none) (hb : c.acc < frameBudget) (hcpu : e.cpu = ⟨[], res⟩ :: cpu) :
    frameLoop (n + 1) (s.around c e none) =
      ((s.log .cpuStep).log .cpuStepFailure).around { c with state := .stopped, busy := false }
        { e with cpu := cpu } none := by
  have hstep : cpuStep (s.around c e none) = (res, (s.log .cpuStep).around c { e with cpu := cpu } none) :=
    cpuStep_scripted (s := s.around c e none) hcpu
  rw [frameLoop_running (by exact hb) (by exact hrun), hstep, afterCpu_failure hres (around_live _ hf _),
    abortFrame, cancelPending_none (by exact hpend), andThen_of_live ((live_iff _).mpr ⟨hf, rfl⟩)]
  rfl

/-- The state inside a frame is its timers' part in the surroundings that the FIRE has made. -/
theorem inFrame_eq_around (s : State) (t0 : Ms) (rs : List Nat) (cpu : List CpuAnswer) (ppu : List PpuAnswer)
    (now : List NowAnswer) :
    Reference.inFrame s t0 rs cpu ppu now = (Reference.iterations rs (s.log (.hostNow t0))).around
      { s.sched with pending := none, acc := rs.sum, frameStart := t0, busy := true }
      { s.env with cpu := cpu, ppu := ppu, now := now, clock := t0 } none := by
  have hpar := iterations_params rs (s.log (.hostNow t0))
  rw [State.log_params] at hpar
  rw [Reference.inFrame, State.around, hpar]

/-- A FIRE that begins a frame runs the iterations in which no collaborator issues a command. -/
theorem fire_iterations {s : State} {h : Handle} {t0 : Ms} {rs : List Nat} {cpu : List CpuAnswer}
    {ppu : List PpuAnswer} {now : List NowAnswer} (hfr : Reference.FrameBegins s h t0 now) (hpos : ∀ r ∈ rs, 0 < r)
    (hb : rs ≠ [] → rs.dropLast.sum < frameBudget) (hcpu : s.env.cpu = rs.map (fun r => ⟨[], .cycles r⟩) ++ cpu)
    (hppu : s.env.ppu = List.replicate rs.length ⟨[], .ok⟩ ++ ppu) :
    exec .fire s = .next (frameLoop (frameBudget - rs.length) (Reference.inFrame s t0 rs cpu ppu now)) := by
  obtain ⟨⟨hl, hbusy⟩, hrun, hpend, hnow, hclock, hdue⟩ := hfr
  obtain ⟨hf, _⟩ := (live_iff s).mp hl
  have hlen : rs.length ≤ frameBudget := by
    by_cases hne : rs = []
    · simp [hne]
    · have hle := List.length_le_sum_of_one_le rs.dropLast fun r hr => hpos r (List.mem_of_mem_dropLast hr)
      rw [List.length_dropLast] at hle
      have := hb hne
      omega
  obtain ⟨n, hn⟩ := Nat.exists_eq_add_of_le hlen
  rw [fire_begins hl hbusy hrun hpend hnow hclock hdue, inFrame_eq_around, hn, Nat.add_sub_cancel_left,
    frameLoop_iterations (e := { s.env with now := now, clock := t0 }) n (by exact hf) (by exact hrun) hpos
      (fun hne => by simpa using hb hne) hcpu hppu]
  simp only [Nat.zero_add]

/-- A DSTEP of a stopped block that is not busy runs its body. -/
theorem exec_dstep_of_ready {s : State} (h : Reference.Ready s) (hs : s.sched.state = .stopped) :
    exec .dstep s = .next (dstepBody s) := by
  obtain ⟨hl, hb⟩ := h
  refine (command_of_live hl _).trans ?_
  rw [dstepGate, hs]
  exact congrArg _ (unlessBusy_of_idle hb _ _)

end Sys2Proof.Machine
end

section
/-! A timer write that the CPU issues during its step counts in the timer step of the same iteration (20_memory.md R63,
70_reset_and_hazards.md R236). -/

namespace Sys2Proof.Machine

/-! ### The words of the timer writes -/

theorem decode_encode_twctl (idx byte : Byte) : decode (encode (.twctl idx byte)) = .ok (.twctl idx byte) := by
  have hz : (byte.zeroExtend 32).extractLsb' 8 24 = 0 := BitVec.eq_of_toNat_eq (by simp; omega)
  have hb : opndByte (byte.zeroExtend 32) = byte := BitVec.eq_of_toNat_eq (by simp [opndByte]; omega)
  simp [encode, Instr.op, decodeFields, whenZero, hz, hb]

theorem decode_encode_twrld (idx : Byte) (half : Half) :
    decode (encode (.twrld idx half)) = .ok (.twrld idx half) := by
  have hz : (half.zeroExtend 32).extractLsb' 16 16 = 0 := BitVec.eq_of_toNat_eq (by simp; omega)
  have hb : opndHalf (half.zeroExtend 32) = half := BitVec.eq_of_toNat_eq (by simp [opndHalf]; omega)
  simp [encode, Instr.op, decodeFields, whenZero, hz, hb]

theorem decode_encode_busw (v : Half) (a : Word) : decode (encode (.busw v a)) = .ok (decodeBusw v a) := by
  simp [encode, Instr.op, decodeFields, whenZero]

/-- A bus write does the same at an address with a row of its own (log 8). -/
theorem nestedOp_decodeBusw (v : Half) (a : Word) (s : State) : nestedOp (decodeBusw v a) s = buswOp v a s := by
  unfold decodeBusw
  split_ifs <;> simp only [nestedOp, *]

/-- A bus write at the address of a register stores in that register. -/
theorem nestedWord_busw {s : State} {a : Word} {reg : BusReg} (hp : addrsWf s.params = true)
    (hm : (a, reg) ∈ busMap s.params) (v : Half) : nestedWord (encode (.busw v a)) s = busStore reg v s := by
  simp only [nestedWord, decode_encode_busw, nestedOp_decodeBusw, buswOp, regAt_of_mem hp hm]

/-- A timer write issued inside an operation does what its word stands for. -/
theorem nestedWord_of_timerWrite {s : State} {w : Cmd} {f : State → State} (hp : addrsWf s.params = true)
    (hw : Reference.TimerWrite s.params w f) : nestedWord w s = f s := by
  obtain ⟨i, ⟨idx, byte, hi, rfl, rfl⟩ | ⟨idx, half, hi, rfl, rfl⟩ | ⟨v, rfl, rfl⟩ | ⟨v, rfl, rfl⟩⟩ := hw
  · simp only [nestedWord, decode_encode_twctl, nestedOp, twctlOp, unitOfIdx_of_lt hi]
  · simp only [nestedWord, decode_encode_twrld, nestedOp, twrldOp, unitOfIdx_of_lt hi]
  · exact nestedWord_busw hp (control_mem _ i) v
  · exact nestedWord_busw hp (counter_mem _ i) v

/-! ### A timer write changes the timers and depends on nothing else -/

/-- `f` rewrites the timers and neither reads nor writes any other part of the state. -/
def OnTimers (f : State → State) : Prop :=
  ∃ g : Vector TimerUnit 4 → Vector TimerUnit 4, ∀ s : State, f s = { s with timers := g s.timers }

theorem onTimers_writeControl (i : Unit4) (b : Byte) : OnTimers (writeControl i b) :=
  ⟨fun ts => ts.set i (ts[i].withControl b), fun _ => rfl⟩

theorem onTimers_writeReload (i : Unit4) (v : Half) : OnTimers (writeReload i v) :=
  ⟨fun ts => ts.set i { ts[i] with reload := v }, fun _ => rfl⟩

theorem onTimers_of_timerWrite {p : Params} {w : Cmd} {f : State → State} (h : Reference.TimerWrite p w f) :
    OnTimers f := by
  obtain ⟨i, ⟨_, _, _, _, rfl⟩ | ⟨_, _, _, _, rfl⟩ | ⟨_, _, rfl⟩ | ⟨_, _, rfl⟩⟩ := h
  exacts [onTimers_writeControl i _, onTimers_writeReload i _, onTimers_writeControl i _, onTimers_writeReload i _]

namespace OnTimers

variable {f : State → State} (hf : OnTimers f)
include hf

theorem params (s : State) : (f s).params = s.params := by
  obtain ⟨g, hg⟩ := hf
  rw [hg]

/-- It may be made before a call is put out or after, and in any surroundings. -/
theorem log_around (s : State) (o : Output) (c : Scheduler) (e : Env) (h : Option Call) :
    f ((s.log o).around c e h) = ((f s).log o).around c e h := by
  obtain ⟨g, hg⟩ := hf
  rw [hg, hg]
  rfl

end OnTimers

/-! ### In an iteration and in a debug step -/

/-- A CPU step whose only command is a timer write: the write comes first, then the call has been made. -/
theorem cpuStep_timerWrite {s : State} {c : Scheduler} {e : Env} {w : Cmd} {f : State → State} {res : CpuResult}
    {cpu : List CpuAnswer} (hp : addrsWf s.params = true) (hw : Reference.TimerWrite s.params w f)
    (hc : c.fault = none) (he : e.cpu = ⟨[w], res⟩ :: cpu) :
    cpuStep (s.around c e none) = (res, ((f s).log .cpuStep).around c { e with cpu := cpu } none) := by
  rw [cpuStep_scripted (s := s.around c e none) he]
  change (res, nestedAll [w] ((s.log .cpuStep).around c { e with cpu := cpu } none)) = _
  rw [nestedAll_cons, nestedAll_nil, andThen_of_live (around_live _ hc _),
    nestedWord_of_timerWrite (by exact hp) (by exact hw), (onTimers_of_timerWrite hw).log_around]

/-- An iteration of the cycle loop in which the CPU makes a timer write: it goes on as the iteration without the write
does after it. -/
theorem frameLoop_timerWrite {s : State} {c : Scheduler} {e : Env} {w : Cmd} {f : State → State} {r : Nat}
    {cpu : List CpuAnswer} {ppu : List PpuAnswer} (n : Nat) (hp : addrsWf s.params = true)
    (hw : Reference.TimerWrite s.params w f) (hf : c.fault = none) (hrun : c.state = .running)
    (hb : c.acc < frameBudget) (hr : 0 < r) (hcpu : e.cpu = ⟨[w], .cycles r⟩ :: cpu)
    (hppu : e.ppu = ⟨[], .ok⟩ :: ppu) :
    frameLoop (n + 1) (s.around c e none) =
      frameLoop n ((Reference.iterations [r] (f s)).around { c with acc := c.acc + r }
        { e with cpu := cpu, ppu := ppu } none) := by
  rw [frameLoop_running (by exact hb) (by exact hrun), cpuStep_timerWrite hp hw hf hcpu,
    afterCpu_cycles hr (around_live _ hf _), iteration, ppuStep_around r hf (by exact hppu),
    andThen_of_live (around_live _ hf _), countCycles, timerStep_around]
  rfl

/-- A debug step in which the CPU makes a timer write: the write is in effect for its timer step. -/
theorem dstepBody_timerWrite {s : State} {w : Cmd} {f : State → State} {r : Nat} {cpu : List CpuAnswer}
    {ppu : List PpuAnswer} (hp : addrsWf s.params = true) (hw : Reference.TimerWrite s.params w f) (hr : 0 < r)
    (hs : Reference.Ready s) (hcpu : s.env.cpu = ⟨[w], .cycles r⟩ :: cpu) (hppu : s.env.ppu = ⟨[], .ok⟩ :: ppu) :
    dstepBody s =
      (Reference.iterations [r] (f s)).around s.sched { s.env with cpu := cpu, ppu := ppu } none := by
  obtain ⟨hl, hb⟩ := hs
  obtain ⟨hf, _⟩ := (live_iff s).mp hl
  have hbusy : s.setBusy true = s.around { s.sched with busy := true } s.env none := (around_none_of_live hl _ _).symm
  rw [dstepBody, hbusy, cpuStep_timerWrite hp hw (by exact hf) hcpu, afterCpu_cycles hr (around_live _ (by exact hf) _),
    ppuStep_around r (by exact hf) (by exact hppu), andThen_of_live (around_live _ (by exact hf) _), timerStep_around]
  change State.around _ { s.sched with busy := false } _ _ = _
  rw [← hb]
  rfl

/-- A frame in which the CPU makes a timer write after any iterations: the write is in effect for the timer step of its
iteration; the CPU step after it fails and ends the frame. -/
theorem fire_timerWrite {s : State} {h : Handle} {t0 : Ms} {w : Cmd} {f : State → State} {r : Nat} {rs : List Nat}
    {cpu : List CpuAnswer} {ppu : List PpuAnswer} {now : List NowAnswer} (hfr : Reference.FrameBegins s h t0 now)
    (hp : addrsWf s.params = true) (hw : Reference.TimerWrite s.params w f) (hpos : ∀ q ∈ rs, 0 < q) (hr : 0 < r)
    (hsum : rs.sum + r < frameBudget)
    (hcpu : s.env.cpu = rs.map (fun q => ⟨[], .cycles q⟩) ++ ⟨[w], .cycles r⟩ :: ⟨[], .fail⟩ :: cpu)
    (hppu : s.env.ppu = List.replicate (rs.length + 1) ⟨[], .ok⟩ ++ ppu) :
    exec .fire s = .next
      ((((Reference.iterations [r] (f (Reference.iterations rs (s.log (.hostNow t0))))).log .cpuStep).log
        .cpuStepFailure).around
        { s.sched with state := .stopped, pending := none, acc := rs.sum + r, frameStart := t0 }
        { s.env with cpu := cpu, ppu := ppu, now := now, clock := t0 } none) := by
  have hdrop : rs.dropLast.sum ≤ rs.sum := (List.dropLast_sublist rs).sum_le_sum (by simp)
  have hlen : rs.length ≤ rs.sum := List.length_le_sum_of_one_le rs hpos
  obtain ⟨n, hn⟩ : ∃ n, frameBudget - rs.length = n + 1 + 1 := ⟨frameBudget - rs.length - 2, by omega⟩
  have ⟨⟨hl, hbusy⟩, hrun, _, _, _, _⟩ := hfr
  obtain ⟨hf, _⟩ := (live_iff s).mp hl
  have hpar : (Reference.iterations rs (s.log (.hostNow t0))).params = s.params := iterations_params _ _
  rw [List.replicate_succ', List.append_assoc] at hppu
  rw [fire_iterations hfr hpos (fun _ => by omega) hcpu hppu, hn, inFrame_eq_around,
    frameLoop_timerWrite (n + 1) (by rwa [hpar]) (by rwa [hpar]) (by exact hf) (by exact hrun) (by dsimp only; omega) hr
      (by rfl) (by rfl),
    frameLoop_cpuFails n (.inl rfl) (by exact hf) (by exact hrun) (by rfl) (by exact hsum) (by rfl), ← hbusy]
  rfl

/-- Settles O53: the write changes the timers alone, so it commutes with the call that is put out, and the timer step
finds it. -/
theorem nestedTimerWriteCountsInTheSameIteration : Obligations.NestedTimerWriteCountsInTheSameIteration := by
  intro s w f r cpu ppu hp hw hr
  have hpar (t : State) : (Reference.iterations [r] (f t)).params = t.params := by
    rw [iterations_params, (onTimers_of_timerWrite hw).params]
  refine ⟨fun hs hst hcpu hppu => ?_, fun h t0 rs now hfr hpos hsum hcpu hppu => ?_⟩
  · rw [exec_dstep_of_ready hs hst, dstepBody_timerWrite hp hw hr hs hcpu hppu, State.around, hpar]
  · rw [fire_timerWrite hfr hp hw hpos hr hsum hcpu hppu, State.around]
    simp only [State.log_params, State.log_timers, State.log_ifr, State.log_trace, hpar, iterations_params]

end Sys2Proof.Machine
end

section
/-! The decoder and the encoder are inverse to each other, and a word is rejected exactly where the opcode table's masks
say so (30_encoding.md R72 to R75). -/

namespace Sys2Proof

open Sys2Proof.Reference

/-! ### The bus commands: one row for each default address, one for all others (30_encoding.md R71) -/

theorem busr_wellFormed_iff {a : Word} : (Instr.busr a).WellFormed ↔ a ∉ namedAddrs := by
  simp [Instr.WellFormed, Instr.wf]

theorem busw_wellFormed_iff {v : Half} {a : Word} : (Instr.busw v a).WellFormed ↔ a ∉ namedAddrs := by
  simp [Instr.WellFormed, Instr.wf]

theorem decodeBusr_of_wellFormed {a : Word} (h : (Instr.busr a).WellFormed) : decodeBusr a = .busr a := by
  simp_all [busr_wellFormed_iff, namedAddrs, decodeBusr]

theorem decodeBusw_of_wellFormed {v : Half} {a : Word} (h : (Instr.busw v a).WellFormed) :
    decodeBusw v a = .busw v a := by
  simp_all [busw_wellFormed_iff, namedAddrs, decodeBusw]

/-- The command read at an address is one that the table has, with that address in its word. -/
theorem decodeBusr_row (a : Word) : (decodeBusr a).WellFormed ∧ encode (decodeBusr a) = pack 0x05 0 0 a := by
  unfold decodeBusr
  split_ifs
  case neg => exact ⟨busr_wellFormed_iff.mpr (by simpa [namedAddrs] using by and_intros <;> assumption), rfl⟩
  all_goals subst a; exact ⟨rfl, rfl⟩

theorem decodeBusw_row (v : Half) (a : Word) :
    (decodeBusw v a).WellFormed ∧ encode (decodeBusw v a) = pack 0x06 0 v a := by
  unfold decodeBusw
  split_ifs
  case neg => exact ⟨busw_wellFormed_iff.mpr (by simpa [namedAddrs] using by and_intros <;> assumption), rfl⟩
  all_goals subst a; exact ⟨rfl, rfl⟩

/-! ### Decoding an instruction's word -/

/-- Settles O1: a word's fields are the ones it was packed from. The four commands named here have an operand that the
decoder extracts or an address that it looks up; of the others it reads the fields as they are. -/
theorem decodeOfEncodeIsTheInstruction : Obligations.DecodeOfEncodeIsTheInstruction := by
  intro i hi
  cases i with
  | twctl idx byte => exact Machine.decode_encode_twctl idx byte
  | twrld idx half => exact Machine.decode_encode_twrld idx half
  | busr a => exact (decode_pack ..).trans (congrArg Except.ok (decodeBusr_of_wellFormed hi))
  | busw v a => exact (Machine.decode_encode_busw v a).trans (congrArg Except.ok (decodeBusw_of_wellFormed hi))
  | _ => exact decode_pack ..

/-! ### The must-be-zero fields and the table's masks -/

theorem pack_inj {op op' idx idx' : Byte} {data data' : Half} {opnd opnd' : Word}
    (h : pack op idx data opnd = pack op' idx' data' opnd') : op = op' ∧ idx = idx' ∧ data = data' ∧ opnd = opnd' :=
  ⟨by simpa using congrArg opField h, by simpa using congrArg idxField h, by simpa using congrArg dataField h,
    by simpa using congrArg opndField h⟩

theorem pack_and_pack (op op' idx idx' : Byte) (data data' : Half) (opnd opnd' : Word) :
    pack op idx data opnd &&& pack op' idx' data' opnd' =
      pack (op &&& op') (idx &&& idx') (data &&& data') (opnd &&& opnd') := by
  unfold pack
  exact BitVec.and_append.trans (by rw [BitVec.and_append, BitVec.and_append])

/-- A mask that leaves the operation code out is tested field by field. -/
theorem pack_and_eq_zero_iff {op idx idx' : Byte} {data data' : Half} {opnd opnd' : Word} :
    pack op idx data opnd &&& pack 0 idx' data' opnd' = 0 ↔
      idx &&& idx' = 0 ∧ data &&& data' = 0 ∧ opnd &&& opnd' = 0 := by
  rw [pack_and_pack, show op &&& 0 = 0 from BitVec.and_zero]
  constructor
  · intro h
    exact (pack_inj (op' := 0) (idx' := 0) (data' := 0) (opnd' := 0) h).2
  · rintro ⟨hi, hd, ho⟩
    rw [hi, hd, ho]
    rfl

/-- The bits from `k` on are zero exactly when the mask of these bits finds none. -/
theorem and_highMask_eq_zero_iff {len k : Nat} (o : BitVec (len + k)) :
    o &&& (BitVec.allOnes len ++ 0#k) = 0 ↔ o.extractLsb' k len = 0 := by
  have h : o &&& (BitVec.allOnes len ++ 0#k) = o.extractLsb' k len ++ 0#k := by
    conv_lhs => rw [← BitVec.extractLsb'_append_extractLsb' (x := o)]
    rw [BitVec.and_append, BitVec.and_allOnes, BitVec.and_zero]
  have hz : (0 : BitVec (len + k)) = 0#len ++ 0#k := BitVec.zero_append_zero.symm
  rw [h, hz]
  exact BitVec.append_left_inj (0#k)

/-- An operand whose bits from `k` on are zero is its low bits, extended. -/
theorem zeroExtend_low_of_high_zero {len k : Nat} {o : BitVec (len + k)} (h : o.extractLsb' k len = 0) :
    (o.extractLsb' 0 k).zeroExtend (len + k) = o := by
  conv_rhs => rw [← BitVec.extractLsb'_append_extractLsb' (x := o), h]
  refine BitVec.eq_of_toNat_eq ?_
  have hlt : o.toNat % 2 ^ k < 2 ^ (len + k) :=
    (Nat.mod_lt _ (by positivity)).trans_le (Nat.pow_le_pow_right (by omega) (by omega))
  simp [Nat.mod_eq_of_lt hlt]

/-! ### Reading a word by a row of the table -/

theorem whenZero_eq_ok_iff {zero : Bool} {i j : Instr} : whenZero zero j = .ok i ↔ zero = true ∧ j = i := by
  cases zero <;> simp [whenZero]

theorem whenZero_eq_error_iff {zero : Bool} {j : Instr} : (∃ r, whenZero zero j = .error r) ↔ ¬ zero = true := by
  cases zero <;> simp [whenZero]

/-- The decoder reads `w` by the row of the table for its operation code: the fields it checks, `zero`, are the bits of
the row's mask `m`, and a word that passes is the word of the well-formed instruction `i` it is read as. -/
structure ReadByRow (w m : Cmd) (zero : Bool) (i : Instr) : Prop where
  mask : reservedBits (opField w) = some m
  reads : decode w = whenZero zero i
  check : zero = true ↔ w &&& m = 0
  wellFormed : i.WellFormed
  word : zero = true → encode i = w

section
variable {op idx idx' : Byte} {data data' : Half} {opnd opnd' : Word} {zero : Bool} {i : Instr}

/-- A row given by the fields of the word and of the mask. -/
theorem readByRow_of_fields (hm : reservedBits op = some (pack 0 idx' data' opnd'))
    (hr : decodeFields op idx data opnd = whenZero zero i)
    (hc : zero = true ↔ idx &&& idx' = 0 ∧ data &&& data' = 0 ∧ opnd &&& opnd' = 0) (hwf : i.WellFormed)
    (hw : zero = true → encode i = pack op idx data opnd) :
    ReadByRow (pack op idx data opnd) (pack 0 idx' data' opnd') zero i where
  mask := by rw [opField_pack, hm]
  reads := by rw [decode_pack, hr]
  check := by rw [hc, pack_and_eq_zero_iff]
  wellFormed := hwf
  word := hw

/-- A row without operands: every bit below the operation code must be zero. -/
theorem readByRow_bare (hm : reservedBits op = some (pack 0 (.allOnes 8) (.allOnes 16) (.allOnes 32)))
    (hr : decodeFields op idx data opnd = whenZero (idx == 0 && data == 0 && opnd == 0) i) (hwf : i.WellFormed)
    (hw : encode i = pack op 0 0 0) : ∃ m zero i, ReadByRow (pack op idx data opnd) m zero i := by
  refine ⟨_, _, _, readByRow_of_fields hm hr ?_ hwf ?_⟩
  · rw [BitVec.and_allOnes, BitVec.and_allOnes, BitVec.and_allOnes]
    simp [and_assoc]
  · simp only [Bool.and_eq_true, beq_iff_eq]
    rintro ⟨⟨rfl, rfl⟩, rfl⟩
    exact hw

/-- A row whose operand is the whole `opnd` field. -/
theorem readByRow_opnd (hm : reservedBits op = some (pack 0 (.allOnes 8) (.allOnes 16) 0))
    (hr : decodeFields op idx data opnd = whenZero (idx == 0 && data == 0) i) (hwf : i.WellFormed)
    (hw : encode i = pack op 0 0 opnd) : ∃ m zero i, ReadByRow (pack op idx data opnd) m zero i := by
  refine ⟨_, _, _, readByRow_of_fields hm hr ?_ hwf ?_⟩
  · rw [BitVec.and_allOnes, BitVec.and_allOnes]
    simp
  · simp only [Bool.and_eq_true, beq_iff_eq]
    rintro ⟨rfl, rfl⟩
    exact hw

/-- A row whose operands are the `idx` field and the low bits of the `opnd` field. -/
theorem readByRow_low {high : Bool} (hm : reservedBits op = some (pack 0 0 (.allOnes 16) opnd'))
    (hr : decodeFields op idx data opnd = whenZero (data == 0 && high) i) (hh : high = true ↔ opnd &&& opnd' = 0)
    (hwf : i.WellFormed) (hw : high = true → encode i = pack op idx 0 opnd) :
    ∃ m zero i, ReadByRow (pack op idx data opnd) m zero i := by
  refine ⟨_, _, _, readByRow_of_fields hm hr ?_ hwf ?_⟩
  · rw [BitVec.and_allOnes, ← hh]
    simp
  · simp only [Bool.and_eq_true, beq_iff_eq]
    rintro ⟨rfl, ho⟩
    exact hw ho

/-- A row whose operands are the `data` and `opnd` fields. -/
theorem readByRow_data (hm : reservedBits op = some (pack 0 (.allOnes 8) 0 0))
    (hr : decodeFields op idx data opnd = whenZero (idx == 0) i) (hwf : i.WellFormed)
    (hw : encode i = pack op 0 data opnd) : ∃ m zero i, ReadByRow (pack op idx data opnd) m zero i := by
  refine ⟨_, _, _, readByRow_of_fields hm hr ?_ hwf ?_⟩
  · rw [BitVec.and_allOnes]
    simp
  · rw [beq_iff_eq]
    rintro rfl
    exact hw

end

/-! ### All that a word can be to the decoder -/

/-- The operation codes of the table (30_encoding.md R73). -/
def tableOps : List Byte := [0x01, 0x02, 0x03, 0x04, 0x05, 0x06, 0x10, 0x11, 0x12, 0x13, 0x14, 0x15]

theorem reservedBits_eq_none_iff : ∀ op : Byte, reservedBits op = none ↔ op ∉ tableOps := by decide

/-- None of the decoder's branches is taken. -/
theorem decodeFields_of_not_mem {op : Byte} (h : op ∉ tableOps) (idx : Byte) (data : Half) (opnd : Word) :
    decodeFields op idx data opnd = .error .undefinedOp := by
  simp_all [tableOps, decodeFields]

/-- The decoder's branch for an operation code of the table is that code's row. -/
theorem readByRow_of_mem {op : Byte} (h : op ∈ tableOps) (idx : Byte) (data : Half) (opnd : Word) :
    ∃ m zero i, ReadByRow (pack op idx data opnd) m zero i := by
  simp only [tableOps, List.mem_cons, List.not_mem_nil, or_false] at h
  obtain rfl | rfl | rfl | rfl | rfl | rfl | rfl | rfl | rfl | rfl | rfl | rfl := h
  · exact readByRow_bare (i := .treset) rfl rfl rfl rfl
  · exact readByRow_opnd (i := .tstep opnd) rfl rfl rfl rfl
  · exact readByRow_low (i := .twctl idx (opndByte opnd)) (opnd' := BitVec.allOnes 24 ++ 0#8) rfl rfl
      (beq_iff_eq.trans (and_highMask_eq_zero_iff (len := 24) (k := 8) opnd).symm) rfl
      fun ho => congrArg (pack 0x03 idx 0) (zeroExtend_low_of_high_zero (len := 24) (k := 8) (beq_iff_eq.mp ho))
  · exact readByRow_low (i := .twrld idx (opndHalf opnd)) (opnd' := BitVec.allOnes 16 ++ 0#16) rfl rfl
      (beq_iff_eq.trans (and_highMask_eq_zero_iff (len := 16) (k := 16) opnd).symm) rfl
      fun ho => congrArg (pack 0x04 idx 0) (zeroExtend_low_of_high_zero (len := 16) (k := 16) (beq_iff_eq.mp ho))
  · exact readByRow_opnd rfl rfl (decodeBusr_row opnd).1 (decodeBusr_row opnd).2
  · exact readByRow_data rfl rfl (decodeBusw_row data opnd).1 (decodeBusw_row data opnd).2
  · exact readByRow_bare (i := .sreset) rfl rfl rfl rfl
  · exact readByRow_bare (i := .start) rfl rfl rfl rfl
  · exact readByRow_bare (i := .stop) rfl rfl rfl rfl
  · exact readByRow_bare (i := .fire) rfl rfl rfl rfl
  · exact readByRow_bare (i := .dstep) rfl rfl rfl rfl
  · exact readByRow_opnd (i := .setfps opnd) rfl rfl rfl rfl

/-- All a word can be to the decoder: its operation code is not in the table, or it is read by its row. -/
theorem decode_cases (w : Cmd) :
    (reservedBits (opField w) = none ∧ decode w = .error .undefinedOp) ∨ ∃ m zero i, ReadByRow w m zero i := by
  by_cases h : opField w ∈ tableOps
  · exact .inr (pack_fields w ▸ readByRow_of_mem h (idxField w) (dataField w) (opndField w))
  · exact .inl ⟨(reservedBits_eq_none_iff _).mpr h, decodeFields_of_not_mem h ..⟩

/-- Settles O2: a word that decodes is read by a row of the table and passes its check. -/
theorem encodeOfDecodeIsTheWord : Obligations.EncodeOfDecodeIsTheWord := by
  intro w i hd
  obtain ⟨_, he⟩ | ⟨m, zero, j, row⟩ := decode_cases w
  · simp [he] at hd
  · rw [row.reads] at hd
    obtain ⟨hz, rfl⟩ := whenZero_eq_ok_iff.mp hd
    exact ⟨row.wellFormed, row.word hz⟩

/-- The decoder rejects the words that the table's masks call illegal. -/
theorem decode_rejects_iff (w : Cmd) : (∃ r, decode w = .error r) ↔ Illegal w := by
  obtain ⟨hn, he⟩ | ⟨m, zero, i, row⟩ := decode_cases w
  · simp [he, Illegal, hn]
  · rw [row.reads, whenZero_eq_error_iff, row.check]
    simp [Illegal, row.mask]

end Sys2Proof

namespace Sys2Proof.Machine

/-! ### Illegal commands and the example words -/

/-- A word at the head of the queue that does not decode is an illegal command, in the state without it. -/
theorem serve_of_reject {s : State} {w : Cmd} {rest : List Cmd} {r : Reject} (hc : s.env.cmds = w :: rest)
    (hd : decode w = .error r) : serve s = illegal w (s.withCmds rest) := by
  simp only [serve, hc, hd]

/-- Settles O3: the decoder checks the bits of the table's masks, and an illegal command raises the first fault. -/
theorem wordsOutsideTheTableAreIllegalCommands : Obligations.WordsOutsideTheTableAreIllegalCommands := by
  intro w
  refine ⟨decode_rejects_iff w, fun s rest hif hwf hl hc hw => ?_⟩
  obtain ⟨r, hr⟩ := (decode_rejects_iff w).mpr hw
  have hl' : (s.withCmds rest).live = true := hl
  rw [step_eq_serve hif hwf, serve_of_reject hc hr, illegal, command_of_live hl', raise_of_live hl']
  rfl

/-- Settles O4: the words are fixed, so the decoder is run on each. -/
theorem exampleWordsDecode : Obligations.ExampleWordsDecode := by
  unfold Obligations.ExampleWordsDecode
  decide

/-! ### The control byte -/

/-- Settles O15: `EN`, `CAS` and `IRQ` are single bits, and `SEL` is the control byte modulo 4, which picks the divisor. -/
theorem controlByteFields : Obligations.ControlByteFields := by
  intro p b hi hs
  have hirq : ctlIrq p b = b.getLsbD 6 := by rw [ctlIrq, hi]; rfl
  exact ⟨rfl, hirq, rfl, ctlSel_default hs b, by rw [ctlSel_default hs]; rfl, by rw [ctlSel_default hs]; rfl,
    by rw [ctlSel_default hs]; rfl, by rw [ctlSel_default hs]; rfl⟩

end Sys2Proof.Machine
end

section
/-! The bus rows of the opcode table at the default addresses (30_encoding.md R71). -/

namespace Sys2Proof.Machine

theorem exec_busr_of_regAt {s : State} {a : Word} {r : BusReg} (hl : s.live = true) (hr : regAt s.params a = some r) :
    exec (.busr a) s = .next (s.log (.busValue a (busValue s r))) := by
  rw [show exec (.busr a) s = command (busrOp a) s from rfl, command_of_live hl, busrOp, hr]

theorem exec_busw_of_regAt {s : State} {a : Word} {r : BusReg} (hl : s.live = true) (hr : regAt s.params a = some r)
    (v : Half) : exec (.busw v a) s = .next (busStore r v s) := by
  rw [show exec (.busw v a) s = command (buswOp v a) s from rfl, command_of_live hl, buswOp, hr]

/-- At the default addresses every register is found where the default parameters have it. -/
theorem regAt_default {s : State} (h : Reference.DefaultAddresses s) (a : Word) :
    regAt s.params a = regAt Params.default a := by
  obtain ⟨hb, ho, hi⟩ := h
  have : busMap s.params = busMap Params.default := by
    simp [busMap, cntAddr, ctlAddr, hb, ho, hi, Params.default]
  rw [regAt, regAt, this]

theorem exec_busr_default {s : State} {a : Word} {r : BusReg} (hl : s.live = true) (hd : Reference.DefaultAddresses s)
    (hr : regAt Params.default a = some r) : exec (.busr a) s = .next (s.log (.busValue a (busValue s r))) :=
  exec_busr_of_regAt hl ((regAt_default hd a).trans hr)

theorem exec_busw_default {s : State} {a : Word} {r : BusReg} (hl : s.live = true) (hd : Reference.DefaultAddresses s)
    (hr : regAt Params.default a = some r) (v : Half) : exec (.busw v a) s = .next (busStore r v s) :=
  exec_busw_of_regAt hl ((regAt_default hd a).trans hr) v

/-- Settles O32: a row is by definition the read at its address, and there the default map has the row's register. -/
theorem busReadRowsReturnTheirRegister : Obligations.BusReadRowsReturnTheirRegister := by
  refine ⟨fun s => ⟨rfl, rfl, rfl, rfl, rfl, rfl, rfl, rfl, rfl⟩, fun s hl hd => ⟨?_, ?_, ?_, ?_, ?_, ?_, ?_, ?_, ?_⟩⟩
  · exact exec_busr_default (r := .counter 0) hl hd (by decide)
  · exact exec_busr_default (r := .counter 1) hl hd (by decide)
  · exact exec_busr_default (r := .counter 2) hl hd (by decide)
  · exact exec_busr_default (r := .counter 3) hl hd (by decide)
  · exact exec_busr_default (r := .control 0) hl hd (by decide)
  · exact exec_busr_default (r := .control 1) hl hd (by decide)
  · exact exec_busr_default (r := .control 2) hl hd (by decide)
  · exact exec_busr_default (r := .control 3) hl hd (by decide)
  · exact exec_busr_default (r := .ifReg) hl hd (by decide)

theorem truncate_eq_lowByte (v : Half) : v.truncate 8 = lowByte v := BitVec.setWidth_eq_extractLsb' (by decide)

/-- Settles O33: a row is by definition the write at its address, and there the default map has the row's register. -/
theorem busWriteRowsWriteTheirRegister : Obligations.BusWriteRowsWriteTheirRegister := by
  refine ⟨fun v s => ⟨rfl, rfl, rfl, rfl, rfl, rfl, rfl, rfl, rfl⟩, fun v s hl hd => ?_⟩
  rw [truncate_eq_lowByte]
  refine ⟨?_, ?_, ?_, ?_, ?_, ?_, ?_, ?_, ?_⟩
  · exact exec_busw_default (r := .counter 0) hl hd (by decide) v
  · exact exec_busw_default (r := .counter 1) hl hd (by decide) v
  · exact exec_busw_default (r := .counter 2) hl hd (by decide) v
  · exact exec_busw_default (r := .counter 3) hl hd (by decide) v
  · exact exec_busw_default (r := .control 0) hl hd (by decide) v
  · exact exec_busw_default (r := .control 1) hl hd (by decide) v
  · exact exec_busw_default (r := .control 2) hl hd (by decide) v
  · exact exec_busw_default (r := .control 3) hl hd (by decide) v
  · exact exec_busw_default (r := .ifReg) hl hd (by decide) v

end Sys2Proof.Machine
end

section
/-! The four timer commands: what each does to the whole state (40_timer.md R100, R110 to R112), and what a TSTEP leaves
unchanged (R101; 10_state.md R33). -/

namespace Sys2Proof.Machine

/-! ### TRESET, TWCTL and TWRLD -/

/-- A command that `S.busy` forbids raises `ReentrantCommand` and does nothing else (42_scheduler.md R182). -/
theorem command_unlessBusy_of_busy {s : State} (hl : s.live = true) (hb : s.sched.busy = true) (op : Byte)
    (f : State → State) : command (unlessBusy op f) s =
      .next { s with sched := { s.sched with fault := some (.reentrantCommand op) } } := by
  rw [command_of_live hl, unlessBusy_of_busy hb, raise_of_live hl]

/-- With no unit enabled TSTEP visits none. -/
theorem timerStep_of_all_disabled {s : State} (h : ∀ i, ctlEnabled (s.unit i).control = false) (el : Nat) :
    timerStep el s = s := by
  simp only [timerStep, List.foldl, visit_of_disabled (h _)]

/-- Settles O17: the reset is the whole operation, and the units it zeroes are disabled. -/
theorem tresetZeroesEveryUnit : Obligations.TresetZeroesEveryUnit := by
  refine fun s hl => ⟨fun hb => ⟨?_, fun cycles => ?_⟩, fun hb => command_unlessBusy_of_busy hl hb _ _⟩
  · exact (command_of_live hl _).trans (by rw [tresetOp, unlessBusy_of_idle hb]; rfl)
  · have hdis : ∀ i, ctlEnabled ((timerReset s).unit i).control = false := fun i => by
      simp [timerReset, State.unit, TimerUnit.zero, ctlEnabled]
    have hr : Reference.Ready (timerReset s) := ⟨hl, hb⟩
    exact (exec_tstep_of_ready hr cycles).trans (by rw [timerStep_of_all_disabled hdis]; rfl)

theorem exec_twctl_of_unit {idx byte : Byte} {i : Unit4} {s : State} (hl : s.live = true) (hi : idx.toNat = i.val) :
    exec (.twctl idx byte) s = .next (writeControl i byte s) :=
  (command_of_live hl _).trans (by rw [twctlOp, unitOfIdx_of_lt hi])

/-- The counter a unit is left with when its control byte is written (40_timer.md R110). -/
theorem withControl_eq (u : TimerUnit) (b : Byte) : u.withControl b =
    { counter := if u.control.getLsbD 7 = false ∧ b.getLsbD 7 = true then u.reload else u.counter
      reload := u.reload
      control := b } := by
  have hcond : (!ctlEnabled u.control && ctlEnabled b) = true ↔
      u.control.getLsbD 7 = false ∧ b.getLsbD 7 = true := by
    rw [Bool.and_eq_true, Bool.not_eq_true', ctlEnabled, ctlEnabled]
  simp only [TimerUnit.withControl, hcond]
  split <;> rfl

/-- Settles O26: only the addressed unit is stored, and its counter is the reload value on an enable transition. -/
theorem twctlStoresAndReloadsOnEnable : Obligations.TwctlStoresAndReloadsOnEnable := by
  intro idx byte i s hl hi
  rw [exec_twctl_of_unit hl hi, writeControl, withControl_eq]
  rfl

/-- Settles O27: the reload field of the addressed unit is the one thing stored. -/
theorem twrldStoresTheReloadOnly : Obligations.TwrldStoresTheReloadOnly := by
  intro idx half i s hl hi
  exact (command_of_live hl _).trans (by rw [twrldOp, unitOfIdx_of_lt hi]; rfl)

/-- Settles O28: an index of 4 or more names no unit, so each command's check raises the first fault. -/
theorem indexOutOfRangeIsAConfigurationError : Obligations.IndexOutOfRangeIsAConfigurationError := by
  intro idx byte half s hl hi
  constructor
  · exact (command_of_live hl _).trans (by rw [twctlOp, unitOfIdx_of_ge hi, raise_of_live hl])
  · exact (command_of_live hl _).trans (by rw [twrldOp, unitOfIdx_of_ge hi, raise_of_live hl])

/-! ### A property that every unit's own part of INC keeps is kept by TSTEP -/

/-- All that a visit can do: nothing, or INC of its unit. -/
theorem visit_cases (el : Nat) (s : State) (i : Unit4) : visit el s i = s ∨ ∃ n, visit el s i = inc i n s := by
  unfold visit
  split
  · exact .inl rfl
  split
  · exact .inl rfl
  · exact .inr ⟨_, rfl⟩

/-- `P` is kept by the part of INC that touches one unit. -/
def KeptByBump (P : State → Prop) : Prop := ∀ (i : Unit4) (n : Nat) (s : State), P s → P (bump i n s)

theorem KeptByBump.incAlong {P : State → Prop} (hP : KeptByBump P) :
    ∀ (is : List Unit4) (n : Nat) {s : State}, P s → P (incAlong is n s)
  | [], _, _, h => h
  | [i], n, s, h => hP i n s h
  | i :: j :: js, n, s, h => by
    rw [Machine.incAlong]
    split
    · exact hP.incAlong (j :: js) 1 (hP i n s h)
    · exact hP i n s h

theorem KeptByBump.visit {P : State → Prop} (hP : KeptByBump P) (el : Nat) {s : State} (i : Unit4) (h : P s) :
    P (visit el s i) := by
  obtain he | ⟨n, he⟩ := visit_cases el s i <;> rw [he]
  · exact h
  · exact hP.incAlong _ n h

theorem KeptByBump.visits {P : State → Prop} (hP : KeptByBump P) (el : Nat) (is : List Unit4) {s : State} (h : P s) :
    P (is.foldl (Machine.visit el) s) :=
  foldl_keeps (fun _ i => hP.visit el i) is s h

theorem setBit_keptByBump (b : Nat) : KeptByBump fun t => t.ifr.getLsbD b = true := by
  intro i n s h
  rw [bump_ifr, h, Bool.true_or]

/-- Outside the bits 3 to 6 `IF` keeps its bits. -/
theorem otherBit_keptByBump {b : Nat} (hb : b < 3 ∨ 6 < b) (v : Bool) : KeptByBump fun t => t.ifr.getLsbD b = v := by
  intro i n s h
  have hne : b ≠ 3 + i.val := by omega
  simp [bump_ifr, h, hne]

theorem timerStep_trace (el : Nat) (s : State) : s.trace <:+ (timerStep el s).trace :=
  timerStep_keeps (P := fun t => s.trace <:+ t.trace) (fun _ _ _ h => h)
    (fun _ _ h => h.trans ((List.suffix_cons ..).trans (List.suffix_cons ..))) el s List.suffix_rfl

/-- Settles O18: a unit's count stores a counter, an IFSet sets one of the bits 3 to 6, and TSTEP does no more. -/
theorem tstepCompletesAndKeepsItsFrame : Obligations.TstepCompletesAndKeepsItsFrame := by
  refine fun cycles s hl => ⟨fun hb => ?_, fun hb => command_unlessBusy_of_busy hl hb _ _⟩
  exact ⟨_, exec_tstep_of_ready ⟨hl, hb⟩ cycles, timerStep_params _ s, timerStep_sched _ s, timerStep_env _ s,
    timerStep_stuck _ s, timerStep_trace _ s, timerStep_fields _ s,
    fun b h => (setBit_keptByBump b).visits _ [0, 1, 2, 3] h,
    fun b hb => (otherBit_keptByBump hb (s.ifr.getLsbD b)).visits _ [0, 1, 2, 3] rfl⟩

end Sys2Proof.Machine
end

section
/-! Units that count cycles directly and the cascade units behind them (40_timer.md R102 to R108). -/

namespace Sys2Proof.Machine

/-! ### INC, one unit at a time -/

/-- `INC` of a unit that has a successor (40_timer.md R104, R106). -/
theorem inc_of_next {i j : Unit4} (hj : j.val = i.val + 1) (n : Nat) (s : State) :
    inc i n s = if (s.unit i).overflows n && (s.unit j).cascades then inc j 1 (bump i n s) else bump i n s := by
  obtain ⟨js, hi, hj'⟩ := unitsFrom_next hj
  have hb : (bump i n s).unit j = s.unit j := bump_unit_other (by rintro rfl; omega) n s
  rw [inc, hi, incAlong, hb, ← hj', inc]

/-- All that `INC` can do: its unit's own part, and a cascade after an overflow. -/
theorem inc_cases (i : Unit4) (n : Nat) (s : State) : inc i n s = bump i n s ∨
    (s.unit i).overflows n = true ∧ ∃ is, inc i n s = incAlong is 1 (bump i n s) := by
  obtain ⟨is, his, _⟩ := unitsFrom_cons i
  rw [inc, his]
  cases is with
  | nil => exact .inl rfl
  | cons j js =>
    rw [incAlong]
    split
    case isTrue h => exact .inr ⟨(Bool.and_eq_true_iff.mp h).1, _, rfl⟩
    case isFalse => exact .inl rfl

/-- `INC` of the last unit. -/
theorem inc_three (n : Nat) (s : State) : inc 3 n s = bump 3 n s := rfl

/-- A cascade does not get past a unit that takes none: that unit and the ones above it are left alone. -/
theorem inc_unit_above_blocked {i j : Unit4} (hij : i.val ≤ j.val) {s : State} (hb : (s.unit i).cascades = false)
    {k : Unit4} (hk : k.val < i.val) (n : Nat) : (inc k n s).unit j = s.unit j := by
  have hkj : (bump k n s).unit j = s.unit j := bump_unit_other (by rintro rfl; omega) n s
  obtain ⟨k', hk'⟩ : ∃ k' : Unit4, k'.val = k.val + 1 := ⟨⟨k.val + 1, by omega⟩, rfl⟩
  rw [inc_of_next hk']
  split
  case isFalse => exact hkj
  case isTrue h =>
    have hne : k'.val ≠ i.val := fun he => by simp [Fin.ext he, hb] at h
    have hb' : ((bump k n s).unit i).cascades = false := by
      rw [bump_unit_other (by rintro rfl; omega)]; exact hb
    rw [inc_unit_above_blocked hij hb' (by omega) 1, hkj]
termination_by i.val - k.val

/-! ### The visits before and after a unit's own -/

/-- A cascade unit's own visit is skipped (40_timer.md R103). -/
theorem visit_of_cascade {s : State} {i : Unit4} (hi : 0 < i.val) (h : ctlCascade (s.unit i).control = true) (el : Nat) :
    visit el s i = s := by
  simp [visit, h, hi]

/-- A unit's visit leaves alone the units from `i` upward where it comes before `i` and `i` takes no cascades. -/
theorem visit_unit_above_blocked {i j : Unit4} (hij : i.val ≤ j.val) {s : State} (hb : (s.unit i).cascades = false)
    {k : Unit4} (hk : k.val < i.val) (el : Nat) : (visit el s k).unit j = s.unit j := by
  obtain he | ⟨n, he⟩ := visit_cases el s k <;> rw [he]
  exact inc_unit_above_blocked hij hb hk n

/-- TSTEP at a unit that no cascade reaches: its visit finds it and the units above as they were before the step, and
only units above it are visited after it. -/
theorem timerStep_at_visit {s : State} {i : Unit4} (hc : (s.unit i).cascades = false ∨ i = 0) (el : Nat) :
    ∃ (t : State) (after : List Unit4), timerStep el s = after.foldl (visit el) (visit el t i) ∧
      t.params = s.params ∧ (∀ j : Unit4, i.val ≤ j.val → t.unit j = s.unit j) ∧ ∀ k ∈ after, i.val < k.val := by
  obtain ⟨before, after, hl, hbefore, hafter⟩ : ∃ before after : List Unit4, [0, 1, 2, 3] = before ++ i :: after ∧
      (∀ k ∈ before, k.val < i.val) ∧ ∀ k ∈ after, i.val < k.val := by
    refine ⟨[0, 1, 2, 3].take i.val, [0, 1, 2, 3].drop (i.val + 1), ?_⟩
    clear * -
    revert i
    decide
  obtain ⟨hp, hu⟩ : (before.foldl (visit el) s).params = s.params ∧
      ∀ j : Unit4, i.val ≤ j.val → (before.foldl (visit el) s).unit j = s.unit j := by
    refine List.foldlRecOn
      (motive := fun t : State => t.params = s.params ∧ ∀ j : Unit4, i.val ≤ j.val → t.unit j = s.unit j)
      before (visit el) ⟨rfl, fun _ _ => rfl⟩ fun t ⟨hp, hu⟩ k hk => ?_
    have hki := hbefore k hk
    have hb : (t.unit i).cascades = false := by
      rw [hu i le_rfl]
      exact hc.resolve_right (by rintro rfl; omega)
    obtain ⟨_, _, hvp⟩ := visit_fields el t k i
    exact ⟨hvp.trans hp, fun j hj => (visit_unit_above_blocked hj hb hki el).trans (hu j hj)⟩
  exact ⟨_, after, by rw [timerStep, hl, List.foldl_append, List.foldl_cons], hp, hu, hafter⟩

/-- Later visits leave a unit alone, its own visit too where it is in cascade mode. -/
theorem foldl_visit_unit {j : Unit4} {s : State} {is : List Unit4} (el : Nat)
    (h : ∀ k ∈ is, j.val < k.val ∨ k = j ∧ 0 < j.val ∧ ctlCascade (s.unit j).control = true) :
    (is.foldl (visit el) s).unit j = s.unit j := by
  refine List.foldlRecOn (motive := fun t => t.unit j = s.unit j) is (visit el) rfl fun t ht k hk => ?_
  obtain hk | ⟨rfl, hpos, hc⟩ := h k hk
  · exact (visit_unit_other (.inr hk) (by rintro rfl; omega)).trans ht
  · rw [visit_of_cascade hpos (by rw [ht]; exact hc), ht]

/-! ### Direct units -/

/-- At the default position of `SEL`. -/
theorem advance_default {p : Params} (h : p.selLow = 0) (b : Byte) (el : Nat) :
    advance p b el = el / Reference.div (b.toNat % 4) := by
  rw [advance, ctlSel_default h, divisor_eq_div]

theorem direct_of_unit_eq {s t : State} {i : Unit4} (h : Reference.Direct s i) (hu : t.unit i = s.unit i) :
    Reference.Direct t i := by
  rw [Reference.Direct, hu]; exact h

/-- TSTEP counts a direct unit's cycles once (40_timer.md R102). -/
theorem timerStep_unit_eq_count {s : State} {i : Unit4} (h : Reference.Direct s i) (el : Nat) :
    (timerStep el s).unit i = (s.unit i).count (advance s.params (s.unit i).control el) := by
  obtain ⟨t, after, he, hp, hu, hafter⟩ := timerStep_at_visit (cascades_of_direct h) el
  have hui : t.unit i = s.unit i := hu i le_rfl
  rw [he, foldl_visit_unit el fun k hk => .inl (hafter k hk), visit_of_direct (direct_of_unit_eq h hui), inc_unit_self,
    hp, hui]

/-- Settles O20: the unit is counted once by the quotient. -/
theorem directUnitAdvancesByTheFlooredQuotient : Obligations.DirectUnitAdvancesByTheFlooredQuotient := by
  intro cycles s i hr hf hd
  refine ⟨_, exec_tstep_of_ready hr cycles, fun hfits => ?_, fun hlt => timerStep_unit_of_direct hd ?_⟩
  · rw [timerStep_unit_eq_count hd, advance_default hf.2]
    exact count_of_fits hfits
  · rw [ctlSel_default hf.2, divisor_eq_div]
    exact hlt

/-- An overflow of `INC`'s own unit with `IRQ` set leaves that unit's flag set (40_timer.md R105). -/
theorem inc_sets_flag {i : Unit4} {n : Nat} {s : State} (ho : (s.unit i).overflows n = true)
    (hi : ctlIrq s.params (s.unit i).control = true) : (inc i n s).ifr.getLsbD (3 + i.val) = true := by
  have hb : (bump i n s).ifr.getLsbD (3 + i.val) = true := by simp [bump_ifr, ho, hi]
  obtain he | ⟨_, is, he⟩ := inc_cases i n s <;> rw [he]
  · exact hb
  · exact (setBit_keptByBump _).incAlong is 1 hb

/-- A direct unit that overflows in a TSTEP with `IRQ` set leaves its flag set. -/
theorem timerStep_sets_flag {s : State} {i : Unit4} {el : Nat} (h : Reference.Direct s i)
    (ho : (s.unit i).overflows (advance s.params (s.unit i).control el) = true)
    (hi : ctlIrq s.params (s.unit i).control = true) : (timerStep el s).ifr.getLsbD (3 + i.val) = true := by
  obtain ⟨t, after, he, hp, hu, _⟩ := timerStep_at_visit (cascades_of_direct h) el
  have hui : t.unit i = s.unit i := hu i le_rfl
  rw [he, visit_of_direct (direct_of_unit_eq h hui)]
  exact (setBit_keptByBump _).visits el after (inc_sets_flag (by rw [hp, hui]; exact ho) (by rw [hp, hui]; exact hi))

theorem overflows_iff {u : TimerUnit} {n : Nat} : u.overflows n = true ↔ 0xFFFF < u.counter.toNat + n := by
  rw [TimerUnit.overflows, decide_eq_true_eq]

/-- A unit that overflows is its reload value, however large the count (40_timer.md R108). -/
theorem count_eq_reload {u : TimerUnit} {n : Nat} (h : 0xFFFF < u.counter.toNat + n) :
    u.count n = { u with counter := u.reload } :=
  if_neg (Nat.not_le.mpr h)

/-- Settles O21: the one count of the unit overflows, and no later part of the step clears a flag. -/
theorem directOverflowSnapsToTheReload : Obligations.DirectOverflowSnapsToTheReload := by
  intro cycles s i hr hf hd ho
  refine ⟨_, exec_tstep_of_ready hr cycles, ?_, fun hirq => timerStep_sets_flag hd (overflows_iff.mpr ?_) ?_⟩
  · rw [timerStep_unit_eq_count hd, advance_default hf.2]
    exact count_eq_reload ho
  · rw [advance_default hf.2]
    exact ho
  · rw [ctlIrq, hf.1]
    exact hirq

/-! ### Cascade units -/

/-- What a TSTEP does to a cascade unit is what its predecessor's visit does to it: no cascade reaches the predecessor,
and the cascade unit's own visit is skipped. -/
theorem timerStep_cascade_unit {s : State} {i j : Unit4} (hj : j.val = i.val + 1)
    (hc : (s.unit i).cascades = false ∨ i = 0) (hcas : ctlCascade (s.unit j).control = true) (el : Nat) :
    ∃ t : State, t.params = s.params ∧ t.unit i = s.unit i ∧ t.unit j = s.unit j ∧
      (timerStep el s).unit j = (visit el t i).unit j := by
  obtain ⟨t, after, he, hp, hu, hafter⟩ := timerStep_at_visit hc el
  have huj : t.unit j = s.unit j := hu j (by omega)
  refine ⟨t, hp, hu i le_rfl, huj, ?_⟩
  have hcas' : ctlCascade ((visit el t i).unit j).control = true := by
    obtain ⟨hctl, _, _⟩ := visit_fields el t i j
    rw [hctl, huj]; exact hcas
  rw [he]
  refine foldl_visit_unit el fun k hk => ?_
  have hik := hafter k hk
  by_cases hkj : k = j
  · exact .inr ⟨hkj, by omega, hcas'⟩
  · have hne : k.val ≠ j.val := Fin.val_ne_of_ne hkj
    exact .inl (by omega)

/-- Behind a direct unit a cascade unit takes one count where that unit overflows, and none otherwise. -/
theorem timerStep_unit_behind_direct {s : State} {i j : Unit4} (hj : j.val = i.val + 1) (hd : Reference.Direct s i)
    (hen : ctlEnabled (s.unit j).control = true) (hcas : ctlCascade (s.unit j).control = true) (el : Nat) :
    (timerStep el s).unit j =
      if (s.unit i).overflows (advance s.params (s.unit i).control el) then (s.unit j).count 1 else s.unit j := by
  obtain ⟨t, hp, hui, huj, he⟩ := timerStep_cascade_unit hj (cascades_of_direct hd) hcas el
  have hc : (t.unit j).cascades = true := by rw [TimerUnit.cascades, huj, hen, hcas]; rfl
  rw [he, visit_of_direct (direct_of_unit_eq hd hui), inc_unit_next hj _ hc, hp, hui, huj]

/-- Behind a disabled unit a cascade unit takes no count. -/
theorem timerStep_unit_behind_disabled {s : State} {i j : Unit4} (hj : j.val = i.val + 1)
    (hdis : ctlEnabled (s.unit i).control = false) (hcas : ctlCascade (s.unit j).control = true) (el : Nat) :
    (timerStep el s).unit j = s.unit j := by
  obtain ⟨t, _, hui, huj, he⟩ := timerStep_cascade_unit hj (.inl (cascades_of_disabled hdis)) hcas el
  rw [he, visit_of_disabled (by rw [hui]; exact hdis), huj]

/-- One count of a unit, as the spec's INC of 1 (40_timer.md R104). -/
theorem count_one_counter (u : TimerUnit) :
    (u.count 1).counter = if u.counter = 0xFFFF then u.reload else u.counter + 1 := by
  split
  case isTrue h => exact count_of_overflow (by rw [h]; decide)
  case isFalse h =>
    have hne : u.counter.toNat ≠ 0xFFFF := fun he => h (BitVec.eq_of_toNat_eq he)
    have hfits : u.counter.toNat + 1 ≤ 0xFFFF := by omega
    apply BitVec.eq_of_toNat_eq
    rw [count_of_fits hfits, BitVec.toNat_add]
    exact (Nat.mod_eq_of_lt (by omega)).symm

/-- Settles O22: the cascade unit's fate is decided in its predecessor's visit. -/
theorem cascadeUnitTakesOneCountPerOverflow : Obligations.CascadeUnitTakesOneCountPerOverflow := by
  intro cycles s i j hr hf hj hen hcas
  refine ⟨timerStep cycles.toNat s, exec_tstep_of_ready hr cycles, fun hdis => timerStep_unit_behind_disabled hj hdis hcas _,
    fun hd hfits => ?_, fun hd ho => ?_⟩
  · rw [timerStep_unit_behind_direct hj hd hen hcas, advance_default hf.2,
      if_neg (mt overflows_iff.mp (Nat.not_lt.mpr hfits))]
  · rw [timerStep_unit_behind_direct hj hd hen hcas, advance_default hf.2, if_pos (overflows_iff.mpr ho),
      count_one_counter]

end Sys2Proof.Machine
end

section
/-! TSTEP is the pseudocode of 40_timer.md R101 and R104, through the view `Reference.timersOf` of a state over plain
naturals. -/

namespace Sys2Proof.Machine

open Reference (timersOf)

/-! ### The view of a state -/

theorem field_unit (s : State) (f : TimerUnit → Nat) (i : Unit4) : Reference.field s f i.val = f (s.unit i) :=
  dif_pos i.isLt

theorem timersOf_counter (s : State) (i : Unit4) : (timersOf s).counter i.val = (s.unit i).counter.toNat :=
  field_unit s (fun u => u.counter.toNat) i

theorem timersOf_reload (s : State) (i : Unit4) : (timersOf s).reload i.val = (s.unit i).reload.toNat :=
  field_unit s (fun u => u.reload.toNat) i

theorem timersOf_control (s : State) (i : Unit4) : (timersOf s).control i.val = (s.unit i).control.toNat :=
  field_unit s (fun u => u.control.toNat) i

/-- A bit of the view's number is the bit of the register. -/
theorem bit_toNat {w : Nat} (v : BitVec w) (k : Nat) : Reference.bit v.toNat k = 1 ↔ v.getLsbD k = true := by
  rw [Reference.bit, BitVec.getLsbD, Nat.testBit_eq_decide_div_mod_eq, decide_eq_true_eq]

theorem bit_toNat_eq_zero {w : Nat} (v : BitVec w) (k : Nat) : Reference.bit v.toNat k = 0 ↔ v.getLsbD k = false := by
  rw [← Bool.not_eq_true, ← bit_toNat, Reference.bit]
  omega

theorem ifWrites_append (as bs : List Output) :
    Reference.ifWrites (as ++ bs) = Reference.ifWrites as ++ Reference.ifWrites bs := by
  induction as with
  | nil => rfl
  | cons o as ih => cases o <;> simp [Reference.ifWrites, ih]

theorem field_setUnit (s : State) (i : Unit4) (u : TimerUnit) (f : TimerUnit → Nat) (j : Nat) :
    Reference.field (s.setUnit i u) f j = if j = i.val then f u else Reference.field s f j := by
  by_cases hj : j = i.val
  · rw [hj, field_unit, setUnit_unit_same, if_pos rfl]
  · have hu : ∀ h : j < 4, (s.setUnit i u).unit ⟨j, h⟩ = s.unit ⟨j, h⟩ :=
      fun h => setUnit_unit_other s (fun he => hj (congrArg Fin.val he).symm) u
    simp only [Reference.field, hu, if_neg hj]

/-- A field that the stored unit has as before is as before in every unit. -/
theorem field_setUnit_of_eq {s : State} {i : Unit4} {u : TimerUnit} {f : TimerUnit → Nat} (h : f u = f (s.unit i)) :
    Reference.field (s.setUnit i u) f = Reference.field s f := by
  funext j
  rw [field_setUnit, h]
  split
  case isTrue hj => rw [hj, field_unit]
  case isFalse => rfl

/-- Storing a unit's count is the pseudocode's assignment to its counter. -/
theorem timersOf_setUnit_count (s : State) (i : Unit4) (n : Nat) : timersOf (s.setUnit i ((s.unit i).count n)) =
    (timersOf s).setCounter i.val ((s.unit i).count n).counter.toNat := by
  have hreload : Reference.field (s.setUnit i ((s.unit i).count n)) (fun u => u.reload.toNat) =
      Reference.field s fun u => u.reload.toNat := field_setUnit_of_eq (by rw [count_reload])
  have hcontrol : Reference.field (s.setUnit i ((s.unit i).count n)) (fun u => u.control.toNat) =
      Reference.field s fun u => u.control.toNat := field_setUnit_of_eq (by rw [count_control])
  have hcounter : Reference.field (s.setUnit i ((s.unit i).count n)) (fun u => u.counter.toNat) = fun j =>
      if j = i.val then ((s.unit i).count n).counter.toNat else Reference.field s (fun u => u.counter.toNat) j :=
    funext fun j => field_setUnit s i _ _ j
  rw [timersOf, hreload, hcontrol, hcounter]
  rfl

/-- IFSet is the pseudocode's, for each bit of `IF`. -/
theorem timersOf_ifSet {k : Nat} (hk : k < 16) (s : State) : timersOf (ifSet k s) = (timersOf s).ifSet k := by
  have hv : (ifWithBit s.ifr k).toNat = s.ifr.toNat ||| 1 <<< k := by
    have hlt : 1 <<< k < 2 ^ 16 := by
      rw [Nat.one_shiftLeft]
      exact Nat.pow_lt_pow_right (by decide) hk
    rw [ifWithBit, BitVec.toNat_or, BitVec.toNat_shiftLeft, BitVec.toNat_ofNat, Nat.mod_eq_of_lt hlt]
  have hw : Reference.ifWrites (ifSet k s).trace.reverse =
      Reference.ifWrites s.trace.reverse ++ [s.ifr.toNat ||| 1 <<< k] := by
    simp [ifWrites_append, Reference.ifWrites, hv]
  have hfield : Reference.field (ifSet k s) = Reference.field s := rfl
  simp only [timersOf, Reference.Timers.ifSet, hw, hfield, ifSet_ifr, hv]

/-! ### INC -/

theorem overflows_eq_false {u : TimerUnit} {n : Nat} (h : u.counter.toNat + n ≤ 0xFFFF) : u.overflows n = false :=
  decide_eq_false (Nat.not_lt.mpr h)

theorem timersOf_bump_of_fits {s : State} {i : Unit4} {n : Nat} (h : (s.unit i).counter.toNat + n ≤ 0xFFFF) :
    timersOf (bump i n s) = (timersOf s).setCounter i.val ((timersOf s).counter i.val + n) := by
  have hb : bump i n s = s.setUnit i ((s.unit i).count n) := by rw [bump, overflows_eq_false h]; rfl
  rw [hb, timersOf_setUnit_count, count_of_fits h, timersOf_counter]

/-- The reload, and the flag where `IRQ` is set (40_timer.md R104, R105). -/
theorem timersOf_bump_of_overflow {s : State} {i : Unit4} {n : Nat} (h : 0xFFFF < (s.unit i).counter.toNat + n) :
    timersOf (bump i n s) =
      if Reference.bit ((timersOf s).control i.val) s.params.irqBit.val = 1 then
        ((timersOf s).setCounter i.val ((timersOf s).reload i.val)).ifSet (3 + i.val)
      else (timersOf s).setCounter i.val ((timersOf s).reload i.val) := by
  have hset : timersOf (s.setUnit i ((s.unit i).count n)) =
      (timersOf s).setCounter i.val ((timersOf s).reload i.val) := by
    rw [timersOf_setUnit_count, count_of_overflow h, timersOf_reload]
  have hirq : Reference.bit ((timersOf s).control i.val) s.params.irqBit.val = 1 ↔
      ctlIrq s.params (s.unit i).control = true := by
    rw [timersOf_control, bit_toNat, ctlIrq]
  simp only [bump, overflows_iff.mpr h, Bool.true_and, hirq, ← hset]
  split
  · exact timersOf_ifSet (by unfold ifBit; omega) _
  · rfl

theorem cascades_iff_bits {s : State} {i : Unit4} : (s.unit i).cascades = true ↔
    Reference.bit ((timersOf s).control i.val) 7 = 1 ∧ Reference.bit ((timersOf s).control i.val) 2 = 1 := by
  rw [timersOf_control, bit_toNat, bit_toNat, TimerUnit.cascades, Bool.and_eq_true, ctlEnabled, ctlCascade]

/-- Without an overflow `INC` touches its own unit alone. -/
theorem inc_of_fits {s : State} {i : Unit4} {n : Nat} (h : (s.unit i).counter.toNat + n ≤ 0xFFFF) :
    inc i n s = bump i n s := by
  refine (inc_cases i n s).resolve_right fun ⟨ho, _⟩ => ?_
  rw [overflows_eq_false h] at ho
  cases ho

/-- The pseudocode's `INC` on an overflow, with `t'` the state before the cascade. -/
theorem reference_inc_of_overflow {irq depth i n : Nat} {t t' : Reference.Timers} (h : 0xFFFF < t.counter i + n)
    (ht : t' = if Reference.bit (t.control i) irq = 1 then (t.setCounter i (t.reload i)).ifSet (3 + i)
      else t.setCounter i (t.reload i)) :
    Reference.inc irq (depth + 1) i n t =
      if i < 3 ∧ Reference.bit (t'.control (i + 1)) 7 = 1 ∧ Reference.bit (t'.control (i + 1)) 2 = 1 then
        Reference.inc irq depth (i + 1) 1 t'
      else t' := by
  subst ht
  exact if_neg (Nat.not_le.mpr h)

/-- INC is the pseudocode's, where the depth allowed to its recursion reaches the last unit (40_timer.md R104, R107). -/
theorem timersOf_inc (depth : Nat) {i : Unit4} (n : Nat) (s : State) (hd : 4 ≤ depth + i.val) :
    timersOf (inc i n s) = Reference.inc s.params.irqBit.val depth i.val n (timersOf s) := by
  induction depth generalizing i n s with
  | zero => omega
  | succ depth ih =>
    by_cases hfits : (s.unit i).counter.toNat + n ≤ 0xFFFF
    · rw [inc_of_fits hfits, timersOf_bump_of_fits hfits, Reference.inc, if_pos (by rw [timersOf_counter]; exact hfits)]
    have ho : 0xFFFF < (s.unit i).counter.toNat + n := Nat.not_le.mp hfits
    rw [reference_inc_of_overflow (by rw [timersOf_counter]; exact ho) (timersOf_bump_of_overflow ho)]
    by_cases hi : i.val < 3
    · obtain ⟨j, hj⟩ : ∃ j : Unit4, j.val = i.val + 1 := ⟨⟨i.val + 1, by omega⟩, rfl⟩
      have huj : (bump i n s).unit j = s.unit j := bump_unit_other (by rintro rfl; omega) n s
      have hcas := cascades_iff_bits (s := bump i n s) (i := j)
      rw [huj, hj] at hcas
      simp only [inc_of_next hj, overflows_iff.mpr ho, Bool.true_and, hi, true_and, ← hcas]
      split
      · rw [ih 1 (bump i n s) (by omega), bump_params, hj]
      · rfl
    · obtain rfl : i = 3 := Fin.ext (by omega)
      rw [inc_three, if_neg fun h => hi h.1]

/-! ### TSTEP -/

/-- A unit's visit is one turn of the pseudocode's loop (40_timer.md R101). -/
theorem timersOf_visit (e : Nat) (s : State) (i : Unit4) : timersOf (visit e s i) =
    Reference.visit s.params.irqBit.val s.params.selLow.val e (timersOf s) i.val := by
  have hen : Reference.bit ((timersOf s).control i.val) 7 = 0 ↔ (!ctlEnabled (s.unit i).control) = true := by
    rw [timersOf_control, bit_toNat_eq_zero, Bool.not_eq_true', ctlEnabled]
  have hcas : (0 < i.val ∧ Reference.bit ((timersOf s).control i.val) 2 = 1) ↔
      (decide (0 < i.val) && ctlCascade (s.unit i).control) = true := by
    rw [timersOf_control, bit_toNat, Bool.and_eq_true, decide_eq_true_eq, ctlCascade]
  have hsel : (timersOf s).control i.val / 2 ^ s.params.selLow.val % 4 = ctlSel s.params (s.unit i).control := by
    rw [timersOf_control, ctlSel, BitVec.extractLsb'_toNat, Nat.shiftRight_eq_div_pow]
  simp only [visit, Reference.visit, hen, hcas, hsel, ← divisor_eq_div]
  split
  · rfl
  split
  · rfl
  · exact timersOf_inc 4 _ s (Nat.le_add_right 4 _)

/-- TSTEP is the pseudocode's, for every count. -/
theorem timersOf_timerStep (e : Nat) (s : State) : timersOf (timerStep e s) =
    Reference.tstep s.params.irqBit.val s.params.selLow.val e (timersOf s) := by
  have hp : ∀ (t : State) (i : Unit4), (visit e t i).params = t.params := fun t i => by
    obtain ⟨_, _, hp⟩ := visit_fields e t i i
    exact hp
  simp only [timerStep, List.foldl, timersOf_visit, hp]
  rfl

/-- Settles O19: the command is the step for its operand. -/
theorem tstepFollowsThePseudocode : Obligations.TstepFollowsThePseudocode :=
  ⟨timersOf_timerStep, fun cycles s hr => ⟨_, exec_tstep_of_ready hr cycles, timersOf_timerStep cycles.toNat s⟩⟩

end Sys2Proof.Machine
end

section
/-! The register bus for every choice of the addresses (41_bus_registers.md R140 to R147). -/

namespace Sys2Proof.Machine

/-! ### An access at one of the nine addresses -/

/-- Settles O29: a legal choice of the addresses finds each register at its own address. -/
theorem busReadReturnsTheLiveRegister : Obligations.BusReadReturnsTheLiveRegister := by
  refine fun s hl hp => ⟨fun i => ?_, fun i => ?_, ?_⟩
  · exact exec_busr_of_regAt hl (regAt_of_mem hp (counter_mem _ i))
  · exact exec_busr_of_regAt hl (regAt_of_mem hp (control_mem _ i))
  · exact exec_busr_of_regAt hl (regAt_of_mem hp (ifReg_mem _))

/-- Settles O30: a control address stores what TWCTL of its unit and the low byte stores. -/
theorem busWriteRoutesToTheTimerOperations : Obligations.BusWriteRoutesToTheTimerOperations := by
  refine fun v s hl hp => ⟨fun i => ?_, fun i => ?_, ?_⟩
  · exact exec_busw_of_regAt hl (regAt_of_mem hp (counter_mem _ i)) v
  · have hidx : (BitVec.ofNat 8 i.val).toNat = i.val := Nat.mod_eq_of_lt (by omega)
    calc exec (.busw v (ctlAddr s.params i)) s
        = .next (writeControl i (lowByte v) s) :=
          exec_busw_of_regAt hl (regAt_of_mem hp (control_mem _ i)) v
      _ = exec (.twctl (BitVec.ofNat 8 i.val) (v.truncate 8)) s := by
          rw [exec_twctl_of_unit hl hidx, truncate_eq_lowByte]
  · exact exec_busw_of_regAt hl (regAt_of_mem hp (ifReg_mem _)) v

/-! ### An access at any other address -/

/-- The map's keys are the counter, control and `IF` addresses. -/
theorem busMap_key {p : Params} {e : Word × BusReg} (he : e ∈ busMap p) :
    (∃ i, e.1 = cntAddr p i) ∨ (∃ i, e.1 = ctlAddr p i) ∨ e.1 = p.ifAddr := by
  simp only [busMap, List.mem_cons, List.not_mem_nil, or_false] at he
  rcases he with rfl | rfl | rfl | rfl | rfl | rfl | rfl | rfl | rfl
  iterate 4 exact .inl ⟨_, rfl⟩
  iterate 4 exact .inr (.inl ⟨_, rfl⟩)
  exact .inr (.inr rfl)

theorem regAt_of_other {p : Params} {a : Word} (hcnt : ∀ i, a ≠ cntAddr p i) (hctl : ∀ i, a ≠ ctlAddr p i)
    (hif : a ≠ p.ifAddr) : regAt p a = none := by
  refine lookup_of_not_mem fun e he hae => ?_
  obtain ⟨i, hi⟩ | ⟨i, hi⟩ | hi := busMap_key he
  exacts [hcnt i (hae.trans hi), hctl i (hae.trans hi), hif (hae.trans hi)]

/-- Settles O31: no register is found, so both accesses raise the first fault. -/
theorem otherAddressesAreUnmodelled : Obligations.OtherAddressesAreUnmodelled := by
  intro v a s hl hcnt hctl hif
  have hr := regAt_of_other hcnt hctl hif
  constructor
  · exact (command_of_live hl _).trans (by rw [busrOp, hr, raise_of_live hl])
  · exact (command_of_live hl _).trans (by rw [buswOp, hr, raise_of_live hl])

/-! ### No access advances a timer -/

/-- From `u` to `u'` the counter is held, or the unit is enabled and takes its reload value (40_timer.md R110). -/
def HeldOrReloaded (u u' : TimerUnit) : Prop :=
  u'.counter = u.counter ∨
    (u'.counter = u.reload ∧ ctlEnabled u.control = false ∧ ctlEnabled u'.control = true)

theorem heldOrReloaded_withControl (u : TimerUnit) (b : Byte) : HeldOrReloaded u (u.withControl b) := by
  unfold TimerUnit.withControl
  split
  · rename_i hen
    rw [Bool.and_eq_true, Bool.not_eq_true'] at hen
    exact .inr ⟨rfl, hen⟩
  · exact .inl rfl

/-- Where one unit is stored the others are held. -/
theorem heldOrReloaded_setUnit {s : State} {i : Unit4} {u : TimerUnit} (h : HeldOrReloaded (s.unit i) u) (j : Unit4) :
    HeldOrReloaded (s.unit j) ((s.setUnit i u).unit j) := by
  by_cases hij : i = j
  · subst hij
    rwa [setUnit_unit_same]
  · rw [setUnit_unit_other s hij]
    exact .inl rfl

theorem busStore_sched (r : BusReg) (v : Half) (s : State) : (busStore r v s).sched = s.sched := by
  cases r <;> rfl

theorem busStore_heldOrReloaded (r : BusReg) (v : Half) (s : State) (j : Unit4) :
    HeldOrReloaded (s.unit j) ((busStore r v s).unit j) := by
  cases r with
  | counter i => exact heldOrReloaded_setUnit (u := { s.unit i with reload := v }) (.inl rfl) j
  | control i => exact heldOrReloaded_setUnit (heldOrReloaded_withControl _ _) j
  | ifReg => exact .inl rfl

theorem busrOp_timers_ifr (a : Word) (s : State) : (busrOp a s).timers = s.timers ∧ (busrOp a s).ifr = s.ifr := by
  unfold busrOp
  split <;> exact ⟨rfl, rfl⟩

theorem buswOp_busy_heldOrReloaded (v : Half) (a : Word) (s : State) :
    (buswOp v a s).sched.busy = s.sched.busy ∧ ∀ j, HeldOrReloaded (s.unit j) ((buswOp v a s).unit j) := by
  unfold buswOp
  split
  · rename_i r _
    exact ⟨by rw [busStore_sched], busStore_heldOrReloaded r v s⟩
  · exact ⟨rfl, fun _ => .inl rfl⟩

/-- Settles O34: the command runs the access or, after a fault, nothing; no branch of either checks `S.busy`. -/
theorem busAccessesNeverAdvanceATimer : Obligations.BusAccessesNeverAdvanceATimer := by
  intro v a s hs
  obtain ⟨t, ht⟩ := command_answers hs (busrOp a)
  obtain ⟨u, hu⟩ := command_answers hs (buswOp v a)
  refine ⟨⟨t, ht, ?_⟩, u, hu, ?_⟩
  · exact command_keeps (P := fun t => t.timers = s.timers ∧ t.ifr = s.ifr) (fun _ => busrOp_timers_ifr a s)
      ⟨rfl, rfl⟩ ht
  · exact command_keeps (P := fun u => u.sched.busy = s.sched.busy ∧ ∀ j, HeldOrReloaded (s.unit j) (u.unit j))
      (fun _ => buswOp_busy_heldOrReloaded v a s) ⟨rfl, fun _ => .inl rfl⟩ hu

end Sys2Proof.Machine
end

section
/-! START, STOP, SETFPS, the gate of FIRE (42_scheduler.md R165 to R167, R177), and which commands a busy block refuses
(R182). -/

namespace Sys2Proof.Machine

/-! ### START and STOP -/

theorem startOp_of_running {s : State} (h : s.sched.state = .running) : startOp s = s := by
  rw [startOp, h]

theorem startOp_of_stopped {s : State} (h : s.sched.state = .stopped) :
    startOp s = (s.setState .running).schedule 0 := by
  rw [startOp, h]

theorem stopOp_of_stopped {s : State} (h : s.sched.state = .stopped) : stopOp s = s := by
  rw [stopOp, h]

theorem stopOp_of_running {s : State} (h : s.sched.state = .running) :
    stopOp s = (s.setState .stopped).cancelPending := by
  rw [stopOp, h]

/-- Settles O35: a running block is left alone, a stopped one runs and schedules. -/
theorem startSchedulesTheFirstFrameOnce : Obligations.StartSchedulesTheFirstFrameOnce := by
  refine fun s hl => ⟨fun hrun => ?_, fun rest hst hhost => ?_⟩ <;> refine (command_of_live hl _).trans ?_
  · rw [startOp_of_running hrun]
  · rw [startOp_of_stopped hst, schedule_ok (s := s.setState .running) 0 (by exact hl) hhost]
    rfl

/-- A STOP of a running block whose host carries out the cancel. -/
theorem exec_stop_of_pending {s : State} {h : Handle} {rest : List Reply} (hl : s.live = true)
    (hrun : s.sched.state = .running) (hp : s.sched.pending = some h) (hhost : s.env.host = .ok :: rest) :
    exec .stop s = .next { s with
      sched := { s.sched with state := .stopped, pending := none }
      env := { s.env with host := rest }
      trace := .hostCancel h.num :: s.trace } := by
  refine (command_of_live hl _).trans ?_
  rw [stopOp_of_running hrun, cancelPending_ok (s := s.setState .stopped) (by exact hl) hp hhost]
  rfl

/-- Settles O36: a stopped block is left alone, a running one stops and cancels what is pending. -/
theorem stopCancelsThePendingHandle : Obligations.StopCancelsThePendingHandle := by
  refine fun s hl => ⟨fun hst => ?_, fun hrun hp => ?_, fun h rest => exec_stop_of_pending hl⟩ <;>
    refine (command_of_live hl _).trans ?_
  · rw [stopOp_of_stopped hst]
  · rw [stopOp_of_running hrun, cancelPending_none (by exact hp)]
    rfl

/-! ### SETFPS -/

/-- Settles O37: the rate is zero-extended, so it is 0 only as the operand 0. -/
theorem setfpsRecomputesTheInterval : Obligations.SetfpsRecomputesTheInterval := by
  refine fun n s hl => ⟨fun hn => ?_, fun hn => ?_⟩ <;> refine (command_of_live hl _).trans ?_
  · have hz : natOfOpnd n ≠ 0 := fun h => hn (BitVec.eq_of_toNat_eq h)
    rw [setfpsOp, if_neg hz]
    rfl
  · subst hn
    exact congrArg _ (raise_of_live hl _)

/-! ### FIRE with nothing pending -/

theorem fireGate_of_none {s : State} (h : s.sched.pending = none) (body : State → State) : fireGate body s = s := by
  rw [fireGate, h]

theorem fireGate_of_some {s : State} {h : Handle} (hp : s.sched.pending = some h) (body : State → State) :
    fireGate body s = unlessBusy 0x13 body s := by
  rw [fireGate, hp]

theorem exec_fire_of_none {s : State} (hl : s.live = true) (h : s.sched.pending = none) : exec .fire s = .next s :=
  (command_of_live hl _).trans (by rw [fireGate_of_none h])

/-- Settles O38: a STOP that the host carries out leaves nothing pending. -/
theorem fireWithNothingPendingRunsNoFrame : Obligations.FireWithNothingPendingRunsNoFrame := by
  refine fun s hl => ⟨exec_fire_of_none hl, fun h rest t hrun hp hhost hstop => ?_⟩
  rw [exec_stop_of_pending hl hrun hp hhost] at hstop
  cases hstop
  exact exec_fire_of_none hl rfl

/-! ### Inside an operation: what a busy block refuses -/

theorem dstepGate_of_running {s : State} (h : s.sched.state = .running) (body : State → State) :
    dstepGate body s = s.raise .debugStepWhileRunning := by
  rw [dstepGate, h]

theorem dstepGate_of_stopped {s : State} (h : s.sched.state = .stopped) (body : State → State) :
    dstepGate body s = unlessBusy 0x14 body s := by
  rw [dstepGate, h]

/-- While `S.busy` is true it does not matter what the check guards. -/
theorem unlessBusy_congr_of_busy {s : State} (h : s.sched.busy = true) (op : Byte) (f g : State → State) :
    unlessBusy op f s = unlessBusy op g s := by
  rw [unlessBusy_of_busy h, unlessBusy_of_busy h]

/-- Settles O52: the three commands that have a body of their own end in their checks. -/
theorem nestedCommandIsTheCommandWhileBusy : Obligations.NestedCommandIsTheCommandWhileBusy := by
  intro i s hl hb
  by_cases h1 : i = .sreset
  · subst h1
    exact (command_of_live hl _).trans (congrArg _ (unlessBusy_congr_of_busy hb _ _ _))
  by_cases h2 : i = .fire
  · subst h2
    refine (command_of_live hl _).trans (congrArg _ ?_)
    simp only [nestedOp, fireGate, unlessBusy_congr_of_busy hb _ fireBody id]
  by_cases h3 : i = .dstep
  · subst h3
    refine (command_of_live hl _).trans (congrArg _ ?_)
    simp only [nestedOp, dstepGate, unlessBusy_congr_of_busy hb _ dstepBody id]
  rw [exec_eq_nestedOp h1 h2 h3, command_of_live hl]

/-! ### The commands that do not look at `S.busy` -/

/-- What a command does inside an operation, with the bus rows of the opcode table taken as the accesses they are
(log 8). -/
inductive NestedForm : Instr → (State → State) → Prop where
  | treset : NestedForm .treset tresetOp
  | tstep (cycles : Word) : NestedForm (.tstep cycles) (tstepOp cycles)
  | twctl (idx byte : Byte) : NestedForm (.twctl idx byte) (twctlOp idx byte)
  | twrld (idx : Byte) (half : Half) : NestedForm (.twrld idx half) (twrldOp idx half)
  | busr {i : Instr} (a : Word) : i.op = 0x05 → NestedForm i (busrOp a)
  | busw {i : Instr} (v : Half) (a : Word) : i.op = 0x06 → NestedForm i (buswOp v a)
  | sreset : NestedForm .sreset (unlessBusy 0x10 id)
  | start : NestedForm .start startOp
  | stop : NestedForm .stop stopOp
  | fire : NestedForm .fire (fireGate id)
  | dstep : NestedForm .dstep (dstepGate id)
  | setfps (fps : Word) : NestedForm (.setfps fps) (setfpsOp fps)

theorem nestedForm (i : Instr) : NestedForm i (nestedOp i) := by
  cases i <;> constructor <;> rfl

/-- `f` neither reads nor writes `S.busy`. -/
def BusyBlind (f : State → State) : Prop := ∀ (s : State) (b : Bool), f (s.setBusy b) = (f s).setBusy b

theorem takeHost_setBusy (s : State) (b : Bool) :
    (s.setBusy b).takeHost = (s.takeHost.1, s.takeHost.2.setBusy b) := by
  cases h : s.env.host <;> simp [State.takeHost, h, State.setBusy]

theorem onReply_busyBlind (c : Call) (r : Reply) : BusyBlind fun s => s.onReply c r := by
  intro s b
  cases r <;> rfl

theorem hostCall_busyBlind (c : Call) (o : Output) : BusyBlind (hostCall c o) := by
  intro s b
  have h : ((s.setBusy b).log o).takeHost = ((s.log o).takeHost.1, (s.log o).takeHost.2.setBusy b) :=
    takeHost_setBusy (s.log o) b
  rw [hostCall, h]
  exact onReply_busyBlind c (s.log o).takeHost.1 (s.log o).takeHost.2 b

/-- Going on does not look at `S.busy`. -/
theorem andThen_setBusy {k k' : State → State} {s : State} {b : Bool} (hk : k (s.setBusy b) = (k' s).setBusy b) :
    (s.setBusy b).andThen k = (s.andThen k').setBusy b := by
  have hl : (s.setBusy b).live = s.live := rfl
  obtain ⟨h, he⟩ | ⟨h, he⟩ := andThen_cases s k'
  · rw [he, andThen_of_live (hl.trans h), hk]
  · rw [he, andThen_of_not_live (hl.trans h)]

theorem schedule_busyBlind (delay : Ms) : BusyBlind fun s => s.schedule delay := by
  intro s b
  simp only [State.schedule, State.setBusy_env, hostCall_busyBlind _ _ s b]
  exact andThen_setBusy rfl

theorem cancelPending_busyBlind : BusyBlind State.cancelPending := by
  intro s b
  cases hp : s.sched.pending with
  | none => rw [cancelPending_none hp, cancelPending_none (by exact hp)]
  | some h =>
    simp only [State.cancelPending, State.setBusy_pending, hp, hostCall_busyBlind _ _ s b]
    exact andThen_setBusy rfl

theorem startOp_busyBlind : BusyBlind startOp := by
  intro s b
  cases hst : s.sched.state with
  | running => rw [startOp_of_running hst, startOp_of_running (by exact hst)]
  | stopped =>
    rw [startOp_of_stopped hst, startOp_of_stopped (by exact hst)]
    exact schedule_busyBlind 0 (s.setState .running) b

theorem stopOp_busyBlind : BusyBlind stopOp := by
  intro s b
  cases hst : s.sched.state with
  | stopped => rw [stopOp_of_stopped hst, stopOp_of_stopped (by exact hst)]
  | running =>
    rw [stopOp_of_running hst, stopOp_of_running (by exact hst)]
    exact cancelPending_busyBlind (s.setState .stopped) b

theorem twctlOp_busyBlind (idx byte : Byte) : BusyBlind (twctlOp idx byte) := by
  intro s b
  unfold twctlOp
  split <;> rfl

theorem twrldOp_busyBlind (idx : Byte) (half : Half) : BusyBlind (twrldOp idx half) := by
  intro s b
  unfold twrldOp
  split <;> rfl

theorem busrOp_busyBlind (a : Word) : BusyBlind (busrOp a) := by
  intro s b
  unfold busrOp
  rw [State.setBusy_params]
  split <;> rfl

theorem buswOp_busyBlind (v : Half) (a : Word) : BusyBlind (buswOp v a) := by
  intro s b
  unfold buswOp
  rw [State.setBusy_params]
  split
  · rename_i r _
    cases r <;> rfl
  · rfl

theorem setfpsOp_busyBlind (n : Word) : BusyBlind (setfpsOp n) := by
  intro s b
  unfold setfpsOp
  split <;> rfl

/-- The operation codes of the commands that a busy block allows (42_scheduler.md R182). -/
theorem nestedOp_busyBlind {i : Instr} (h : i.op = 0x03 ∨ i.op = 0x04 ∨ i.op = 0x05 ∨ i.op = 0x06 ∨ i.op = 0x11 ∨
    i.op = 0x12 ∨ i.op = 0x15) : BusyBlind (nestedOp i) := by
  have hform := nestedForm i
  generalize nestedOp i = f at hform
  cases hform with
  | treset | tstep | sreset | fire | dstep => simp [Instr.op] at h
  | twctl idx byte => exact twctlOp_busyBlind idx byte
  | twrld idx half => exact twrldOp_busyBlind idx half
  | busr a => exact busrOp_busyBlind a
  | busw v a => exact buswOp_busyBlind v a
  | start => exact startOp_busyBlind
  | stop => exact stopOp_busyBlind
  | setfps n => exact setfpsOp_busyBlind n

/-- Settles O51: the refused commands end in the busy check, the others do not look at `S.busy`. -/
theorem busyBlockAllowsOnlySomeCommands : Obligations.BusyBlockAllowsOnlySomeCommands := by
  refine fun s hl hb => ⟨fun i hi => ?_, fun i t hi ht => ?_⟩
  · rw [nestedCommandIsTheCommandWhileBusy i s hl hb]
    have hrefused (op : Byte) : unlessBusy op id s =
        { s with sched := { s.sched with fault := some (.reentrantCommand op) } } := by
      rw [unlessBusy_of_busy hb, raise_of_live hl]
    obtain rfl | ⟨c, rfl⟩ | rfl | ⟨rfl, hst⟩ | ⟨rfl, hp⟩ := hi
    · exact congrArg _ ((unlessBusy_congr_of_busy hb _ _ _).trans (hrefused 0x01))
    · exact congrArg _ ((unlessBusy_congr_of_busy hb _ _ _).trans (hrefused 0x02))
    · exact congrArg _ (hrefused 0x10)
    · exact congrArg _ ((dstepGate_of_stopped hst id).trans (hrefused 0x14))
    · obtain ⟨h, hp⟩ := Option.ne_none_iff_exists'.mp hp
      exact congrArg _ ((fireGate_of_some hp id).trans (hrefused 0x13))
  · have hexec (u : State) : exec i u = command (nestedOp i) u :=
      exec_eq_nestedOp (by rintro rfl; simp [Instr.op] at hi) (by rintro rfl; simp [Instr.op] at hi)
        (by rintro rfl; simp [Instr.op] at hi) u
    have hself : s = (s.setBusy false).setBusy true := by
      change s = { s with sched := { s.sched with busy := true } }
      rw [← hb]
    rw [hexec, command_of_live (by exact hl)] at ht
    cases ht
    rw [hexec, command_of_live hl]
    conv_lhs => rw [hself]
    exact congrArg _ (nestedOp_busyBlind hi (s.setBusy false) true)

end Sys2Proof.Machine
end

section
/-! The statistics and the pacing of a frame (42_scheduler.md R171, R172), when a frame starts (R164), and what every
command but the FIRE of a pending handle leaves alone (R180). -/

namespace Sys2Proof.Machine

/-! ### Statistics -/

/-- Counting the frame and then sampling is the sampling of 42_scheduler.md R171. -/
theorem sample_countFrame (s : State) (t1 : Ms) : s.countFrame.sched.sample t1 = Reference.sampled s.sched t1 := by
  rw [State.countFrame_sched, Scheduler.sample, Reference.sampled]
  dsimp only
  split_ifs <;> rfl

theorem statistics_reads {s : State} {t1 : Ms} {now : List NowAnswer} (hl : s.live = true)
    (hnow : s.env.now = .reads t1 :: now) (hclock : s.env.clock ≤ t1) :
    statistics s = { s with
      sched := Reference.sampled s.sched t1
      env := { s.env with now := now, clock := t1 }
      trace := .hostNow t1 :: s.trace } := by
  rw [statistics, hostNow_reads (s := s.countFrame) hnow hclock, andThen_of_live (by exact hl), ← sample_countFrame]
  rfl

/-- Settles O44: the count comes before the reading, and the sample is taken of the count. -/
theorem statisticsSampleOncePerSecond : Obligations.StatisticsSampleOncePerSecond := by
  refine fun s now hl => ⟨fun t1 hnow hclock => statistics_reads hl hnow hclock, fun hnow => ?_⟩
  obtain ⟨_, hk⟩ := (live_iff s).mp hl
  have hstuck : s.stuck.or (some Call.hostNow) = some .hostNow := by rw [hk]; rfl
  rw [statistics, hostNow_never (s := s.countFrame) hnow, State.countFrame_stuck, hstuck,
    andThen_of_not_live (by simp [State.live])]
  rfl

/-! ### Pacing -/

theorem maySchedule_iff (c : Scheduler) : c.maySchedule = true ↔ c.state = .running ∧ c.pending = none := by
  simp [Scheduler.maySchedule]

/-- After the reading the guard is asked, and the delay is counted from the frame's start. -/
theorem pacing_reads {s : State} {t2 : Ms} {now : List NowAnswer} (hl : s.live = true)
    (hnow : s.env.now = .reads t2 :: now) (hclock : s.env.clock ≤ t2) :
    pacing s =
      if s.sched.maySchedule then
        State.schedule { s with env := { s.env with now := now, clock := t2 }, trace := .hostNow t2 :: s.trace }
          (Reference.delay s.sched s.sched.frameStart t2)
      else { s with env := { s.env with now := now, clock := t2 }, trace := .hostNow t2 :: s.trace } := by
  rw [pacing, hostNow_reads hnow hclock, andThen_of_live (by exact hl)]
  rfl

/-- Settles O45: the guard decides between one schedule call and none. -/
theorem pacingSchedulesAfterTheRestOfTheInterval : Obligations.PacingSchedulesAfterTheRestOfTheInterval := by
  intro s t2 now host hl hnow hclock hhost
  rw [pacing_reads hl hnow hclock]
  refine ⟨fun hmay => ?_, fun hmay => ?_⟩ <;> rw [← maySchedule_iff] at hmay
  · rw [if_pos hmay, schedule_ok _ (by exact hl) (by exact hhost)]
    rfl
  · rw [if_neg hmay]

/-! ### The start of a frame is written at its entry alone -/

/-- The current or last frame has started at `x`. -/
def StartedAt (x : Ms) (s : State) : Prop := s.sched.frameStart = x

theorem hostCall_startedAt {x : Ms} (c : Call) (o : Output) {s : State} (h : StartedAt x s) :
    StartedAt x (hostCall c o s) := by
  rw [StartedAt, hostCall_sched]
  exact h

theorem schedule_startedAt {x : Ms} (delay : Ms) {s : State} (h : StartedAt x s) : StartedAt x (s.schedule delay) :=
  andThen_keeps (hostCall_startedAt _ _ h) fun _ h1 => h1

theorem cancelPending_startedAt {x : Ms} {s : State} (h : StartedAt x s) : StartedAt x s.cancelPending := by
  unfold State.cancelPending
  split
  exacts [h, andThen_keeps (hostCall_startedAt _ _ h) fun _ h1 => h1]

theorem startedAt_kept (x : Ms) : Kept (StartedAt x) where
  answers k h := by rw [StartedAt, k.sched]; exact h
  raise _ _ h := h
  hang _ _ h := h
  log _ _ _ h := h
  timers _ _ h := h
  flags _ _ h := h
  rate _ _ _ h := h
  start s h := by
    unfold startOp
    split
    exacts [h, schedule_startedAt (s := s.setState .running) 0 h]
  stop s h := by
    unfold stopOp
    split
    exacts [h, cancelPending_startedAt (s := s.setState .stopped) h]

theorem hostNow_startedAt {x : Ms} {s : State} (h : StartedAt x s) : StartedAt x s.hostNow.2 := by
  rw [StartedAt, hostNow_sched]
  exact h

theorem statistics_startedAt {x : Ms} {s : State} (h : StartedAt x s) : StartedAt x (statistics s) := by
  refine andThen_keeps (hostNow_startedAt (s := s.countFrame) h) fun _ h1 => ?_
  rw [StartedAt, State.setSample_sched, Scheduler.sample]
  split <;> exact h1

theorem pacing_startedAt {x : Ms} {s : State} (h : StartedAt x s) : StartedAt x (pacing s) := by
  rw [pacing]
  refine andThen_keeps (hostNow_startedAt h) fun _ h1 => ?_
  split
  exacts [schedule_startedAt _ h1, h1]

theorem frameTail_startedAt {x : Ms} {s : State} (h : StartedAt x s) : StartedAt x (frameTail s) := by
  unfold frameTail
  split
  · exact h
  · have h1 := andThen_keeps (statistics_startedAt h) fun _ => pacing_startedAt
    exact andThen_keeps h1 fun _ h2 => andThen_keeps ((startedAt_kept x).frameComplete h2) fun _ h3 => h3

theorem abortFrame_startedAt {x : Ms} {s : State} (h : StartedAt x s) : StartedAt x (abortFrame s) :=
  andThen_keeps (cancelPending_startedAt (s := s.setState .stopped) h) fun _ h1 => h1

theorem countCycles_startedAt {x : Ms} (r : Nat) {s : State} (h : StartedAt x s) : StartedAt x (countCycles r s) :=
  (startedAt_kept x).timerStep r h

theorem frameLoop_startedAt {x : Ms} (n : Nat) : ∀ {s : State}, StartedAt x s → StartedAt x (frameLoop n s) := by
  have k := startedAt_kept x
  induction n with
  | zero => exact frameTail_startedAt
  | succ n ih =>
    intro s h
    unfold frameLoop
    split
    · split
      · exact h
      · refine andThen_keeps (k.cpuStep (s := s) h) fun _ h1 => ?_
        have hfail := abortFrame_startedAt h1
        split
        · exact h1
        · exact hfail
        · exact hfail
        · exact andThen_keeps (k.ppuStep _ h1) fun _ h2 => ih (countCycles_startedAt _ h2)
    · exact frameTail_startedAt h

/-- Only a clock that never answers stops the block at a reading (42_scheduler.md R179). -/
theorem hostNow_stuck {s : State} (hl : s.live = true) (h : s.hostNow.2.live = false) :
    s.hostNow.2.stuck = some .hostNow := by
  have hsame := takeNow_same s
  unfold State.hostNow at h ⊢
  split at h <;> rename_i he <;> rw [he] at hsame
  · exact absurd (hsame.live.trans hl) (by rw [Bool.not_eq_true]; exact h)
  · obtain ⟨_, hk⟩ := (live_iff s).mp hl
    rw [State.hang_stuck, hsame.stuck, hk]
    rfl

/-- A frame that a running scheduler enters starts at the host's clock or later, or the clock has not answered. -/
theorem runFrame_frameStart {s : State} (hl : s.live = true) (hrun : s.sched.state = .running) :
    s.env.clock ≤ (runFrame s).sched.frameStart ∨ (runFrame s).stuck = some .hostNow := by
  rw [runFrame, hrun]
  dsimp only
  have hclock : s.env.clock ≤ (s.setBusy true).hostNow.1 := by
    rw [hostNow_reading]
    exact (hostNow_extends (s.setBusy true)).clock
  obtain ⟨_, he⟩ | ⟨hdead, he⟩ := andThen_cases (s.setBusy true).hostNow.2 fun s1 =>
    frameLoop frameBudget ((s1.setFrameStart (s.setBusy true).hostNow.1).setAcc 0)
  · have hstart := frameLoop_startedAt (x := (s.setBusy true).hostNow.1) frameBudget
      (s := ((s.setBusy true).hostNow.2.setFrameStart (s.setBusy true).hostNow.1).setAcc 0) rfl
    rw [he, hstart]
    exact .inl hclock
  · rw [he]
    exact .inr (hostNow_stuck hl hdead)

/-- Settles O46: a FIRE advances the clock's bound to the handle's time before the frame is entered. -/
theorem frameStartsNoEarlierThanItsHandleIsDue : Obligations.FrameStartsNoEarlierThanItsHandleIsDue := by
  intro s h hready hrun hp
  obtain ⟨hl, hb⟩ := hready
  refine ⟨runFrame ((s.setPending none).clockTo h.due), ?_, ?_⟩
  · refine (command_of_live hl _).trans ?_
    rw [fireGate_of_some hp, unlessBusy_of_idle hb, fireBody, hp]
  · have hdue : h.due ≤ ((s.setPending none).clockTo h.due).env.clock := le_max_right _ _
    exact (runFrame_frameStart (s := (s.setPending none).clockTo h.due) hl hrun).imp_left hdue.trans

/-! ### What a command other than the FIRE of a pending handle leaves alone -/

/-- Stopped with nothing pending. -/
def AtRest (s : State) : Prop := s.sched.state = .stopped ∧ s.sched.pending = none

/-- The registers that only a frame writes: the accumulator, the frame's start and the statistics (42_scheduler.md R168,
R169, R171). -/
def State.frameRegs (s : State) : Nat × Ms × Nat × Nat × Ms :=
  (s.sched.acc, s.sched.frameStart, s.sched.frameCount, s.sched.measuredFps, s.sched.lastSampleTime)

/-- From `s` the block has come to `t` without a step of a frame and with at most `n` calls of `CPU.step()`; a block at rest
has stayed at rest, unless a START has scheduled a frame (42_scheduler.md R165, R180). -/
structure NoFrame (n : Nat) (s t : State) : Prop where
  regs : t.frameRegs = s.frameRegs
  outs : ∃ outs, t.trace = outs ++ s.trace ∧ (∀ x, .hostNow x ∉ outs) ∧ outs.count .cpuStep ≤ n ∧
    (AtRest s → AtRest t ∨ ∃ k, .hostSchedule k 0 ∈ outs)

theorem NoFrame.trans {n m : Nat} {s t u : State} (h : NoFrame n s t) (k : NoFrame m t u) : NoFrame (n + m) s u := by
  obtain ⟨hregs, outs, htrace, hnow, hcpu, hrest⟩ := h
  obtain ⟨kregs, outs', ktrace, know, kcpu, krest⟩ := k
  refine ⟨kregs.trans hregs, outs' ++ outs, ?_, fun x => ?_, ?_, fun hs => ?_⟩
  · rw [ktrace, htrace, List.append_assoc]
  · simp [hnow x, know x]
  · rw [List.count_append]
    omega
  · obtain ht | ⟨i, hi⟩ := hrest hs
    · exact (krest ht).imp_right fun ⟨i, hi⟩ => ⟨i, List.mem_append_left _ hi⟩
    · exact .inr ⟨i, List.mem_append_right _ hi⟩

/-- An update that puts nothing out. -/
theorem noFrame_of_trace_eq {s t : State} (hregs : t.frameRegs = s.frameRegs) (htrace : t.trace = s.trace)
    (hrest : AtRest s → AtRest t) : NoFrame 0 s t :=
  ⟨hregs, [], htrace, by simp, by simp, fun h => .inl (hrest h)⟩

/-- An update that puts out one output, neither a reading of the clock nor a call of `CPU.step()`. -/
theorem noFrame_of_output {s t : State} {o : Output} (hregs : t.frameRegs = s.frameRegs)
    (htrace : t.trace = o :: s.trace) (hnow : ∀ x, o ≠ .hostNow x) (hcpu : o ≠ .cpuStep)
    (hrest : AtRest s → AtRest t ∨ ∃ k, o = .hostSchedule k 0) : NoFrame 0 s t := by
  refine ⟨hregs, [o], htrace, fun x => ?_, ?_, fun h => (hrest h).imp_right fun ⟨k, hk⟩ => ⟨k, by simp [hk]⟩⟩
  · simpa using (hnow x).symm
  · rw [List.count_singleton, beq_false_of_ne hcpu]
    rfl

theorem log_noFrame (s : State) {o : Output} (hnow : ∀ x, o ≠ .hostNow x) (hcpu : o ≠ .cpuStep) :
    NoFrame 0 s (s.log o) :=
  noFrame_of_output rfl rfl hnow hcpu .inl

/-- The call of `CPU.step()` is put out. -/
theorem log_cpuStep_noFrame (s : State) : NoFrame 1 s (s.log .cpuStep) :=
  ⟨rfl, [.cpuStep], rfl, by simp, by simp, .inl⟩

theorem hostCall_frameRegs (c : Call) (o : Output) (s : State) : (hostCall c o s).frameRegs = s.frameRegs := by
  rw [State.frameRegs, hostCall_sched]
  rfl

theorem hostCall_trace (c : Call) (o : Output) (s : State) : (hostCall c o s).trace = o :: s.trace := by
  have h := (takeHost_same (s.log o)).trace
  unfold hostCall
  obtain he | he | he := onReply_cases (s.log o).takeHost.2 c (s.log o).takeHost.1 <;> rw [he] <;> exact h

/-- Scheduling puts out the call, whatever the host answers. -/
theorem schedule_frameRegs_trace (delay : Ms) (s : State) : (s.schedule delay).frameRegs = s.frameRegs ∧
    (s.schedule delay).trace = .hostSchedule s.env.nextHandle delay :: s.trace :=
  andThen_keeps (P := fun t => t.frameRegs = s.frameRegs ∧ t.trace = .hostSchedule s.env.nextHandle delay :: s.trace)
    ⟨hostCall_frameRegs _ _ s, hostCall_trace _ _ s⟩ fun _ h => h

/-- So does cancelling. -/
theorem cancelPending_frameRegs_trace {s : State} {h : Handle} (hp : s.sched.pending = some h) :
    s.cancelPending.frameRegs = s.frameRegs ∧ s.cancelPending.trace = .hostCancel h.num :: s.trace := by
  rw [State.cancelPending, hp]
  exact andThen_keeps (P := fun t => t.frameRegs = s.frameRegs ∧ t.trace = .hostCancel h.num :: s.trace)
    ⟨hostCall_frameRegs _ _ s, hostCall_trace _ _ s⟩ fun _ h => h

theorem startOp_noFrame (s : State) : NoFrame 0 s (startOp s) := by
  cases hst : s.sched.state with
  | running =>
    rw [startOp_of_running hst]
    exact noFrame_of_trace_eq rfl rfl id
  | stopped =>
    obtain ⟨hregs, htrace⟩ := schedule_frameRegs_trace 0 (s.setState .running)
    rw [startOp_of_stopped hst]
    exact noFrame_of_output hregs htrace (by simp) (by simp) fun _ => .inr ⟨_, rfl⟩

/-- Stopping and cancelling, in a STOP and in an AbortFrame: where nothing is pending, nothing is cancelled. -/
theorem halt_noFrame (s : State) : NoFrame 0 s (s.setState .stopped).cancelPending := by
  cases hp : s.sched.pending with
  | none =>
    rw [cancelPending_none (by exact hp)]
    exact noFrame_of_trace_eq rfl rfl fun _ => ⟨rfl, hp⟩
  | some h =>
    obtain ⟨hregs, htrace⟩ := cancelPending_frameRegs_trace (s := s.setState .stopped) hp
    refine noFrame_of_output hregs htrace (by simp) (by simp) fun hrest => ?_
    exact nomatch hp.symm.trans hrest.2

theorem stopOp_noFrame (s : State) : NoFrame 0 s (stopOp s) := by
  cases hst : s.sched.state with
  | stopped =>
    rw [stopOp_of_stopped hst]
    exact noFrame_of_trace_eq rfl rfl id
  | running =>
    rw [stopOp_of_running hst]
    exact halt_noFrame s

/-- So nothing that may run inside an operation runs a step of a frame. -/
theorem noFrame_kept (n : Nat) (s : State) : Kept (NoFrame n s) where
  answers k h := h.trans (noFrame_of_trace_eq (by rw [State.frameRegs, k.sched]; rfl) k.trace (by
    rw [AtRest, AtRest, k.sched]; exact id))
  raise t f h := h.trans (noFrame_of_trace_eq (t := t.raise f) rfl rfl id)
  hang t c h := h.trans (noFrame_of_trace_eq (t := t.hang c) rfl rfl id)
  log t o ho h := h.trans (log_noFrame t (by rintro x rfl; cases ho) (by rintro rfl; cases ho))
  timers t v h := h.trans (noFrame_of_trace_eq (t := { t with timers := v }) rfl rfl id)
  flags t v h := h.trans (noFrame_of_trace_eq (t := t.setIf v) rfl rfl id)
  rate t r _ h := h.trans (noFrame_of_trace_eq (t := t.setRate r) rfl rfl id)
  start t h := h.trans (startOp_noFrame t)
  stop t h := h.trans (stopOp_noFrame t)

theorem setBusy_noFrame (s : State) (b : Bool) : NoFrame 0 s (s.setBusy b) := noFrame_of_trace_eq rfl rfl id

theorem abortFrame_noFrame (s : State) : NoFrame 0 s (abortFrame s) :=
  andThen_keeps (halt_noFrame s) fun _ h =>
    (h.trans (setBusy_noFrame _ false)).trans (log_noFrame _ (by simp) (by simp))

theorem sresetBody_noFrame (s : State) : NoFrame 0 s (sresetBody s) := by
  have k := noFrame_kept 0 s
  have h1 := k.collabCall .cpuReset (o := .cpuReset) rfl (setBusy_noFrame s true)
  have h2 := andThen_keeps h1 fun _ => k.collabCall .ppuReset (o := .ppuReset) rfl
  have h3 := andThen_keeps h2 fun _ => k.timerReset
  have h4 := andThen_keeps h3 fun _ => k.collabCall .inputReset (o := .inputReset) rfl
  exact andThen_keeps h4 fun _ h => h.trans (setBusy_noFrame _ false)

theorem dstepBody_noFrame (s : State) : NoFrame 1 s (dstepBody s) := by
  have k := noFrame_kept 1 s
  have hcpu : NoFrame 1 s (cpuStep (s.setBusy true)).2 :=
    k.cpuStep ((log_cpuStep_noFrame s).trans (setBusy_noFrame _ true))
  unfold dstepBody afterCpu
  refine andThen_keeps hcpu fun _ h1 => ?_
  have hfail := h1.trans (abortFrame_noFrame _)
  split
  · exact k.hang _ _ h1
  · exact hfail
  · exact hfail
  · exact andThen_keeps (k.ppuStep _ h1) fun _ h2 => (k.timerStep _ h2).trans (setBusy_noFrame _ false)

/-- A command runs no step of a frame, except the FIRE of a pending handle; a debug step alone calls `CPU.step()`. -/
theorem exec_noFrame {i : Instr} {s t : State} (hfire : i = .fire → s.sched.pending = none) (h : exec i s = .next t) :
    NoFrame (if i = .dstep then 1 else 0) s t := by
  have hrefl (n : Nat) : NoFrame n s s := ⟨rfl, [], rfl, by simp, by simp, .inl⟩
  by_cases h1 : i = .sreset
  · subst h1
    exact command_keeps (fun hp => (noFrame_kept 0 s).unlessBusy _ hp (sresetBody_noFrame s)) (hrefl 0) h
  by_cases h2 : i = .fire
  · subst h2
    refine command_keeps (fun hp => ?_) (hrefl 0) h
    rw [fireGate_of_none (hfire rfl)]
    exact hp
  by_cases h3 : i = .dstep
  · subst h3
    exact command_keeps (fun hp => (noFrame_kept 1 s).dstepGate hp (dstepBody_noFrame s)) (hrefl 1) h
  rw [exec_eq_nestedOp h1 h2 h3] at h
  rw [if_neg h3]
  exact command_keeps ((noFrame_kept 0 s).nestedOp i) (hrefl 0) h

/-- Of the commands that may run nested only START and STOP write `S.state` or `S.pending`, and a STOP leaves a block at
rest alone. -/
theorem nestedOp_atRest {i : Instr} (hi : i ≠ .start) {s : State} (h : AtRest s) : AtRest (nestedOp i s) := by
  have hbusy (op : Byte) (f : State → State) (hf : AtRest (f s)) : AtRest (unlessBusy op f s) := by
    unfold unlessBusy
    split
    exacts [h, hf]
  have hform := nestedForm i
  generalize nestedOp i = f at hform
  cases hform with
  | treset => exact hbusy _ _ h
  | tstep n => exact hbusy _ _ (by rw [AtRest, timerStep_sched]; exact h)
  | twctl idx byte => unfold twctlOp; split <;> exact h
  | twrld idx half => unfold twrldOp; split <;> exact h
  | busr a => unfold busrOp; split <;> exact h
  | busw v a =>
    unfold buswOp
    split
    · rw [AtRest, busStore_sched]
      exact h
    · exact h
  | sreset => exact hbusy _ _ h
  | start => exact absurd rfl hi
  | stop => rwa [stopOp_of_stopped h.1]
  | fire => rwa [fireGate_of_none h.2]
  | dstep =>
    rw [dstepGate_of_stopped h.1]
    exact hbusy _ _ h
  | setfps n => unfold setfpsOp; split <;> exact h

/-- Settles O39: for a command that may run nested the second clause's outputs show that no `CPU.step()` is among them. -/
theorem stoppedBlockRunsNoFrame : Obligations.StoppedBlockRunsNoFrame := by
  constructor
  · intro i s hl hst hp hstart hdstep hsreset
    by_cases hfire : i = .fire
    · subst hfire
      exact ⟨s, [], exec_fire_of_none hl hp, hst, hp, rfl, by simp⟩
    · have hexec : exec i s = .next (nestedOp i s) := by
        rw [exec_eq_nestedOp hsreset hfire hdstep, command_of_live hl]
      obtain ⟨_, outs, htrace, _, hcpu, _⟩ := exec_noFrame (fun h => absurd h hfire) hexec
      obtain ⟨hst', hp'⟩ := nestedOp_atRest hstart ⟨hst, hp⟩
      rw [if_neg hdstep, Nat.le_zero, List.count_eq_zero] at hcpu
      exact ⟨_, outs, hexec, hst', hp', htrace, hcpu⟩
  · intro i s hs hfire
    obtain ⟨t, ht⟩ := everyCommandAnswersANextState i s hs
    obtain ⟨hregs, outs, htrace, hnow, hcpu, hrest⟩ := exec_noFrame hfire ht
    simp only [State.frameRegs, Prod.mk.injEq] at hregs
    obtain ⟨hacc, hstart, hcount, hfps, hsample⟩ := hregs
    exact ⟨t, outs, ht, htrace, hacc, hstart, hcount, hfps, hsample, hnow, hcpu, fun hst hp => hrest ⟨hst, hp⟩⟩

end Sys2Proof.Machine
end

section
/-! A frame from its FIRE to its end (42_scheduler.md R167 to R175, R179): complete, aborted by a failing CPU step, abandoned
after a STOP, and stopped by a failing collaborator call. -/

namespace Sys2Proof.Machine

/-! ### The commands that the CPU issues during its step -/

/-- The word of an instruction, issued inside an operation, is that instruction. -/
theorem nestedWord_encode {i : Instr} (h : i.WellFormed) (s : State) : nestedWord (encode i) s = nestedOp i s := by
  rw [nestedWord, decodeOfEncodeIsTheInstruction i h]

section
variable {s : State} {c : Scheduler} {e : Env} {host : List Reply}

theorem cpuStep_around {ws : List Cmd} {res : CpuResult} {cpu : List CpuAnswer} (h : e.cpu = ⟨ws, res⟩ :: cpu) :
    cpuStep (s.around c e none) = (res, nestedAll ws ((s.log .cpuStep).around c { e with cpu := cpu } none)) :=
  cpuStep_scripted (s := s.around c e none) h

theorem around_setState (v : SchedState) : (s.around c e none).setState v = s.around { c with state := v } e none := rfl

/-- A START of a stopped scheduler. -/
theorem nestedAll_start (hf : c.fault = none) (hst : c.state = .stopped) (hhost : e.host = .ok :: host) :
    nestedAll [encode .start] (s.around c e none) =
      (s.log (.hostSchedule e.nextHandle 0)).around
        { c with state := .running, pending := some ⟨e.nextHandle, e.clock + 0⟩ }
        { e with host := host, nextHandle := e.nextHandle + 1 } none := by
  rw [nestedAll_cons, nestedAll_nil, andThen_of_live (around_live _ (by exact hf) _), nestedWord_encode rfl]
  change startOp _ = _
  rw [startOp_of_stopped (by exact hst), around_setState, schedule_ok 0 (around_live _ (by exact hf) _) (by exact hhost)]
  rfl

/-- A STOP of a running scheduler with nothing pending. -/
theorem nestedAll_stop (ws : List Cmd) (hf : c.fault = none) (hrun : c.state = .running) (hp : c.pending = none) :
    nestedAll (encode .stop :: ws) (s.around c e none) = nestedAll ws (s.around { c with state := .stopped } e none) := by
  rw [nestedAll_cons, andThen_of_live (around_live _ (by exact hf) _), nestedWord_encode rfl]
  change nestedAll ws (stopOp _) = _
  rw [stopOp_of_running (by exact hrun), cancelPending_none (by exact hp)]
  rfl

/-- The timers' part and the accumulator's part of an iteration. -/
theorem countCycles_around (r : Nat) :
    countCycles r (s.around c e none) = (timerStep r s).around { c with acc := c.acc + r } e none := by
  rw [countCycles, timerStep_around]
  rfl

/-! ### AbortFrame -/

theorem abortFrame_of_none (hf : c.fault = none) (hp : c.pending = none) :
    abortFrame (s.around c e none) =
      (s.log .cpuStepFailure).around { c with state := .stopped, busy := false } e none := by
  rw [abortFrame, cancelPending_none (by exact hp), andThen_of_live ((live_iff _).mpr ⟨hf, rfl⟩)]
  rfl

theorem abortFrame_of_some {h : Handle} (hf : c.fault = none) (hp : c.pending = some h)
    (hhost : e.host = .ok :: host) :
    abortFrame (s.around c e none) =
      ((s.log (.hostCancel h.num)).log .cpuStepFailure).around
        { c with state := .stopped, pending := none, busy := false } { e with host := host } none := by
  rw [abortFrame, around_setState, cancelPending_ok (around_live _ (by exact hf) _) (by exact hp) (by exact hhost),
    andThen_of_live ((live_iff _).mpr ⟨hf, rfl⟩)]
  rfl

/-- Where the cancel fails there is no event (log 17). -/
theorem abortFrame_cancel_fails {h : Handle} (hf : c.fault = none) (hp : c.pending = some h)
    (hhost : e.host = .fail :: host) :
    abortFrame (s.around c e none) =
      Reference.failed .hostCancel (.hostCancel h.num)
        (s.around { c with state := .stopped } { e with host := host } none) := by
  rw [abortFrame, around_setState, cancelPending_fail (around_live _ (by exact hf) _) (by exact hp) (by exact hhost),
    andThen_of_not_live (by simp [State.live])]
  rfl

end

/-! ### Inside the frame of a FIRE -/

section
variable {s : State} {c : Scheduler} {e : Env} {cpu : List CpuAnswer}

/-- Another iteration, up to the commands that the CPU issues in it. -/
theorem frameLoop_scripted {ws : List Cmd} {res : CpuResult} (n : Nat) (hrun : c.state = .running)
    (hb : c.acc < frameBudget) (hcpu : e.cpu = ⟨ws, res⟩ :: cpu) :
    frameLoop (n + 1) (s.around c e none) =
      afterCpu (res, nestedAll ws ((s.log .cpuStep).around c { e with cpu := cpu } none)) abortFrame fun r =>
        iteration r (frameLoop n) := by
  rw [frameLoop_running (by exact hb) (by exact hrun), cpuStep_around hcpu]

/-- Another iteration, in which the CPU issues no command and reports `r`. -/
theorem frameLoop_cycles {r : Nat} (n : Nat) (hf : c.fault = none) (hrun : c.state = .running)
    (hb : c.acc < frameBudget) (hr : 0 < r) (hcpu : e.cpu = ⟨[], .cycles r⟩ :: cpu) :
    frameLoop (n + 1) (s.around c e none) =
      iteration r (frameLoop n) ((s.log .cpuStep).around c { e with cpu := cpu } none) := by
  rw [frameLoop_scripted n hrun hb hcpu, nestedAll_nil, afterCpu_cycles hr (around_live _ hf _)]

/-- The CPU issues a STOP and a START and then fails: the abort finds the handle of that START. -/
theorem frameLoop_restart_failure {res : CpuResult} {host : List Reply} (n : Nat)
    (hres : res = .fail ∨ res = .cycles 0) (hf : c.fault = none) (hrun : c.state = .running)
    (hp : c.pending = none) (hb : c.acc < frameBudget)
    (hcpu : e.cpu = ⟨[encode .stop, encode .start], res⟩ :: cpu) (hhost : e.host = .ok :: host) :
    frameLoop (n + 1) (s.around c e none) = abortFrame
      (((s.log .cpuStep).log (.hostSchedule e.nextHandle 0)).around
        { c with state := .running, pending := some ⟨e.nextHandle, e.clock + 0⟩ }
        { e with cpu := cpu, host := host, nextHandle := e.nextHandle + 1 } none) := by
  rw [frameLoop_scripted n hrun hb hcpu, nestedAll_stop _ hf hrun hp,
    nestedAll_start (by exact hf) (by rfl) (by exact hhost), afterCpu_failure hres (around_live _ (by exact hf) _)]

end

/-- What begins a frame, and the iterations with the counts `rs` after which the budget is not reached. -/
theorem fire_inFrame {s : State} {h : Handle} {t0 : Ms} {rs : List Nat} {cpu : List CpuAnswer} {ppu : List PpuAnswer}
    {now : List NowAnswer} (k : Nat) (hfr : Reference.FrameBegins s h t0 now) (hpos : ∀ r ∈ rs, 0 < r)
    (hsum : rs.sum + k ≤ frameBudget) (hk : 0 < k) (hcpu : s.env.cpu = rs.map (fun r => ⟨[], .cycles r⟩) ++ cpu)
    (hppu : s.env.ppu = List.replicate rs.length ⟨[], .ok⟩ ++ ppu) :
    ∃ n, exec .fire s = .next (frameLoop (n + k) ((Reference.iterations rs (s.log (.hostNow t0))).around
      { s.sched with pending := none, acc := rs.sum, frameStart := t0, busy := true }
      { s.env with cpu := cpu, ppu := ppu, now := now, clock := t0 } none)) := by
  have hdrop : rs.dropLast.sum ≤ rs.sum := (List.dropLast_sublist rs).sum_le_sum (by simp)
  have hlen : rs.length ≤ rs.sum := List.length_le_sum_of_one_le rs hpos
  refine ⟨frameBudget - rs.length - k, ?_⟩
  rw [fire_iterations hfr hpos (fun _ => by omega) hcpu hppu, inFrame_eq_around, Nat.sub_add_cancel (by omega)]

/-- Settles O41: where the CPU has issued no START nothing is pending, so nothing is cancelled. -/
theorem cpuFailureAbortsTheFrame : Obligations.CpuFailureAbortsTheFrame := by
  intro s h rs res cpu ppu now t0 hready hrun hp hpos hsum hres hppu hnow hclock hdue
  have hfr : Reference.FrameBegins s h t0 now := ⟨hready, hrun, hp, hnow, hclock, hdue⟩
  obtain ⟨hl, hbusy⟩ := hready
  obtain ⟨hf, _⟩ := (live_iff s).mp hl
  have hpar : (Reference.iterations rs (s.log (.hostNow t0))).params = s.params := iterations_params _ _
  refine ⟨fun hcpu => ?_, fun host hcpu hhost => ?_⟩ <;>
    obtain ⟨n, hn⟩ := fire_inFrame 1 hfr hpos hsum Nat.one_pos hcpu hppu
  · rw [hn, frameLoop_cpuFails n hres (by exact hf) (by exact hrun) (by rfl) (by exact hsum) (by rfl), ← hbusy,
      ← hpar]
    rfl
  · rw [hn, frameLoop_restart_failure n hres (by exact hf) (by exact hrun) (by rfl) (by exact hsum) (by rfl)
      (by exact hhost), abortFrame_of_some (by exact hf) (by rfl) (by rfl), ← hbusy, ← hpar]
    rfl

theorem iterations_concat (rs : List Nat) (r : Nat) (s : State) : Reference.iterations (rs ++ [r]) s =
    timerStep r (((Reference.iterations rs s).log .cpuStep).log (.ppuStep r)) := by
  rw [Reference.iterations, List.foldl_append]
  rfl

/-- Settles O43: the loop finds the scheduler stopped after the iteration. -/
theorem stopInsideAFrameAbandonsIt : Obligations.StopInsideAFrameAbandonsIt := by
  intro s h rs r cpu ppu now t0 hready hrun hp hpos hr hsum hcpu hppu hnow hclock hdue
  have hfr : Reference.FrameBegins s h t0 now := ⟨hready, hrun, hp, hnow, hclock, hdue⟩
  obtain ⟨hl, hbusy⟩ := hready
  obtain ⟨hf, _⟩ := (live_iff s).mp hl
  rw [List.replicate_succ', List.append_assoc] at hppu
  obtain ⟨n, hn⟩ := fire_inFrame 1 hfr hpos hsum Nat.one_pos hcpu hppu
  have hpar : (Reference.iterations (rs ++ [r]) (s.log (.hostNow t0))).params = s.params := iterations_params _ _
  rw [hn, frameLoop_scripted n (by exact hrun) (by exact hsum) (by rfl),
    nestedAll_stop _ (by exact hf) (by exact hrun) (by rfl), nestedAll_nil,
    afterCpu_cycles hr (around_live _ (by exact hf) _), iteration, ppuStep_around r (by exact hf) (by rfl),
    andThen_of_live (around_live _ (by exact hf) _), countCycles_around, ← iterations_concat,
    frameLoop_stopped (by rfl), abandon, State.setBusy, ← hbusy, ← hpar]
  rfl

/-! ### The end of a frame -/

theorem inFrame_live {s : State} {t0 : Ms} (h : Reference.Ready s) (rs : List Nat) (cpu : List CpuAnswer)
    (ppu : List PpuAnswer) (now : List NowAnswer) : (Reference.inFrame s t0 rs cpu ppu now).live = true := by
  obtain ⟨hf, _⟩ := (live_iff s).mp h.1
  exact (live_iff _).mpr ⟨hf, rfl⟩

/-- Steps 3 and 4 of a frame whose scheduler runs with nothing pending: the readings are taken and the next frame is
scheduled. -/
theorem statistics_pacing {u : State} {t1 t2 : Ms} {now : List NowAnswer} (hl : u.live = true)
    (hrun : u.sched.state = .running) (hp : u.sched.pending = none) (hnow : u.env.now = .reads t1 :: .reads t2 :: now)
    (h1 : u.env.clock ≤ t1) (h2 : t1 ≤ t2) :
    (statistics u).andThen pacing =
      (Reference.timed u t1 t2 now).schedule (Reference.delay u.sched u.sched.frameStart t2) := by
  rw [statistics_reads hl hnow h1, andThen_of_live (by exact hl), pacing_reads (by exact hl) rfl h2,
    if_pos ((maySchedule_iff _).mpr (by exact ⟨hrun, hp⟩))]
  rfl

section
variable {s : State} {h : Handle} {t0 t1 t2 : Ms} {rs : List Nat} {cpu : List CpuAnswer} {ppu : List PpuAnswer}
  {now : List NowAnswer}

/-- A FIRE whose counts `rs` reach the budget with the last one: steps 3 and 4, then step 5. -/
theorem fire_ends (hfr : Reference.FrameBegins s h t0 (.reads t1 :: .reads t2 :: now)) (hpos : ∀ r ∈ rs, 0 < r)
    (hdrop : rs.dropLast.sum < frameBudget) (hsum : frameBudget ≤ rs.sum)
    (hcpu : s.env.cpu = rs.map (fun r => ⟨[], .cycles r⟩) ++ cpu)
    (hppu : s.env.ppu = List.replicate rs.length ⟨[], .ok⟩ ++ ppu) (h1 : t0 ≤ t1) (h2 : t1 ≤ t2) :
    exec .fire s = .next
      (((Reference.timed (Reference.inFrame s t0 rs cpu ppu (.reads t1 :: .reads t2 :: now)) t1 t2 now).schedule
        (Reference.delay s.sched t0 t2)).andThen notify) := by
  have hl := inFrame_live hfr.ready rs cpu ppu (.reads t1 :: .reads t2 :: now) (t0 := t0)
  have hrun : (Reference.inFrame s t0 rs cpu ppu (.reads t1 :: .reads t2 :: now)).sched.state = .running := hfr.running
  rw [fire_iterations hfr hpos (fun _ => hdrop) hcpu hppu, frameLoop_done (by exact hsum), frameTail, hrun]
  dsimp only
  rw [statistics_pacing hl hrun (by rfl) (by rfl) h1 h2]
  rfl

/-- Where the host schedules the next frame, step 5 follows. -/
theorem fire_notifies {host : List Reply} (hfr : Reference.FrameBegins s h t0 (.reads t1 :: .reads t2 :: now))
    (hpos : ∀ r ∈ rs, 0 < r) (hdrop : rs.dropLast.sum < frameBudget) (hsum : frameBudget ≤ rs.sum)
    (hcpu : s.env.cpu = rs.map (fun r => ⟨[], .cycles r⟩) ++ cpu)
    (hppu : s.env.ppu = List.replicate rs.length ⟨[], .ok⟩ ++ ppu) (h1 : t0 ≤ t1) (h2 : t1 ≤ t2)
    (hhost : s.env.host = .ok :: host) :
    exec .fire s = .next (notify (Reference.paced (Reference.timed
      (Reference.inFrame s t0 rs cpu ppu (.reads t1 :: .reads t2 :: now)) t1 t2 now) t0 t2 host)) := by
  have hl := inFrame_live hfr.ready rs cpu ppu (.reads t1 :: .reads t2 :: now) (t0 := t0)
  rw [fire_ends hfr hpos hdrop hsum hcpu hppu h1 h2, schedule_ok _ (by exact hl) (by exact hhost),
    andThen_of_live (by exact hl)]
  rfl

end

/-- Settles O40: the loop runs all counts, then steps 3, 4 and 5 run with every call returning. -/
theorem fireRunsACompleteFrame : Obligations.FireRunsACompleteFrame := by
  intro s h rs cpu ppu now host fb fbs calls t0 t1 t2 hready hrun hp hpos hdrop hsum hcpu hppu hnow hhost hfbs hcalls
    hclock hdue h1 h2
  have hl := inFrame_live hready rs cpu ppu (.reads t1 :: .reads t2 :: now) (t0 := t0)
  rw [fire_notifies ⟨hready, hrun, hp, hnow, hclock, hdue⟩ hpos hdrop hsum hcpu hppu h1 h2 hhost, notify,
    frameComplete_ok (by exact hl) (by exact hfbs) (by exact hcalls), andThen_of_live (by exact hl), State.setBusy,
    ← hready.2]
  rfl

/-! ### A failing collaborator call -/

/-- Settles O50: at each call the state reached is known, and a failure stops the frame there. -/
theorem failingCollaboratorStopsTheFrame : Obligations.FailingCollaboratorStopsTheFrame := by
  intro s h t0 rs cpu ppu now hfr hpos
  obtain ⟨hf, _⟩ := (live_iff s).mp hfr.ready.1
  have hrun := hfr.running
  refine ⟨fun r hr hsum hcpu hppu => ?_, fun res host hres hsum hcpu hppu hhost => ?_,
    fun t1 t2 rest host hdrop hsum hcpu hppu hnow h1 h2 => ?_⟩
  · obtain ⟨n, hn⟩ := fire_inFrame 1 hfr hpos hsum Nat.one_pos hcpu hppu
    rw [hn, frameLoop_cycles n (by exact hf) (by exact hrun) (by exact hsum) hr (by rfl), iteration,
      ppuStep_fail (around_live _ (by exact hf) _) (by rfl), andThen_of_not_live (by simp [State.live]),
      inFrame_eq_around]
    rfl
  · obtain ⟨n, hn⟩ := fire_inFrame 1 hfr hpos hsum Nat.one_pos hcpu hppu
    rw [hn, frameLoop_restart_failure n hres (by exact hf) (by exact hrun) (by rfl) (by exact hsum) (by rfl)
      (by exact hhost), abortFrame_cancel_fails (by exact hf) (by rfl) (by rfl), inFrame_eq_around]
    rfl
  · subst hnow
    have hl := inFrame_live hfr.ready rs cpu ppu (.reads t1 :: .reads t2 :: rest) (t0 := t0)
    refine ⟨fun hhost => ?_, fun fbs hhost hfbs => ?_, fun fb fbs calls hhost hfbs hcalls => ?_⟩
    · rw [fire_ends hfr hpos hdrop hsum hcpu hppu h1 h2, schedule_fail _ (by exact hl) (by exact hhost),
        andThen_of_not_live (by simp [State.live])]
      rfl
    · rw [fire_notifies hfr hpos hdrop hsum hcpu hppu h1 h2 hhost, notify,
        frameComplete_fail (by exact hl) (by exact hfbs), andThen_of_not_live (by simp [State.live])]
      rfl
    · rw [fire_notifies hfr hpos hdrop hsum hcpu hppu h1 h2 hhost, notify,
        frameComplete_buffer (by exact hl) (by exact hfbs), render,
        collabCall_fail (by exact hl) (by exact hcalls), andThen_of_not_live (by simp [State.live])]
      rfl

end Sys2Proof.Machine
end

section
/-! The debug step and subsystem reset (42_scheduler.md R176, R178), and a failing collaborator call in START, STOP,
SRESET and DSTEP (R179). -/

namespace Sys2Proof.Machine

/-! ### The debug step -/

section
variable {s : State} {cpu : List CpuAnswer}

/-- A debug step after its call of `CPU.step()`. -/
theorem exec_dstep_scripted {ws : List Cmd} {res : CpuResult} (h : Reference.Ready s) (hst : s.sched.state = .stopped)
    (hcpu : s.env.cpu = ⟨ws, res⟩ :: cpu) :
    exec .dstep s = .next (afterCpu
      (res, nestedAll ws ((s.log .cpuStep).around { s.sched with busy := true } { s.env with cpu := cpu } none))
      abortFrame fun r s1 => (ppuStep r s1).andThen fun s2 => (timerStep r s2).setBusy false) := by
  have hbusy : s.setBusy true = s.around { s.sched with busy := true } s.env none := (around_none_of_live h.1 _ _).symm
  rw [exec_dstep_of_ready h hst, dstepBody, hbusy, cpuStep_around hcpu]

/-- A debug step in which the CPU issues no command and reports `r`. -/
theorem exec_dstep_cycles {r : Nat} (h : Reference.Ready s) (hst : s.sched.state = .stopped) (hr : 0 < r)
    (hcpu : s.env.cpu = ⟨[], .cycles r⟩ :: cpu) :
    exec .dstep s = .next ((ppuStep r
      ((s.log .cpuStep).around { s.sched with busy := true } { s.env with cpu := cpu } none)).andThen fun s2 =>
        (timerStep r s2).setBusy false) := by
  obtain ⟨hf, _⟩ := (live_iff s).mp h.1
  rw [exec_dstep_scripted h hst hcpu, nestedAll_nil, afterCpu_cycles hr (around_live _ (by exact hf) _)]

/-- A debug step in which the CPU issues a START and then fails: AbortFrame takes the START back (log 19). -/
theorem exec_dstep_start_failure {res : CpuResult} {host : List Reply} (h : Reference.Ready s)
    (hst : s.sched.state = .stopped) (hres : res = .fail ∨ res = .cycles 0)
    (hcpu : s.env.cpu = ⟨[encode .start], res⟩ :: cpu) (hhost : s.env.host = .ok :: host) :
    exec .dstep s = .next (abortFrame
      (((s.log .cpuStep).log (.hostSchedule s.env.nextHandle 0)).around
        { s.sched with busy := true, state := .running, pending := some ⟨s.env.nextHandle, s.env.clock + 0⟩ }
        { s.env with cpu := cpu, host := host, nextHandle := s.env.nextHandle + 1 } none)) := by
  obtain ⟨hf, _⟩ := (live_iff s).mp h.1
  rw [exec_dstep_scripted h hst hcpu, nestedAll_start (by exact hf) (by exact hst) (by exact hhost),
    afterCpu_failure hres (around_live _ (by exact hf) _)]

end

/-- Settles O47: in a live stopped block the abort of a failing step writes back what is there. -/
theorem dstepRunsOneStepOfEach : Obligations.DstepRunsOneStepOfEach := by
  intro s hl
  obtain ⟨hf, hk⟩ := (live_iff s).mp hl
  refine ⟨fun r cpu ppu hbusy hst hr hcpu hppu => ?_,
    fun res cpu hbusy hst hp hres => ⟨fun hcpu => ?_, fun host hcpu hhost => ?_⟩, fun hrun => ?_, fun hbusy hst => ?_⟩
  · have hpar : (Reference.iterations [r] s).params = s.params := iterations_params _ _
    rw [exec_dstep_cycles ⟨hl, hbusy⟩ hst hr hcpu, ppuStep_around r (by exact hf) (by exact hppu),
      andThen_of_live (around_live _ (by exact hf) _), timerStep_around, State.setBusy, ← hbusy, ← hpar]
    rfl
  · rw [exec_dstep_scripted ⟨hl, hbusy⟩ hst hcpu, nestedAll_nil,
      afterCpu_failure hres (around_live _ (by exact hf) _),
      abortFrame_of_none (by exact hf) (by exact hp), ← hst, ← hbusy, ← hk]
    rfl
  · rw [exec_dstep_start_failure ⟨hl, hbusy⟩ hst hres hcpu hhost, abortFrame_of_some (by exact hf) (by rfl) (by rfl),
      ← hst, ← hbusy, ← hp, ← hk]
    rfl
  · refine (command_of_live hl _).trans ?_
    rw [dstepGate_of_running hrun, raise_of_live hl]
  · refine (command_of_live hl _).trans ?_
    rw [dstepGate_of_stopped hst, unlessBusy_of_busy hbusy, raise_of_live hl]

/-! ### Subsystem reset -/

theorem exec_sreset_of_ready {s : State} (h : Reference.Ready s) : exec .sreset s = .next (sresetBody s) :=
  (command_of_live h.1 _).trans (congrArg _ (unlessBusy_of_idle h.2 _ _))

/-- After a reset or a `render` in which nothing is issued and that returns, the operation goes on. -/
theorem collabCall_ok_andThen {s : State} {c : Call} {o : Output} {l : List CallAnswer} (hl : s.live = true)
    (h : s.env.calls = ⟨[], .ok⟩ :: l) (k : State → State) :
    (collabCall c o s).andThen k = k { s with env := { s.env with calls := l }, trace := o :: s.trace } := by
  rw [collabCall_ok hl h, andThen_of_live (by exact hl)]

/-- Settles O48: the four parts run in order, each in a live state. -/
theorem sresetResetsTimersAndCollaborators : Obligations.SresetResetsTimersAndCollaborators := by
  refine fun s hl => ⟨fun calls hbusy hcalls => ?_, fun hbusy => command_unlessBusy_of_busy hl hbusy _ _⟩
  rw [exec_sreset_of_ready ⟨hl, hbusy⟩, sresetBody, collabCall_ok_andThen (by exact hl) (by exact hcalls),
    collabCall_ok_andThen (by exact hl) (by rfl), andThen_of_live (s := timerReset _) (by exact hl),
    collabCall_ok_andThen (by exact hl) (by rfl), State.setBusy, ← hbusy]
  rfl

/-! ### A failing collaborator call -/

/-- Nothing of the operation runs after a reset or a `render` that fails. -/
theorem collabCall_fail_andThen {s : State} {c : Call} {o : Output} {l : List CallAnswer} (hl : s.live = true)
    (h : s.env.calls = ⟨[], .fail⟩ :: l) (k : State → State) : (collabCall c o s).andThen k = collabCall c o s := by
  refine andThen_of_not_live ?_ k
  rw [collabCall_fail hl h]
  simp [State.live]

theorem failed_live (c : Call) (o : Output) (u : State) : (Reference.failed c o u).live = false := by
  simp [Reference.failed, State.live]

/-- An observer call that stops the operation is the last thing of its PPU step. -/
theorem ppuStep_observer_stopped {s : State} {r : Nat} {acts : List PpuAct} {reply : Reply} {ppu : List PpuAnswer}
    (hl : s.live = true) (hppu : s.env.ppu = ⟨.endOfFrame :: acts, reply⟩ :: ppu)
    (hdead : (frameComplete { s with env := { s.env with ppu := ppu }, trace := .ppuStep r :: s.trace }).live = false) :
    ppuStep r s = frameComplete { s with env := { s.env with ppu := ppu }, trace := .ppuStep r :: s.trace } := by
  have hacts : ppuActs (.endOfFrame :: acts) { s with env := { s.env with ppu := ppu }, trace := .ppuStep r :: s.trace } =
      frameComplete { s with env := { s.env with ppu := ppu }, trace := .ppuStep r :: s.trace } :=
    ppuActs_stops (before := []) (by exact hl) hdead
  rw [ppuStep_of_acts_stopped hppu (by rw [hacts]; exact hdead), hacts]

section
variable {s : State} {r : Nat} {acts : List PpuAct} {reply : Reply} {ppu : List PpuAnswer} {fbs : List FbAnswer}

theorem ppuStep_getFramebuffer_fails (hl : s.live = true) (hppu : s.env.ppu = ⟨.endOfFrame :: acts, reply⟩ :: ppu)
    (hfbs : s.env.fbs = ⟨[], .fail⟩ :: fbs) :
    ppuStep r s = Reference.failed .getFramebuffer .getFramebuffer
      { s with env := { s.env with ppu := ppu, fbs := fbs }, trace := .ppuStep r :: s.trace } := by
  have hfail : frameComplete { s with env := { s.env with ppu := ppu }, trace := .ppuStep r :: s.trace } =
      Reference.failed .getFramebuffer .getFramebuffer
        { s with env := { s.env with ppu := ppu, fbs := fbs }, trace := .ppuStep r :: s.trace } :=
    frameComplete_fail (by exact hl) (by exact hfbs)
  rw [ppuStep_observer_stopped hl hppu (by rw [hfail, failed_live]), hfail]

theorem ppuStep_render_fails {fb : Framebuffer} {calls : List CallAnswer} (hl : s.live = true)
    (hppu : s.env.ppu = ⟨.endOfFrame :: acts, reply⟩ :: ppu) (hfbs : s.env.fbs = ⟨[], .buffer fb⟩ :: fbs)
    (hcalls : s.env.calls = ⟨[], .fail⟩ :: calls) :
    ppuStep r s = Reference.failed .render (.render fb)
      { s with
        env := { s.env with ppu := ppu, fbs := fbs, calls := calls }
        trace := .getFramebuffer :: .ppuStep r :: s.trace } := by
  have hfail : frameComplete { s with env := { s.env with ppu := ppu }, trace := .ppuStep r :: s.trace } =
      Reference.failed .render (.render fb)
        { s with
          env := { s.env with ppu := ppu, fbs := fbs, calls := calls }
          trace := .getFramebuffer :: .ppuStep r :: s.trace } := by
    rw [frameComplete_buffer (by exact hl) (by exact hfbs), render, collabCall_fail (by exact hl) (by exact hcalls)]
    rfl
  rw [ppuStep_observer_stopped hl hppu (by rw [hfail, failed_live]), hfail]

end

/-- Settles O49: at each call the state reached is known, and a failure stops the operation there. -/
theorem failingCollaboratorStopsTheOperation : Obligations.FailingCollaboratorStopsTheOperation := by
  intro s hready
  have ⟨hl, hbusy⟩ := hready
  obtain ⟨hf, hk⟩ := (live_iff s).mp hl
  refine ⟨fun rest hst hhost => ?start, fun h rest hrun hp hhost => ?stop, fun calls hcalls => ?cpuReset,
    fun calls hcalls => ?ppuReset, fun calls hcalls => ?inputReset, fun r cpu ppu hst hr hcpu hppu => ?ppuStep,
    fun r cpu ppu acts reply fbs hst hr hcpu hppu hfbs => ?getFramebuffer,
    fun r cpu ppu acts reply fb fbs calls hst hr hcpu hppu hfbs hcalls => ?render,
    fun res cpu host hst hres hcpu hhost => ?cancel⟩
  case start =>
    refine (command_of_live hl _).trans ?_
    rw [startOp_of_stopped hst, schedule_fail (s := s.setState .running) 0 hl hhost]
    rfl
  case stop =>
    refine (command_of_live hl _).trans ?_
    rw [stopOp_of_running hrun, cancelPending_fail (s := s.setState .stopped) hl hp hhost]
    rfl
  case cpuReset =>
    have hstop := collabCall_fail_andThen (c := .cpuReset) (o := .cpuReset) (s := s.setBusy true) hl hcalls
    rw [exec_sreset_of_ready hready, sresetBody, hstop, hstop, hstop, hstop,
      collabCall_fail (by exact hl) (by exact hcalls)]
    rfl
  case ppuReset =>
    rw [exec_sreset_of_ready hready, sresetBody, collabCall_ok_andThen (by exact hl) (by exact hcalls),
      collabCall_fail_andThen (by exact hl) (by rfl), collabCall_fail_andThen (by exact hl) (by rfl),
      collabCall_fail_andThen (by exact hl) (by rfl), collabCall_fail (by exact hl) (by rfl)]
    rfl
  case inputReset =>
    rw [exec_sreset_of_ready hready, sresetBody, collabCall_ok_andThen (by exact hl) (by exact hcalls),
      collabCall_ok_andThen (by exact hl) (by rfl), andThen_of_live (s := timerReset _) (by exact hl),
      collabCall_fail_andThen (by exact hl) (by rfl), collabCall_fail (by exact hl) (by rfl)]
    rfl
  case ppuStep =>
    rw [exec_dstep_cycles hready hst hr hcpu, ppuStep_fail (around_live _ (by exact hf) _) (by exact hppu),
      andThen_of_not_live (by simp [State.live]), Reference.failed, hk]
    rfl
  case getFramebuffer =>
    rw [exec_dstep_cycles hready hst hr hcpu,
      ppuStep_getFramebuffer_fails (around_live _ (by exact hf) _) (by exact hppu) (by exact hfbs),
      andThen_of_not_live (failed_live _ _ _), State.around, ← hk]
    rfl
  case render =>
    rw [exec_dstep_cycles hready hst hr hcpu,
      ppuStep_render_fails (around_live _ (by exact hf) _) (by exact hppu) (by exact hfbs) (by exact hcalls),
      andThen_of_not_live (failed_live _ _ _), State.around, ← hk]
    rfl
  case cancel =>
    rw [exec_dstep_start_failure hready hst hres hcpu hhost, abortFrame_cancel_fails (by exact hf) (by rfl) (by rfl),
      State.around, ← hst, ← hk]
    rfl

end Sys2Proof.Machine
end

section
/-! Observer calls of the PPU during its step (42_scheduler.md R174): they change no register, and the timers do not see what
they put out. -/

namespace Sys2Proof.Machine

/-! ### The record of outputs is not read by the timers -/

/-- `s` with the record of outputs `tr`. -/
def State.withTrace (s : State) (tr : List Output) : State := { s with trace := tr }

/-- `f`, begun in `s`, adds outputs to the record, the same ones whatever the record is. -/
def AddsOutputs (f : State → State) (s : State) : Prop :=
  ∃ outs, ∀ tr, f (s.withTrace tr) = (f s).withTrace (outs ++ tr)

theorem AddsOutputs.id (s : State) : AddsOutputs (fun u => u) s := ⟨[], fun _ => rfl⟩

theorem AddsOutputs.comp {f g : State → State} {s : State} (hf : AddsOutputs f s) (hg : AddsOutputs g (f s)) :
    AddsOutputs (fun u => g (f u)) s := by
  obtain ⟨outs, hf⟩ := hf
  obtain ⟨outs', hg⟩ := hg
  exact ⟨outs' ++ outs, fun tr => by simp only [hf, hg, List.append_assoc]⟩

/-- The outputs that are added to the record as it is. -/
theorem AddsOutputs.trace {f : State → State} {s : State} (h : AddsOutputs f s) :
    ∃ outs, (f s).trace = outs ++ s.trace ∧ ∀ tr, f (s.withTrace tr) = (f s).withTrace (outs ++ tr) := by
  obtain ⟨outs, h⟩ := h
  exact ⟨outs, congrArg State.trace (h s.trace), h⟩

theorem foldl_addsOutputs {α : Type} {f : State → α → State} (hf : ∀ a s, AddsOutputs (f · a) s) :
    ∀ (l : List α) (s : State), AddsOutputs (l.foldl f) s
  | [], s => .id s
  | a :: l, s => (hf a s).comp (foldl_addsOutputs hf l (f s a))

/-- A choice that does not depend on the record of outputs. -/
theorem ite_addsOutputs {p : State → Bool} {f g : State → State} {s : State} (hp : ∀ tr, p (s.withTrace tr) = p s)
    (hf : AddsOutputs f s) (hg : AddsOutputs g s) : AddsOutputs (fun u => if p u then f u else g u) s := by
  cases h : p s with
  | true =>
    obtain ⟨outs, hf⟩ := hf
    exact ⟨outs, fun tr => by simp only [hp, h, if_true, hf]⟩
  | false =>
    obtain ⟨outs, hg⟩ := hg
    exact ⟨outs, fun tr => by simp only [hp, h, Bool.false_eq_true, if_false, hg]⟩

theorem bump_addsOutputs (i : Unit4) (n : Nat) (s : State) : AddsOutputs (bump i n) s :=
  ite_addsOutputs (p := fun u => (u.unit i).overflows n && ctlIrq u.params (u.unit i).control) (fun _ => rfl)
    ⟨[.ifWrite (ifWithBit s.ifr (ifBit i)), .ifRead s.ifr], fun _ => rfl⟩ ⟨[], fun _ => rfl⟩

theorem incAlong_addsOutputs : ∀ (is : List Unit4) (n : Nat) (s : State), AddsOutputs (incAlong is n) s
  | [], _, s => .id s
  | [i], n, s => bump_addsOutputs i n s
  | i :: j :: js, n, s => by
    have hb := bump_addsOutputs i n s
    refine ite_addsOutputs (p := fun u => (u.unit i).overflows n && ((bump i n u).unit j).cascades)
      (fun tr => ?_) (hb.comp (incAlong_addsOutputs (j :: js) 1 (bump i n s))) hb
    obtain ⟨outs, hb⟩ := hb
    simp only [hb]
    rfl

theorem visit_addsOutputs (el : Nat) (i : Unit4) (s : State) : AddsOutputs (visit el · i) s :=
  ite_addsOutputs (p := fun u => !ctlEnabled (u.unit i).control) (fun _ => rfl) (.id s)
    (ite_addsOutputs (p := fun u => decide (0 < i.val) && ctlCascade (u.unit i).control) (fun _ => rfl) (.id s)
      (incAlong_addsOutputs (unitsFrom i) (advance s.params (s.unit i).control el) s))

theorem timerStep_addsOutputs (el : Nat) (s : State) : AddsOutputs (timerStep el) s :=
  foldl_addsOutputs (visit_addsOutputs el) [0, 1, 2, 3] s

/-! ### A PPU step with observer calls -/

/-- What the observer calls put out, newest first: each obtains a buffer and renders it (42_scheduler.md R173, R174). -/
def observerOutputs (bufs : List Framebuffer) : List Output :=
  bufs.reverse.flatMap fun fb => [.render fb, .getFramebuffer]

section
variable {bufs : List Framebuffer} {r : Nat} {ppu : List PpuAnswer} {fbs : List FbAnswer} {calls : List CallAnswer}

theorem ppuStep_observers {s : State} (hl : s.live = true)
    (hfbs : s.env.fbs = bufs.map (fun fb => ⟨[], .buffer fb⟩) ++ fbs)
    (hcalls : s.env.calls = List.replicate bufs.length ⟨[], .ok⟩ ++ calls)
    (hppu : s.env.ppu = ⟨List.replicate bufs.length .endOfFrame, .ok⟩ :: ppu) :
    ppuStep r s = { s with
      env := { s.env with ppu := ppu, fbs := fbs, calls := calls }
      trace := observerOutputs bufs ++ .ppuStep r :: s.trace } := by
  rw [ppuStep, takePpu_cons (s := s.log (.ppuStep r)) hppu]
  dsimp only
  rw [ppuActs_observers bufs (by exact hl) (by exact hfbs) (by exact hcalls), andThen_of_live (by exact hl)]
  rfl

/-- In surroundings. -/
theorem ppuStep_observers_around {s : State} {c : Scheduler} {e : Env} (hf : c.fault = none)
    (hfbs : e.fbs = bufs.map (fun fb => ⟨[], .buffer fb⟩) ++ fbs)
    (hcalls : e.calls = List.replicate bufs.length ⟨[], .ok⟩ ++ calls)
    (hppu : e.ppu = ⟨List.replicate bufs.length .endOfFrame, .ok⟩ :: ppu) :
    ppuStep r (s.around c e none) =
      ((s.log (.ppuStep r)).withTrace (observerOutputs bufs ++ .ppuStep r :: s.trace)).around c
        { e with ppu := ppu, fbs := fbs, calls := calls } none :=
  ppuStep_observers (around_live s hf e) hfbs hcalls hppu

end

/-- Settles O57: the timer step after the observer calls does what it does without them, so the registers are those of an
iteration in which nothing is issued. -/
theorem observerCallsChangeNoRegister : Obligations.ObserverCallsChangeNoRegister := by
  intro s bufs r cpu ppu fbs calls hr hfbs hcalls
  refine ⟨fun hl hppu => ppuStep_observers hl hfbs hcalls hppu, fun hready hst hcpu hppu => ?_,
    fun h t0 rs now hfr hpos hsum hcpu hppu => ?_⟩
  · obtain ⟨hf, _⟩ := (live_iff s).mp hready.1
    obtain ⟨outs, htrace, houts⟩ := (timerStep_addsOutputs r ((s.log .cpuStep).log (.ppuStep r))).trace
    have hexec := exec_dstep_cycles hready hst hr hcpu
    rw [ppuStep_observers_around (by exact hf) (by exact hfbs) (by exact hcalls) (by exact hppu),
      andThen_of_live (around_live _ (by exact hf) _), timerStep_around, houts, State.setBusy] at hexec
    refine ⟨_, outs, hexec, iterations_params [r] s, rfl, rfl, ?_, rfl, rfl, (List.append_assoc _ _ _).symm, htrace⟩
    change { s.sched with busy := false } = s.sched
    rw [← hready.2]
  · obtain ⟨hf, _⟩ := (live_iff s).mp hfr.ready.1
    have hrun := hfr.running
    obtain ⟨n, hexec⟩ := fire_inFrame 2 hfr hpos (by change _ ≤ 280896; omega) Nat.two_pos hcpu hppu
    obtain ⟨outs, htrace, houts⟩ := (timerStep_addsOutputs r
      (((Reference.iterations rs (s.log (.hostNow t0))).log .cpuStep).log (.ppuStep r))).trace
    rw [frameLoop_cycles _ (by exact hf) (by exact hrun) (by change rs.sum < 280896; omega) hr (by rfl), iteration,
      ppuStep_observers_around (by exact hf) (by exact hfbs) (by exact hcalls) (by rfl),
      andThen_of_live (around_live _ (by exact hf) _), countCycles_around, houts, ← iterations_concat,
      frameLoop_cpuFails n (.inl rfl) (by exact hf) (by exact hrun) (by rfl) (by exact hsum) (by rfl),
      ← hfr.ready.2] at hexec
    rw [← iterations_concat] at htrace
    refine ⟨_, outs, hexec, iterations_params _ _, rfl, rfl, rfl, rfl, rfl, ?_, htrace⟩
    exact congrArg (fun tr => Output.cpuStepFailure :: .cpuStep :: tr) (List.append_assoc _ _ _).symm

end Sys2Proof.Machine
end

section
/-! The idle block, the block after a fault, and the codes of the faults (60_exceptions.md R200, R201, R216). -/

namespace Sys2Proof.Machine

/-- Where no call hangs, an idle block answers the state it is in, with or without a fault. -/
theorem idle_eq {s : State} (hs : s.stuck = none) : idle s = .next s := by
  by_cases hf : s.sched.fault = none
  · exact command_of_live ((live_iff s).mpr ⟨hf, hs⟩) id
  · exact command_of_fault hs hf id

/-- Settles O6: with nothing to take from the queue the block idles. -/
theorem idleBlockKeepsItsState : Obligations.IdleBlockKeepsItsState := by
  intro s hif hwf hs hc
  rw [step_eq_serve hif hwf, serve, hc]
  exact idle_eq hs

/-- Settles O8: every instruction is one operation run as a command, and `S.fault` is not `none`. -/
theorem faultedBlockIgnoresEveryCommand : Obligations.FaultedBlockIgnoresEveryCommand := by
  intro i s f hf hs
  obtain ⟨op, hop⟩ := exec_eq_command i
  rw [hop]
  exact command_of_fault hs (by simp [hf]) op

/-- Settles O14: the codes do not depend on what a fault records. -/
theorem faultCodesAreTheTables : Obligations.FaultCodesAreTheTables :=
  fun _ _ _ _ _ _ => ⟨rfl, rfl, rfl, rfl, rfl, rfl, rfl, rfl⟩

end Sys2Proof.Machine
end

section
/-! Which commands emit CpuStepFailure, and what the event leaves behind (60_exceptions.md R202, 92_eei_decisions.md D16):
only AbortFrame puts it out, and AbortFrame is the end of its command. -/

namespace Sys2Proof.Machine

/-! ### What puts out no event -/

/-- The event CpuStepFailure has been put out `n` times. -/
def EventCount (n : Nat) (s : State) : Prop := s.trace.count .cpuStepFailure = n

section
variable {n : Nat}

theorem log_eventCount {s : State} {o : Output} (ho : o ≠ .cpuStepFailure) (h : EventCount n s) :
    EventCount n (s.log o) :=
  (List.count_cons_of_ne ho).trans h

/-- The same trace, the same number of events. -/
theorem eventCount_of_trace {s t : State} (ht : t.trace = s.trace) (h : EventCount n s) : EventCount n t := by
  rw [EventCount, ht]
  exact h

theorem schedule_eventCount (delay : Ms) {s : State} (h : EventCount n s) : EventCount n (s.schedule delay) :=
  eventCount_of_trace (schedule_frameRegs_trace delay s).2
    (log_eventCount (o := .hostSchedule s.env.nextHandle delay) (by simp) h)

theorem cancelPending_eventCount {s : State} (h : EventCount n s) : EventCount n s.cancelPending := by
  cases hp : s.sched.pending with
  | none => rwa [cancelPending_none hp]
  | some k =>
    exact eventCount_of_trace (cancelPending_frameRegs_trace hp).2 (log_eventCount (o := .hostCancel k.num) (by simp) h)

/-- So nothing that may run inside an operation puts out the event. -/
theorem eventCount_kept (n : Nat) : Kept (EventCount n) where
  answers k h := eventCount_of_trace k.trace h
  raise _ _ h := h
  hang _ _ h := h
  log _ _ ho h := log_eventCount (by rintro rfl; cases ho) h
  timers _ _ h := h
  flags _ _ h := h
  rate _ _ _ h := h
  start s h := by
    cases hst : s.sched.state with
    | running => rwa [startOp_of_running hst]
    | stopped =>
      rw [startOp_of_stopped hst]
      exact schedule_eventCount (s := s.setState .running) 0 h
  stop s h := by
    cases hst : s.sched.state with
    | stopped => rwa [stopOp_of_stopped hst]
    | running =>
      rw [stopOp_of_running hst]
      exact cancelPending_eventCount (s := s.setState .stopped) h

theorem cpuStep_eventCount {s : State} (h : EventCount n s) : EventCount n (cpuStep s).2 :=
  (eventCount_kept n).cpuStep (log_eventCount (by simp) h)

theorem hostNow_eventCount {s : State} (h : EventCount n s) : EventCount n s.hostNow.2 := by
  have h1 := eventCount_of_trace (takeNow_same s).trace h
  unfold State.hostNow
  split <;> rename_i he <;> rw [he] at h1
  · exact log_eventCount (by simp) h1
  · exact h1

theorem statistics_eventCount {s : State} (h : EventCount n s) : EventCount n (statistics s) :=
  andThen_keeps (hostNow_eventCount (s := s.countFrame) h) fun _ h1 => h1

theorem pacing_eventCount {s : State} (h : EventCount n s) : EventCount n (pacing s) := by
  rw [pacing]
  refine andThen_keeps (hostNow_eventCount h) fun _ h1 => ?_
  split
  exacts [schedule_eventCount _ h1, h1]

theorem frameTail_eventCount {s : State} (h : EventCount n s) : EventCount n (frameTail s) := by
  unfold frameTail
  split
  · exact h
  · have h1 := andThen_keeps (statistics_eventCount h) fun _ => pacing_eventCount
    exact andThen_keeps h1 fun _ h2 => andThen_keeps ((eventCount_kept n).frameComplete h2) fun _ h3 => h3

theorem sresetBody_eventCount {s : State} (h : EventCount n s) : EventCount n (sresetBody s) := by
  have k := eventCount_kept n
  have h1 := k.collabCall .cpuReset (o := .cpuReset) rfl (s := s.setBusy true) h
  have h2 := andThen_keeps h1 fun _ => k.collabCall .ppuReset (o := .ppuReset) rfl
  have h3 := andThen_keeps h2 fun _ => k.timerReset
  exact andThen_keeps (andThen_keeps h3 fun _ => k.collabCall .inputReset (o := .inputReset) rfl) fun _ h4 => h4

/-! ### AbortFrame -/

/-- What 60_exceptions.md R202 asks for after the event: stopped, nothing pending, no operation in progress, no fault; and
the event is the last output. -/
structure AfterEvent (s : State) : Prop where
  stopped : s.sched.state = .stopped
  idle : s.sched.pending = none
  not_busy : s.sched.busy = false
  live : s.live = true
  last : s.trace.head? = some .cpuStepFailure

theorem cancelPending_state (s : State) : s.cancelPending.sched.state = s.sched.state := by
  unfold State.cancelPending
  split
  · rfl
  · exact andThen_keeps (P := fun t => t.sched.state = s.sched.state) (by rw [hostCall_sched]) fun _ h => h

/-- A cancel that does not stop the block leaves nothing pending. -/
theorem cancelPending_pending {s : State} (hl : s.cancelPending.live = true) : s.cancelPending.sched.pending = none := by
  cases hp : s.sched.pending with
  | none => rwa [cancelPending_none hp]
  | some k =>
    rw [State.cancelPending, hp] at hl ⊢
    dsimp only at hl ⊢
    obtain ⟨_, he⟩ | ⟨hdead, he⟩ :=
      andThen_cases (hostCall .hostCancel (.hostCancel k.num) s) fun s1 => s1.setPending none
    · rw [he]
      rfl
    · rw [he, hdead] at hl
      cases hl

/-- The event has not come, or the block is as it leaves it. -/
def EventLast (n : Nat) (s : State) : Prop := EventCount n s ∨ AfterEvent s

/-- Either the cancel stops the block (log 17), or the event comes and the block is stopped with nothing pending. -/
theorem abortFrame_eventLast {s : State} (h : EventCount n s) : EventLast n (abortFrame s) := by
  obtain ⟨hl, he⟩ | ⟨_, he⟩ := andThen_cases (s.setState .stopped).cancelPending
    fun s1 => (s1.setBusy false).log .cpuStepFailure <;> rw [abortFrame, he]
  · exact .inr ⟨cancelPending_state _, cancelPending_pending hl, rfl, hl, rfl⟩
  · exact .inl (cancelPending_eventCount (s := s.setState .stopped) h)

/-! ### The commands that call `CPU.step()` -/

/-- After a call of `CPU.step()` that put out no event. -/
theorem afterCpu_eventLast {res : CpuResult × State} {g : Nat → State → State} (h : EventCount n res.2)
    (hg : ∀ r u, EventCount n u → EventLast n (g r u)) : EventLast n (afterCpu res abortFrame g) := by
  refine andThen_keeps (.inl h) fun _ _ => ?_
  split
  exacts [.inl h, abortFrame_eventLast h, abortFrame_eventLast h, hg _ _ h]

theorem frameLoop_eventLast (k : Nat) : ∀ {s : State}, EventCount n s → EventLast n (frameLoop k s) := by
  induction k with
  | zero => exact fun h => .inl (frameTail_eventCount h)
  | succ k ih =>
    intro s h
    unfold frameLoop
    split
    · split
      · exact .inl h
      · refine afterCpu_eventLast (cpuStep_eventCount h) fun r u hu => ?_
        have hppu := (eventCount_kept n).ppuStep r hu
        exact andThen_keeps (.inl hppu) fun _ _ => ih ((eventCount_kept n).timerStep r hppu)
    · exact .inl (frameTail_eventCount h)

theorem runFrame_eventLast {s : State} (h : EventCount n s) : EventLast n (runFrame s) := by
  unfold runFrame
  split
  · exact .inl h
  · have hnow := hostNow_eventCount (s := s.setBusy true) h
    exact andThen_keeps (.inl hnow) fun _ _ => frameLoop_eventLast _ hnow

theorem fireBody_eventLast {s : State} (h : EventCount n s) : EventLast n (fireBody s) := by
  unfold fireBody
  split
  exacts [.inl h, runFrame_eventLast h]

theorem dstepBody_eventLast {s : State} (h : EventCount n s) : EventLast n (dstepBody s) := by
  refine afterCpu_eventLast (cpuStep_eventCount (s := s.setBusy true) h) fun r u hu => ?_
  have hppu := (eventCount_kept n).ppuStep r hu
  exact andThen_keeps (.inl hppu) fun _ _ => .inl ((eventCount_kept n).timerStep r hppu)

theorem unlessBusy_eventLast (op : Byte) {f : State → State} {s : State} (h : EventCount n s)
    (hf : EventLast n (f s)) : EventLast n (unlessBusy op f s) := by
  unfold unlessBusy
  split
  exacts [.inl h, hf]

theorem fireGate_eventLast {f : State → State} {s : State} (h : EventCount n s) (hf : EventLast n (f s)) :
    EventLast n (fireGate f s) := by
  unfold fireGate
  split
  exacts [.inl h, unlessBusy_eventLast _ h hf]

theorem dstepGate_eventLast {f : State → State} {s : State} (h : EventCount n s) (hf : EventLast n (f s)) :
    EventLast n (dstepGate f s) := by
  unfold dstepGate
  split
  exacts [.inl h, unlessBusy_eventLast _ h hf]

/-- A command other than FIRE and DSTEP puts out no event; in these two it is the end. -/
theorem exec_event {i : Instr} {s t : State} (h : EventCount n s) (ht : exec i s = .next t) :
    EventCount n t ∨ AfterEvent t ∧ (i = .fire ∨ i = .dstep) := by
  have k := eventCount_kept n
  by_cases h1 : i = .sreset
  · subst h1
    exact .inl (command_keeps (fun _ => k.unlessBusy _ h (sresetBody_eventCount h)) h ht)
  by_cases h2 : i = .fire
  · subst h2
    have hlast : EventLast n t :=
      command_keeps (fun _ => fireGate_eventLast h (fireBody_eventLast h)) (.inl h) ht
    exact hlast.imp_right fun ha => ⟨ha, .inl rfl⟩
  by_cases h3 : i = .dstep
  · subst h3
    have hlast : EventLast n t :=
      command_keeps (fun _ => dstepGate_eventLast h (dstepBody_eventLast h)) (.inl h) ht
    exact hlast.imp_right fun ha => ⟨ha, .inr rfl⟩
  rw [exec_eq_nestedOp h1 h2 h3] at ht
  exact .inl (command_keeps (k.nestedOp i) h ht)

end

/-- Settles O42: the event is among the outputs of the command, so its number has gone up. -/
theorem cpuStepFailureLeavesTheBlockStopped : Obligations.CpuStepFailureLeavesTheBlockStopped := by
  intro i s t outs ht htrace hevent
  have hcount : EventCount (s.trace.count .cpuStepFailure) s := rfl
  obtain hsame | ⟨⟨hstopped, hidle, hbusy, hl, hlast⟩, hi⟩ := exec_event hcount ht
  · have hpos := List.count_pos_iff.mpr hevent
    rw [EventCount, htrace, List.count_append] at hsame
    omega
  · refine ⟨hstopped, hidle, hbusy, hl, ?_, hi⟩
    rwa [htrace, List.head?_append_of_ne_nil _ (List.ne_nil_of_mem hevent)] at hlast

end Sys2Proof.Machine
end

section
/-! A command that a collaborator issues and that faults stops the outermost operation there (60_exceptions.md R201 item 2,
R203). -/

namespace Sys2Proof.Machine

/-! ### One nested command -/

/-- A bus read does the same at an address with a row of its own (log 8). -/
theorem nestedOp_decodeBusr (a : Word) (s : State) : nestedOp (decodeBusr a) s = busrOp a s := by
  unfold decodeBusr
  split_ifs <;> simp only [nestedOp, *]

theorem nestedWord_busr (a : Word) (s : State) : nestedWord (encode (.busr a)) s = busrOp a s := by
  have hd : decode (encode (.busr a)) = .ok (decodeBusr a) := decode_pack ..
  rw [nestedWord, hd]
  exact nestedOp_decodeBusr a s

theorem nestedWord_illegal {w : Cmd} (h : Reference.Illegal w) (s : State) :
    nestedWord w s = s.raise (.illegalCommand w) := by
  obtain ⟨r, hr⟩ := (decode_rejects_iff w).mpr h
  rw [nestedWord, hr]

/-- A word whose checks raise a fault does nothing but raise it. -/
theorem nestedWord_of_raises {u : State} {w : Cmd} {f : BlockFault} (hb : u.sched.busy = true)
    (h : Reference.Raises u w f) : nestedWord w u = u.raise f := by
  cases h with
  | illegal _ hw => exact nestedWord_illegal hw u
  | treset | tstep _ | sreset => exact (nestedWord_encode rfl u).trans (unlessBusy_of_busy hb _ _)
  | fire hp =>
    obtain ⟨k, hk⟩ := Option.ne_none_iff_exists'.mp hp
    exact (nestedWord_encode rfl u).trans ((fireGate_of_some hk id).trans (unlessBusy_of_busy hb _ _))
  | dstepRunning hrun => exact (nestedWord_encode rfl u).trans (dstepGate_of_running hrun id)
  | dstepBusy hst =>
    exact (nestedWord_encode rfl u).trans ((dstepGate_of_stopped hst id).trans (unlessBusy_of_busy hb _ _))
  | twctl idx byte hi =>
    refine (nestedWord_encode rfl u).trans ?_
    simp only [nestedOp, twctlOp, unitOfIdx_of_ge hi]
  | twrld idx half hi =>
    refine (nestedWord_encode rfl u).trans ?_
    simp only [nestedOp, twrldOp, unitOfIdx_of_ge hi]
  | busr a ha => rw [nestedWord_busr, busrOp, regAt, lookup_of_not_mem ha]
  | busw v a ha => simp only [nestedWord, decode_encode_busw, nestedOp_decodeBusw, buswOp, regAt, lookup_of_not_mem ha]
  | setfps => exact nestedWord_encode rfl u

/-- The block is in the state `t`, and something has stopped it there. -/
structure StoppedAt (t s : State) : Prop where
  eq : s = t
  dead : t.live = false

/-- Nothing goes on from there. -/
theorem StoppedAt.andThen {s t : State} (h : StoppedAt t s) (k : State → State) : StoppedAt t (s.andThen k) := by
  obtain ⟨rfl, hdead⟩ := h
  exact ⟨andThen_of_not_live hdead k, hdead⟩

theorem nestedWord_of_stops {u t : State} {w : Cmd} (hl : u.live = true) (hb : u.sched.busy = true)
    (h : Reference.Stops u w t) : StoppedAt t (nestedWord w u) := by
  cases h with
  | @checks w f hr =>
    rw [nestedWord_of_raises hb hr, ← raise_of_live hl f]
    exact ⟨rfl, raise_live u f⟩
  | start hst hhost =>
    refine ⟨(nestedWord_encode rfl u).trans ?_, failed_live _ _ _⟩
    exact (startOp_of_stopped hst).trans (schedule_fail (s := u.setState .running) 0 hl hhost)
  | stop hrun hp hhost =>
    refine ⟨(nestedWord_encode rfl u).trans ?_, failed_live _ _ _⟩
    exact (stopOp_of_running hrun).trans (cancelPending_fail (s := u.setState .stopped) hl hp hhost)

/-! ### One call -/

section
variable {v t : State}

theorem nestedAll_of_nestedStops {ws : List Cmd} (hb : v.sched.busy = true) (h : Reference.NestedStops ws v t) :
    StoppedAt t (nestedAll ws v) := by
  obtain ⟨before, w, after, rfl, hl, hstop⟩ := h
  have hw := nestedWord_of_stops hl ((busy_kept true).nestedAll before hb) hstop
  rwa [nestedAll_stops hl (by rw [hw.eq, hw.dead])]

theorem collabCall_of_nestedStops {c : Call} {o : Output} {ws : List Cmd} {reply : Reply} {l : List CallAnswer}
    (hb : v.sched.busy = true) (hcalls : v.env.calls = ⟨ws, reply⟩ :: l)
    (h : Reference.NestedStops ws { v with env := { v.env with calls := l }, trace := o :: v.trace } t) :
    StoppedAt t (collabCall c o v) := by
  have hall := nestedAll_of_nestedStops (by exact hb) h
  rwa [collabCall_of_nested_stopped hcalls (by rw [hall.eq, hall.dead])]

theorem frameComplete_of_stops (hl : v.live = true) (hb : v.sched.busy = true) (h : Reference.FrameCompleteStops v t) :
    StoppedAt t (frameComplete v) := by
  obtain ⟨ws, res, fbs, hfbs, hstop⟩ | ⟨fb, fbs, ws, reply, calls, hfbs, hcalls, hstop⟩ := h
  · have hall := nestedAll_of_nestedStops (by exact hb) hstop
    rwa [frameComplete_of_nested_stopped hfbs (by rw [hall.eq, hall.dead])]
  · rw [frameComplete_buffer hl hfbs]
    exact collabCall_of_nestedStops (by exact hb) (by exact hcalls) hstop

theorem ppuActs_of_stop {acts : List PpuAct} (hb : v.sched.busy = true) (h : Reference.PpuActsStop acts v t) :
    StoppedAt t (ppuActs acts v) := by
  obtain ⟨before, act, after, rfl, hl, hact⟩ := h
  have hb1 := (busy_kept true).ppuActs before hb
  have hstop : StoppedAt t (ppuAct act (ppuActs before v)) := by
    obtain ⟨w, rfl, hw⟩ | ⟨rfl, hfc⟩ := hact
    exacts [nestedWord_of_stops hl hb1 hw, frameComplete_of_stops hl hb1 hfc]
  rwa [ppuActs_stops hl (by rw [hstop.eq, hstop.dead])]

theorem ppuStep_of_stop {r : Nat} {acts : List PpuAct} {reply : Reply} {l : List PpuAnswer}
    (hb : v.sched.busy = true) (hppu : v.env.ppu = ⟨acts, reply⟩ :: l)
    (h : Reference.PpuActsStop acts { v with env := { v.env with ppu := l }, trace := .ppuStep r :: v.trace } t) :
    StoppedAt t (ppuStep r v) := by
  have hacts := ppuActs_of_stop (by exact hb) h
  rwa [ppuStep_of_acts_stopped hppu (by rw [hacts.eq, hacts.dead])]

end

/-! ### The operations -/

/-- Settles O54: the state in which the call is made is known, its commands stop there, and no part of the frame follows. -/
theorem nestedFaultStopsTheFrame : Obligations.NestedFaultStopsTheFrame := by
  intro s t h t0 rs cpu ppu now hfr hpos
  obtain ⟨hf, _⟩ := (live_iff s).mp hfr.ready.1
  have hrun := hfr.running
  refine ⟨fun ws res hsum hcpu hppu hstop => ?cpu, fun r acts reply hr hsum hcpu hppu hstop => ?ppu,
    fun t1 t2 rest host hdrop hsum hcpu hppu hnow h1 h2 hhost hstop => ?step5⟩
  case cpu =>
    obtain ⟨n, hn⟩ := fire_inFrame 1 hfr hpos hsum Nat.one_pos hcpu hppu
    rw [inFrame_eq_around] at hstop
    rw [hn, frameLoop_scripted n (by exact hrun) (by exact hsum) (by rfl)]
    exact congrArg _ ((nestedAll_of_nestedStops rfl hstop).andThen _).eq
  case ppu =>
    obtain ⟨n, hn⟩ := fire_inFrame 1 hfr hpos hsum Nat.one_pos hcpu hppu
    rw [inFrame_eq_around] at hstop
    rw [hn, frameLoop_cycles n (by exact hf) (by exact hrun) (by exact hsum) hr (by rfl)]
    exact congrArg _ ((ppuStep_of_stop (by rfl) (by rfl) (by exact hstop)).andThen _).eq
  case step5 =>
    subst hnow
    have hl := inFrame_live hfr.ready rs cpu ppu (.reads t1 :: .reads t2 :: rest) (t0 := t0)
    rw [fire_notifies hfr hpos hdrop hsum hcpu hppu h1 h2 hhost]
    exact congrArg _ ((frameComplete_of_stops (by exact hl) rfl hstop).andThen _).eq

/-- Settles O55: the parts of the operation before the call have run, and no part follows it. -/
theorem nestedFaultStopsTheOperation : Obligations.NestedFaultStopsTheOperation := by
  intro s t hready
  have ⟨hl, _⟩ := hready
  refine ⟨fun ws res cpu hst hcpu hstop => ?cpu, fun r cpu acts reply ppu hst hr hcpu hppu hstop => ?ppu,
    fun ws reply calls hcalls hstop => ?cpuReset, fun ws reply calls hcalls hstop => ?ppuReset,
    fun ws reply calls hcalls hstop => ?inputReset⟩
  case cpu =>
    rw [exec_dstep_scripted hready hst hcpu, around_none_of_live (by exact hl)]
    exact congrArg _ ((nestedAll_of_nestedStops rfl hstop).andThen _).eq
  case ppu =>
    rw [exec_dstep_cycles hready hst hr hcpu, around_none_of_live (by exact hl)]
    exact congrArg _ ((ppuStep_of_stop (by rfl) (by exact hppu) (by exact hstop)).andThen _).eq
  case cpuReset =>
    have hcall := collabCall_of_nestedStops (v := s.setBusy true) (c := .cpuReset) rfl hcalls hstop
    rw [exec_sreset_of_ready hready, sresetBody, ((((hcall.andThen _).andThen _).andThen _).andThen _).eq]
  case ppuReset =>
    rw [exec_sreset_of_ready hready, sresetBody, collabCall_ok_andThen (by exact hl) (by exact hcalls)]
    exact congrArg _ ((((collabCall_of_nestedStops (by rfl) (by rfl) (by exact hstop)).andThen _).andThen _).andThen _).eq
  case inputReset =>
    rw [exec_sreset_of_ready hready, sresetBody, collabCall_ok_andThen (by exact hl) (by exact hcalls),
      collabCall_ok_andThen (by exact hl) (by rfl), andThen_of_live (s := timerReset _) (by exact hl)]
    exact congrArg _ ((collabCall_of_nestedStops (by rfl) (by rfl) (by exact hstop)).andThen _).eq

end Sys2Proof.Machine
end

section
/-! A call of `CPU.step()` that never returns, in a debug step and in a frame (93_implementation_defined.md I19,
70_reset_and_hazards.md R243). -/

namespace Sys2Proof.Machine

/-- Inside a call that never returns every instruction is the machine's own stop: each is one operation run as a command
(log 16). -/
theorem exec_of_stuck {t : State} {c : Call} (h : t.stuck = some c) (i : Instr) :
    exec i t = .fault (.neverReturned c) := by
  obtain ⟨op, hop⟩ := exec_eq_command i
  rw [hop, command, h]

section
variable {s : State} {cpu : List CpuAnswer}

/-- A debug step whose CPU step never returns stops inside the call. -/
theorem exec_dstep_never (h : Reference.Ready s) (hst : s.sched.state = .stopped)
    (hcpu : s.env.cpu = ⟨[], .never⟩ :: cpu) :
    exec .dstep s = .next (((s.log .cpuStep).around { s.sched with busy := true } { s.env with cpu := cpu }
      none).hang .cpuStep) := by
  obtain ⟨hf, _⟩ := (live_iff s).mp h.1
  rw [exec_dstep_scripted h hst hcpu, nestedAll_nil, afterCpu_never (around_live _ (by exact hf) _)]

/-- A CPU step that never returns stops the cycle loop inside the call. -/
theorem frameLoop_never {c : Scheduler} {e : Env} (n : Nat) (hf : c.fault = none) (hrun : c.state = .running)
    (hb : c.acc < frameBudget) (hcpu : e.cpu = ⟨[], .never⟩ :: cpu) :
    frameLoop (n + 1) (s.around c e none) =
      ((s.log .cpuStep).around c { e with cpu := cpu } none).hang .cpuStep := by
  rw [frameLoop_scripted n hrun hb hcpu, nestedAll_nil, afterCpu_never (around_live _ hf _)]

end

/-- Settles O56: the state in which the call is made is known, and the hang is all that is added to it. -/
theorem hungCpuLeavesTheBlockStuck : Obligations.HungCpuLeavesTheBlockStuck := by
  refine ⟨fun s cpu hready hst hcpu => ?dstep, fun s h t0 rs cpu ppu now hfr hpos hsum hcpu hppu => ?fire⟩
  case dstep =>
    exact ⟨_, exec_dstep_never hready hst hcpu, rfl, rfl, rfl, exec_of_stuck rfl⟩
  case fire =>
    obtain ⟨hf, _⟩ := (live_iff s).mp hfr.ready.1
    have hrun := hfr.running
    obtain ⟨n, hn⟩ := fire_inFrame 1 hfr hpos hsum Nat.one_pos hcpu hppu
    rw [frameLoop_never n (by exact hf) (by exact hrun) (by exact hsum) (by rfl)] at hn
    refine ⟨_, hn, ?_, exec_of_stuck rfl⟩
    rw [inFrame_eq_around]
    rfl

end Sys2Proof.Machine
end
